-- ==== Sys2Proof/Word.lean ====
section
/-! DEFINITION. The two data widths of the block: 8-bit bytes and single line levels (00_scope.md R10). -/

namespace Sys2Proof

/-- "All data values are 8-bit unsigned bytes unless a width is stated" (R10). -/
abbrev Byte := BitVec 8

/-- A level 0 or 1 of an output line or of the busy line (R7, R44). -/
abbrev Bit := BitVec 1

end Sys2Proof
end

