-- ==== Sys2Proof/Config.lean ====
section
/-! DEFINITION. The build-time configuration record CFG (00_scope.md R5) and the free values: what the
environment draws under no law, and the CFG bytes the spec marks OPEN. A free value is an opaque constant,
so no proof can lean on a number for it. -/

namespace Sys2Proof

/-- The two acknowledgement conventions (43_dispatcher.md R176). -/
inductive AckMode where
  | ack
  | silent
  deriving DecidableEq, Repr, Inhabited

/-- The two panel profiles (30_encoding.md R89). -/
inductive Profile where
  | p1
  | p2
  deriving DecidableEq, Repr, Inhabited

/-- Exactly three data bytes, in the order they are sent (`BTST_DATA`, `TRES_DATA` of R5). -/
structure Triple where
  b0 : Byte
  b1 : Byte
  b2 : Byte
  deriving DecidableEq, Repr

/-- The three bytes as the list SEND takes. -/
def Triple.toList (t : Triple) : List Byte := [t.b0, t.b1, t.b2]

/-- The configuration record `CFG` (R5): every field "is fixed when the block is built and never changes while
it runs". The derived fields `BPR` and `PLANE_SIZE` are functions below. `PAYLOAD_LEN` is a field, because
R6 `wf_payload` checks it and R125 speaks of builds that relax that check. -/
structure Cfg where
  width : Nat
  height : Nat
  payloadLen : Nat
  opSendBuffer : Byte
  opWriteScreen : Byte
  opClearScreen : Byte
  ackMode : AckMode
  ackByte : Byte
  busyActive : Bit
  busyMaxPolls : Nat
  pollMs : Nat
  settleMs : Nat
  rstHighMs : Nat
  rstLowMs : Nat
  rstSettleMs : Nat
  wdtTimeout : Nat
  profile : Profile
  psrDataP1 : Byte
  psrDataP2 : Byte
  cdiDataP1 : Byte
  cdiDataP2 : Byte
  clearByteBlack : Byte
  clearByteRed : Byte
  initBusyWait : Bool
  cmdBtst : Byte
  btstData : Triple
  cmdPon : Byte
  cmdPsr : Byte
  cmdCdi : Byte
  cmdTres : Byte
  tresData : Triple
  cmdDtm1 : Byte
  cmdDtm2 : Byte
  cmdDrf : Byte
  cmdFlg : Byte
  cmdPof : Byte
  cmdDslp : Byte
  dslpData : List Byte
  sleepCdiData : Byte
  deriving DecidableEq, Repr

/-- `BPR = (WIDTH + 7) div 8` (R5). -/
def Cfg.bpr (c : Cfg) : Nat := (c.width + 7) / 8

/-- `PLANE_SIZE = BPR * HEIGHT` (R5). -/
def Cfg.planeSize (c : Cfg) : Nat := c.bpr * c.height

/-- `PSR_DATA[PROFILE]` (R89, R122). -/
def Cfg.psrData (c : Cfg) : Byte :=
  match c.profile with
  | .p1 => c.psrDataP1
  | .p2 => c.psrDataP2

/-- `CDI_DATA[PROFILE]` (R89, R122). -/
def Cfg.cdiData (c : Cfg) : Byte :=
  match c.profile with
  | .p1 => c.cdiDataP1
  | .p2 => c.cdiDataP2

/-- The general-knowledge layout of `TRES_DATA`: `WIDTH[7:0]`, `HEIGHT[15:8]`, `HEIGHT[7:0]` (R5, R67, D26). -/
def Cfg.gkTres (width height : Nat) : Triple :=
  ⟨BitVec.ofNat 8 width, BitVec.ofNat 8 (height / 256), BitVec.ofNat 8 height⟩

/-! ## Free values -/

/-- The byte a read of an UNWRITTEN cell returns, which "the model draws freshly on every read, under no law" (R65):
the argument is the count of draws so far. DESIGN CHOICE, log entry 10. -/
opaque Config.unwrittenByte : Nat → Byte

/-- A busy-line sample beyond those the state lists, "under no law" (10_state.md R44). DESIGN CHOICE, log entry 8. -/
opaque Config.busyLevel : Nat → Bit

/-- Whether the control request is taken before the host byte, when both are ready and the state lists no choice
("the model admits both orders", R178). DESIGN CHOICE, log entry 9. -/
opaque Config.controlFirst : Nat → Bool

/-- Whether a call of `Diag` puts its line on the diagnostic trace: "emission may be dropped" (R215), "any value" (I18
of 93_implementation_defined.md). The argument is the count of calls so far. DESIGN CHOICE, log entry 12. -/
opaque Config.lineEmitted : Nat → Bool

/-- The build's `PROFILE` (OPEN, R5). Log entry 3. -/
opaque Config.profile : Profile

/-- `PSR_DATA[P1]` (OPEN, R5). Log entry 3. -/
opaque Config.psrDataP1 : Byte

/-- `PSR_DATA[P2]` (OPEN, R5). Log entry 3. -/
opaque Config.psrDataP2 : Byte

/-- `CDI_DATA[P1]` (OPEN, R5). Log entry 3. -/
opaque Config.cdiDataP1 : Byte

/-- `CDI_DATA[P2]` (OPEN, R5). Log entry 3. -/
opaque Config.cdiDataP2 : Byte

/-- `CLEAR_BYTE_RED` (OPEN, R5 and conflict C4). Log entry 3. -/
opaque Config.clearByteRed : Byte

/-- The build that `State.reset` belongs to: the values R5 gives; the general-knowledge defaults R5 marks GK
(PRESUMED, log entry 2); the free values above for the OPEN bytes that are only moved; and for the OPEN values that
must be compared, the spec's own test binding for the three opcodes and 999 ms for `WDT_TIMEOUT` (DESIGN CHOICE, log
entries 1 and 4). Every statement about instructions and steps holds for every CFG, not for this one only. -/
def Cfg.build : Cfg where
  width := 104
  height := 212
  payloadLen := 5512
  opSendBuffer := 0x01
  opWriteScreen := 0x02
  opClearScreen := 0x03
  ackMode := .ack
  ackByte := 0x06
  busyActive := 1
  busyMaxPolls := 1000
  pollMs := 10
  settleMs := 200
  rstHighMs := 100
  rstLowMs := 2
  rstSettleMs := 10
  wdtTimeout := 999
  profile := Config.profile
  psrDataP1 := Config.psrDataP1
  psrDataP2 := Config.psrDataP2
  cdiDataP1 := Config.cdiDataP1
  cdiDataP2 := Config.cdiDataP2
  clearByteBlack := 0xFF
  clearByteRed := Config.clearByteRed
  initBusyWait := false
  cmdBtst := 0x06
  btstData := ⟨0x17, 0x17, 0x17⟩
  cmdPon := 0x04
  cmdPsr := 0x00
  cmdCdi := 0x50
  cmdTres := 0x61
  tresData := ⟨0x68, 0x00, 0xD4⟩
  cmdDtm1 := 0x10
  cmdDtm2 := 0x13
  cmdDrf := 0x12
  cmdFlg := 0x71
  cmdPof := 0x02
  cmdDslp := 0x07
  dslpData := [0xA5]
  sleepCdiData := 0xF7

end Sys2Proof
end

