-- ==== Sys2Proof/Syntax.lean ====
section
/-! DEFINITION. The abstract syntax: one constructor of `Instr` for every row of spec/opcode_table.json, and the
words the four formats of 30_encoding.md R80 are made of. -/

namespace Sys2Proof

/-- A request on the local control port (10_state.md R46). -/
inductive CtlReq where
  | init
  | sleep
  deriving DecidableEq, Repr

/-- The source of a plane write: a source "giving one byte for each index …
(a constant, or a read of the store)" (40_bus_framing.md R109). Under DTM1 the store's half is the black plane, under DTM2 the red one (R124). -/
inductive PlaneSrc where
  | const (b : Byte)
  | store
  deriving DecidableEq, Repr

/-- One instruction of the block: a row of the opcode table. -/
inductive Instr where
  /-- `SEND_BUFFER` (R172). Its payload is read from the link while it runs. -/
  | sendBuffer
  /-- `WRITE_SCREEN` (R173). -/
  | writeScreen
  /-- `CLEAR_SCREEN` (R174). -/
  | clearScreen
  /-- `UNKNOWN`: any other opcode byte (R84, R175). -/
  | unknown (op : Byte)
  /-- `ACK` (R86, R176). -/
  | ack
  /-- `CTL_INIT` (R177). -/
  | ctlInit
  /-- `CTL_SLEEP` (R177). -/
  | ctlSleep
  /-- `BTST`: booster soft-start with `BTST_DATA` (R88, R121). -/
  | btst
  /-- `PON`: power-on (R88, R121). -/
  | pon
  /-- `PSR`: panel setting with `PSR_DATA[PROFILE]` (R88, R121). -/
  | psr
  /-- `CDI`: VCOM and data interval; `b` is `CDI_DATA[PROFILE]` in Initialize and `SLEEP_CDI_DATA` in Sleep (R88). -/
  | cdi (b : Byte)
  /-- `TRES`: resolution with `TRES_DATA` (R88, R121). -/
  | tres
  /-- `DTM1`: black-plane write (R109). -/
  | dtm1 (src : PlaneSrc)
  /-- `DTM2`: red-plane write (R109). -/
  | dtm2 (src : PlaneSrc)
  /-- `DRF`: refresh trigger (R126). -/
  | drf
  /-- `FLG`: busy-status read (R151). -/
  | flg
  /-- `POF`: power-off (R127). -/
  | pof
  /-- `DSLP`: deep sleep with `DSLP_DATA` (R127). -/
  | dslp
  /-- `DATA`: one framed data byte (R101). -/
  | data (b : Byte)
  /-- `Initialize` (R121). -/
  | initPanel
  /-- `Clear` (R123). -/
  | clear
  /-- `Display` (R124). -/
  | display
  /-- `Refresh` (R126). -/
  | refresh
  /-- `Sleep` (R127). -/
  | sleep
  /-- `BusyWait` (R150). -/
  | busyWait
  deriving DecidableEq, Repr

/-- The formats of the opcode table (R80), and `internal` for the rows that have no encoding. -/
inductive Format where
  | hostCmd
  | ackByte
  | panelWord
  | ctlReq
  | internal
  deriving DecidableEq, Repr

/-- One word of a format (R80): a byte from the host, a byte to the host, a panel command byte (sent with DC = 0), a
panel data byte (sent with DC = 1) (R87), or a symbolic control request. -/
inductive Wire where
  | host (b : Byte)
  | tx (b : Byte)
  | command (b : Byte)
  | data (b : Byte)
  | ctl (q : CtlReq)
  deriving DecidableEq, Repr

/-- The level of DC a panel word is sent with (R87). -/
def Wire.dc : Wire → Option Bit
  | .command _ => some 0
  | .data _ => some 1
  | .host _ => none
  | .tx _ => none
  | .ctl _ => none

/-- The format a word belongs to (R80). -/
def Wire.format : Wire → Format
  | .host _ => .hostCmd
  | .tx _ => .ackByte
  | .command _ => .panelWord
  | .data _ => .panelWord
  | .ctl _ => .ctlReq

/-- The "format" column of the opcode table. -/
def Instr.format : Instr → Format
  | .sendBuffer => .hostCmd
  | .writeScreen => .hostCmd
  | .clearScreen => .hostCmd
  | .unknown _ => .hostCmd
  | .ack => .ackByte
  | .ctlInit => .ctlReq
  | .ctlSleep => .ctlReq
  | .btst => .panelWord
  | .pon => .panelWord
  | .psr => .panelWord
  | .cdi _ => .panelWord
  | .tres => .panelWord
  | .dtm1 _ => .panelWord
  | .dtm2 _ => .panelWord
  | .drf => .panelWord
  | .flg => .panelWord
  | .pof => .panelWord
  | .dslp => .panelWord
  | .data _ => .panelWord
  | .initPanel => .internal
  | .clear => .internal
  | .display => .internal
  | .refresh => .internal
  | .sleep => .internal
  | .busyWait => .internal

end Sys2Proof
end

