-- ==== Sys2Proof/WellFormed.lean ====
section
/-! DEFINITION. Well-formedness of a configuration (00_scope.md R6, one named check each) and of an instruction
under a configuration. -/

namespace Sys2Proof

/-- The named checks of R6. -/
inductive CfgCheck where
  | geometry
  | payload
  | opcodesDistinct
  | ceiling
  | resetMinimums
  | watchdog
  | tres
  deriving DecidableEq, Repr

/-- The checks in R6's order. -/
def CfgCheck.all : List CfgCheck :=
  [.geometry, .payload, .opcodesDistinct, .ceiling, .resetMinimums, .watchdog, .tres]

/-- What each check of R6 asks. -/
def Cfg.passes (c : Cfg) : CfgCheck → Bool
  | .geometry => decide (1 ≤ c.width) && decide (1 ≤ c.height)
  | .payload => c.payloadLen == 2 * c.planeSize
  | .opcodesDistinct =>
      c.opSendBuffer != c.opWriteScreen && c.opSendBuffer != c.opClearScreen
        && c.opWriteScreen != c.opClearScreen
  | .ceiling => decide (1 ≤ c.busyMaxPolls)
  | .resetMinimums =>
      decide (100 ≤ c.rstHighMs) && decide (2 ≤ c.rstLowMs) && decide (10 ≤ c.rstSettleMs)
  | .watchdog =>
      decide (c.pollMs < c.wdtTimeout) && decide (c.settleMs < c.wdtTimeout)
        && decide (c.rstHighMs < c.wdtTimeout) && decide (c.rstLowMs < c.wdtTimeout)
        && decide (c.rstSettleMs < c.wdtTimeout)
  | .tres =>
      c.tresData != Cfg.gkTres c.width c.height
        || (decide (c.width ≤ 255) && decide (c.height ≤ 65535))

/-- The first check of R6 that a configuration breaks, if any. -/
def Cfg.firstBroken (c : Cfg) : Option CfgCheck := CfgCheck.all.find? fun k => !c.passes k

/-- A configuration a machine is built for: it passes every check (R6). -/
def Cfg.wf (c : Cfg) : Bool := CfgCheck.all.all c.passes

/-- The eleven panel command bytes (R88). -/
def Cfg.panelCommands (c : Cfg) : List Byte :=
  [c.cmdBtst, c.cmdPon, c.cmdPsr, c.cmdCdi, c.cmdTres, c.cmdDtm1, c.cmdDtm2, c.cmdDrf, c.cmdFlg, c.cmdPof,
    c.cmdDslp]

/-- No two panel commands share a byte. The spec asks no such check of CFG: the model uses it only as a premise of
statements that read panel words back (log entry 15). -/
abbrev Cfg.PanelDistinct (c : Cfg) : Prop := c.panelCommands.Nodup

/-- The instructions a build can meet: an unknown opcode is none of the three opcodes (R84), and the byte after CDI
is one of the two R88 names. -/
def Instr.wf (c : Cfg) : Instr → Bool
  | .unknown op => op != c.opSendBuffer && op != c.opWriteScreen && op != c.opClearScreen
  | .cdi b => b == c.cdiData || b == c.sleepCdiData
  | _ => true

end Sys2Proof
end

