-- ==== Sys2Proof/Decode.lean ====
section
/-! DEFINITION. Decoding (30_encoding.md): the block's own decoder of a host byte (R82), a reader of the words of
every format, total and rejecting by name, and after it the encoder, written from the same tables. -/

namespace Sys2Proof

/-- The opcode map of R82: "comparing all eight bits with three configuration values"; any other byte is the unknown
class (R84). -/
def decodeHost (c : Cfg) (b : Byte) : Instr :=
  if b = c.opSendBuffer then .sendBuffer
  else if b = c.opWriteScreen then .writeScreen
  else if b = c.opClearScreen then .clearScreen
  else .unknown b

/-- The length of a host frame, known "from its first byte alone" (R83). -/
def frameLength (c : Cfg) (b : Byte) : Nat :=
  if b = c.opSendBuffer then 1 + c.payloadLen else 1

/-- The control requests are symbolic, not bytes (R90). -/
def decodeControl : CtlReq → Instr
  | .init => .ctlInit
  | .sleep => .ctlSleep

/-- Why a list of words is no instruction. -/
inductive DecodeError where
  /-- There is no word. -/
  | noWord
  /-- A byte to the host that is not `ACK_BYTE`, the only byte the block sends there (R42, R86). -/
  | notAnAck (b : Byte)
  /-- A command byte that is none of R88's. -/
  | notACommand (b : Byte)
  /-- The data bytes after a command are not those R88 gives it. -/
  | wrongData (command : Byte)
  /-- A plane write whose bytes are neither one constant, `PLANE_SIZE` times, nor left to the store (R109). -/
  | notAPlane (command : Byte)
  deriving DecidableEq, Repr

/-- The data bytes that belong to a command: "the panel tells them apart by DC alone" (R87), so they are the words
with DC = 1 up to the next other word. -/
def dataRun : List Wire → List Byte
  | .data b :: ws => b :: dataRun ws
  | _ => []

/-- The words after those of `dataRun`. -/
def afterData : List Wire → List Wire
  | .data _ :: ws => afterData ws
  | ws => ws

/-- A command whose data bytes CFG fixes. -/
def fixedData (command : Byte) (want got : List Byte) (i : Instr) : Except DecodeError Instr :=
  if got = want then .ok i else .error (.wrongData command)

/-- The source of a plane write, from the data words an instruction fixes: none when the store supplies them. -/
def planeSource (c : Cfg) (command : Byte) : List Byte → Except DecodeError PlaneSrc
  | [] => .ok .store
  | b :: ds => if b :: ds = List.replicate c.planeSize b then .ok (.const b) else .error (.notAPlane command)

/-- The panel command table of R88: command byte and the data bytes after it. -/
def decodeCommand (c : Cfg) (b : Byte) (ds : List Byte) : Except DecodeError Instr :=
  if b = c.cmdBtst then fixedData b c.btstData.toList ds .btst
  else if b = c.cmdPon then fixedData b [] ds .pon
  else if b = c.cmdPsr then fixedData b [c.psrData] ds .psr
  else if b = c.cmdCdi then
    match ds with
    | [d] => .ok (.cdi d)
    | _ => .error (.wrongData b)
  else if b = c.cmdTres then fixedData b c.tresData.toList ds .tres
  else if b = c.cmdDtm1 then (planeSource c b ds).map .dtm1
  else if b = c.cmdDtm2 then (planeSource c b ds).map .dtm2
  else if b = c.cmdDrf then fixedData b [] ds .drf
  else if b = c.cmdFlg then fixedData b [] ds .flg
  else if b = c.cmdPof then fixedData b [] ds .pof
  else if b = c.cmdDslp then fixedData b c.dslpData ds .dslp
  else .error (.notACommand b)

/-- What a list of words decodes to: the instruction it begins with and the words after it, or a rejection by name. -/
inductive Decoded where
  | ok (i : Instr) (rest : List Wire)
  | rejected (why : DecodeError)
  deriving DecidableEq, Repr

/-- The instruction a list of words begins with, and the words after it. -/
def decode (c : Cfg) : List Wire → Decoded
  | [] => .rejected .noWord
  | .host b :: ws => .ok (decodeHost c b) ws
  | .tx b :: ws => if b = c.ackByte then .ok .ack ws else .rejected (.notAnAck b)
  | .ctl q :: ws => .ok (decodeControl q) ws
  | .data b :: ws => .ok (.data b) ws
  | .command b :: ws =>
    match decodeCommand c b (dataRun ws) with
    | .ok i => .ok i (afterData ws)
    | .error why => .rejected why

/-! ## The encoder -/

/-- A command word and its data words (R87). -/
def panelWords (command : Byte) (ds : List Byte) : List Wire :=
  .command command :: ds.map .data

/-- The data words a plane write fixes by itself: those of a constant; the store supplies the others as it runs. -/
def planeData (c : Cfg) : PlaneSrc → List Byte
  | .const b => List.replicate c.planeSize b
  | .store => []

/-- The words of an instruction, written from R82, R86 and R88; none for the rows that have no encoding. -/
def encode (c : Cfg) : Instr → List Wire
  | .sendBuffer => [.host c.opSendBuffer]
  | .writeScreen => [.host c.opWriteScreen]
  | .clearScreen => [.host c.opClearScreen]
  | .unknown op => [.host op]
  | .ack => [.tx c.ackByte]
  | .ctlInit => [.ctl .init]
  | .ctlSleep => [.ctl .sleep]
  | .btst => panelWords c.cmdBtst c.btstData.toList
  | .pon => panelWords c.cmdPon []
  | .psr => panelWords c.cmdPsr [c.psrData]
  | .cdi b => panelWords c.cmdCdi [b]
  | .tres => panelWords c.cmdTres c.tresData.toList
  | .dtm1 src => panelWords c.cmdDtm1 (planeData c src)
  | .dtm2 src => panelWords c.cmdDtm2 (planeData c src)
  | .drf => panelWords c.cmdDrf []
  | .flg => panelWords c.cmdFlg []
  | .pof => panelWords c.cmdPof []
  | .dslp => panelWords c.cmdDslp c.dslpData
  | .data b => [.data b]
  | .initPanel => []
  | .clear => []
  | .display => []
  | .refresh => []
  | .sleep => []
  | .busyWait => []

/-! ## The opcode table's numbers -/

/-- The panel row whose "match" is the byte `b`. What the byte does not hold is filled in as the operation that comes
first uses it: CDI as Initialize sends it, the planes from the store. -/
def tableCommand (c : Cfg) (b : Byte) : Option Instr :=
  if b = c.cmdBtst then some .btst
  else if b = c.cmdPon then some .pon
  else if b = c.cmdPsr then some .psr
  else if b = c.cmdCdi then some (.cdi c.cdiData)
  else if b = c.cmdTres then some .tres
  else if b = c.cmdDtm1 then some (.dtm1 .store)
  else if b = c.cmdDtm2 then some (.dtm2 .store)
  else if b = c.cmdDrf then some .drf
  else if b = c.cmdFlg then some .flg
  else if b = c.cmdPof then some .pof
  else if b = c.cmdDslp then some .dslp
  else none

/-- The instruction that a number of the opcode table stands for. The table numbers the rows of four formats with the
same eight bits and without DC: a number that is a panel row's "match" is read as that row, and any other as the
block's own decoder reads a host byte (log entry 16). The table's number holds a panel row's command byte alone, so
its data bytes, which CFG fixes, are not compared here as `decode` compares them. A longer number is a host frame with
its payload (R83). -/
def tableInstr (c : Cfg) (nbits w : Nat) : Option Instr :=
  let b : Byte := BitVec.ofNat 8 w
  if nbits = 8 then
    match tableCommand c b with
    | some i => some i
    | none => some (decodeHost c b)
  else if nbits = 8 * frameLength c b then some (decodeHost c b)
  else none

/-- What the decoder reads from a number of the opcode table, for the build `State.reset` belongs to. -/
def decodeTableWord (nbits w : Nat) : Option Instr := tableInstr Cfg.build nbits w

end Sys2Proof
end

