-- ==== Sys2Proof/Machine/State.lean ====
section
/-! DEFINITION. The state of the block (10_state.md R20), the inputs its ports deliver, the trace an observation
compares (00_scope.md R8), the reasons a step can stop, and the state after reset (R49). -/

namespace Sys2Proof.Machine

/-- Dispatcher state (R23). -/
inductive DState where
  | boot
  | await
  | recv
  | exec
  | faulted
  deriving DecidableEq, Repr

/-- Panel State (R24). -/
inductive PState where
  | unpowered
  | initializing
  | idle
  | writing
  | refreshing
  | sleeping
  deriving DecidableEq, Repr

/-- The operation recognised and not yet completed (R29). -/
inductive CurOp where
  | none
  | sendBuffer
  | writeScreen
  | clearScreen
  | ctlInit
  | ctlSleep
  deriving DecidableEq, Repr

/-- The panel operations that have an entry check (R26). -/
inductive PanelOp where
  | initPanel
  | clear
  | display
  | refresh
  | sleep
  | busyWait
  deriving DecidableEq, Repr

/-- The output lines (R32). -/
inductive Line where
  | cs
  | dc
  | rst
  deriving DecidableEq, Repr

/-- The last level driven on a line, or `UNDRIVEN` (R32). -/
inductive Level where
  | undriven
  | driven (v : Bit)
  deriving DecidableEq, Repr

/-- The fault record: a code and the info (operation, panel state) (R33, R205, R206). -/
structure FaultRecord where
  code : Byte
  op : PanelOp
  pstate : PState
  deriving DecidableEq, Repr

/-- Result of the last Display (R34). -/
inductive DisplayResult where
  | ok
  | invalidFrameSize
  deriving DecidableEq, Repr

/-- What caused the last reset (R35). -/
inductive ResetCause where
  | por
  | wdt
  deriving DecidableEq, Repr

/-- An operation a sequence position can be in: the boot sequence (R232), ProcessOneCommand at the choice of its next
input (R171), an instruction of the opcode table, and the operations of 40_bus_framing.md that have no row: CMD and
DATA (R100, R101), Wait (R105) and HardwareReset (R104). SEND and StreamPlane are named by the row they send. -/
inductive Operation where
  | boot
  | main
  | instr (i : Instr)
  | command
  | data
  | wait
  | pulse
  deriving DecidableEq, Repr

/-- A position in one operation: the step within it "as written in the operation rules" (R22). -/
structure Frame where
  op : Operation
  step : Nat
  deriving DecidableEq, Repr

/-- The sequence position `seq` (R20, R22): the operation of the dispatch cycle (or boot) with its step, and "the
callee's position under the caller's", the innermost callee first. Steps count the primitives of R7 and the calls, so a
position stands before a primitive or a call. The two callers that every dispatched operation has are not repeated in
it: `Seq.stack` adds them. -/
structure Seq where
  op : Operation
  step : Nat
  calls : List Frame
  deriving DecidableEq, Repr

/-- The first step of an operation. -/
def Seq.start (op : Operation) : Seq := ⟨op, 0, []⟩

/-- The position of the forever loop (R182). -/
def Seq.main : Seq := Seq.start .main

/-- What the host link shows the block at one look: no byte yet, or the host's next byte (R41, R107). -/
inductive LinkSlot where
  | idle
  | byte (b : Byte)
  deriving DecidableEq, Repr

/-- A line the block "may also emit" (R215): `BUSY_POLL` progress inside the poll loop, or a status line. -/
inductive Chatter where
  | busyPoll
  | status
  deriving DecidableEq, Repr

/-- What happens just before one primitive of the block that its rules do not decide: nothing; a reset input, or both
at once (R48, R209); a new control request (R46); optional diagnostic lines (R215). `pause` is the model's own: nothing
happens, and the step ends there, so that every state between two primitives can stand between two steps. DESIGN
CHOICE, log entry 6. -/
inductive EnvEvent where
  | quiet
  | por
  | wdtReset
  | bothResets
  | request (q : CtlReq)
  | lines (ls : List Chatter)
  | pause
  deriving DecidableEq, Repr

/-- The events of the observation trace (R7, R8). -/
inductive Event where
  | line (l : Line) (v : Bit)
  | spi (b : Byte)
  | busy (v : Bit)
  | arm
  | feed
  | delay (ms : Nat)
  | rx (b : Byte)
  | tx (b : Byte)
  deriving DecidableEq, Repr

/-- The lines of "the separate diagnostic trace" (R7, R215): the four tags with the info each error records (R200),
then the optional lines. That BUSY_POLL carries the poll count is a DESIGN CHOICE, log entry 12. -/
inductive Diag where
  | unknownOpcode (op : Byte)
  | busyTimeout (polls : Nat)
  | frameSize (lenBlack lenRed : Nat)
  | done (op : CurOp)
  | busyPoll (polls : Nat)
  | status
  deriving DecidableEq, Repr

/-- The framebuffer store: the cells that hold a byte, by index; a cell not listed is `UNWRITTEN` (R27, R65). -/
abbrev Store := List Host.Cell

/-- The state of the block. The first group is the record of R20; then the pending request of R46 and R49; then the
inputs "drawn from the environment" (R20) that its ports still hold; then the observation of R8; then the model's own
fields. -/
structure State where
  dstate : DState
  pstate : PState
  fb : Store
  rxIdx : Nat
  curOp : CurOp
  bwActive : Bool
  polls : Nat
  timedOut : Bool
  wdtArmed : Bool
  lineCs : Level
  lineDc : Level
  lineRst : Level
  fault : Option FaultRecord
  lastResult : DisplayResult
  resetCause : ResetCause
  seq : Seq
  ctlReq : Option CtlReq
  rx : List LinkSlot
  busyIn : List Bit
  firstIn : List Bool
  env : List EnvEvent
  trace : List Event
  diag : List Diag
  diagCalls : Nat
  held : Byte
  draws : Nat
  cfg : Cfg
  deriving DecidableEq, Repr

/-- Why the machine stops with a fault. -/
inductive Fault where
  /-- A store access outside `0 .. PAYLOAD_LEN-1`: "a model may treat such an access as a fault" (R61). Raised by a
  plane write from the store whose half is not wholly inside it, which needs a CFG that breaks `wf_payload`. Safe:
  the model stops. -/
  | noSuchCell (index : Nat)
  deriving DecidableEq, Repr

/-- Why the model gives an instruction no meaning. -/
inductive Refusal where
  /-- An instruction rejected by name. Raised by no arm of this model. Safe. -/
  | notModelled (mnemonic : String)
  /-- A CFG that breaks the named check: "A model refuses (builds no machine for) a CFG that breaks any of these
  checks" (R6). Raised by a step. Safe: the model stops. -/
  | illFormedConfig (check : CfgCheck)
  deriving DecidableEq, Repr

/-- The state right after a power-on reset (R49), of the build `Cfg.build`, with every input port quiet and nothing
observed yet. -/
def State.reset : State where
  dstate := .boot
  pstate := .unpowered
  fb := []
  rxIdx := 0
  curOp := .none
  bwActive := false
  polls := 0
  timedOut := false
  wdtArmed := false
  lineCs := .undriven
  lineDc := .undriven
  lineRst := .undriven
  fault := none
  lastResult := .ok
  resetCause := .por
  seq := Seq.start .boot
  ctlReq := none
  rx := []
  busyIn := []
  firstIn := []
  env := []
  trace := []
  diag := []
  diagCalls := 0
  held := 0
  draws := 0
  cfg := Cfg.build

end Sys2Proof.Machine
end

