-- ==== Sys2Proof/Machine/Operands.lean ====
section
/-! DEFINITION. The operand forms and tables the operations read: the codes of R23, R24 and R200, the entry check's
table (R26), Display's shape check (R125), the two planes and the pixels in the store (R62, R63). -/

namespace Sys2Proof.Machine

/-- The encoding of `dstate` (R23). -/
def DState.code : DState → Nat
  | .boot => 0
  | .await => 1
  | .recv => 2
  | .exec => 3
  | .faulted => 4

/-- The encoding of `pstate` (R24). -/
def PState.code : PState → Nat
  | .unpowered => 0
  | .initializing => 1
  | .idle => 2
  | .writing => 3
  | .refreshing => 4
  | .sleeping => 5

/-- The errors and events of R200. -/
inductive ErrorCode where
  | powerOnReset
  | invalidFrameSize
  | busyTimeout
  | unknownOpcode
  | invalidPanelState
  | watchdogReset
  deriving DecidableEq, Repr

/-- The codes of R200. -/
def ErrorCode.byte : ErrorCode → Byte
  | .powerOnReset => 0x00
  | .invalidFrameSize => 0x01
  | .busyTimeout => 0x02
  | .unknownOpcode => 0x03
  | .invalidPanelState => 0x04
  | .watchdogReset => 0x05

/-- The table of R26: the panel states an operation is valid in. -/
def validIn : PanelOp → PState → Bool
  | .initPanel, _ => true
  | .clear, p => p == .idle
  | .display, p => p == .idle
  | .refresh, p => p == .writing
  | .sleep, p => p == .idle
  | .busyWait, p => p == .refreshing || p == .initializing

/-- The edges of the Panel State machine (R25). -/
def panelEdge : PState → PState → Bool
  | _, .initializing => true
  | .initializing, .idle => true
  | .idle, .writing => true
  | .writing, .refreshing => true
  | .refreshing, .idle => true
  | .idle, .refreshing => true
  | .refreshing, .sleeping => true
  | _, _ => false

/-- The lengths of the two planes of the store's view (R124). -/
def blackLen (c : Cfg) : Nat := c.planeSize

/-- The red plane is what the store holds after the black one (R124). -/
def redLen (c : Cfg) : Nat := c.payloadLen - c.planeSize

/-- Display's shape check (R125): both planes have `PLANE_SIZE` bytes. -/
def shapeOk (c : Cfg) : Bool := blackLen c == c.planeSize && redLen c == c.planeSize

/-- The two planes (R62). -/
inductive Plane where
  | black
  | red
  deriving DecidableEq, Repr

/-- The store index a plane begins at (R62). -/
def planeBase (c : Cfg) : Plane → Nat
  | .black => 0
  | .red => c.planeSize

/-- The command a plane is written under (R88, R124). -/
def planeCommand (c : Cfg) : Plane → Byte
  | .black => c.cmdDtm1
  | .red => c.cmdDtm2

/-- `byte_index(x, y)` of R63. -/
def byteIndex (c : Cfg) (p : Plane) (x y : Nat) : Nat := planeBase c p + y * c.bpr + x / 8

/-- `bit(x)` of R63: "bit 7 is the pixel with the smallest x in the byte". -/
def pixelBit (x : Nat) : Nat := 7 - x % 8

end Sys2Proof.Machine
end

