-- ==== Sys2Proof/Machine/Ops.lean ====
section
/-! DEFINITION. The named operations over the store, the ports and the state: the primitives of 00_scope.md R7, the
reset (R49, R230), taking a fault (R206), and the moments at which the environment acts. -/

namespace Sys2Proof.Machine

/-! ## The framebuffer store (20_memory.md R61) -/

/-- The content of a cell: a byte, or nothing for `UNWRITTEN`. -/
def Store.read (fb : Store) (i : Nat) : Option Byte :=
  match fb with
  | [] => none
  | (j, b) :: rest => if i = j then some b else Store.read rest i

/-- The store with a cell set to a byte, in rising order of index. -/
def Store.write (fb : Store) (i : Nat) (b : Byte) : Store :=
  match fb with
  | [] => [(i, b)]
  | (j, c) :: rest =>
    if i < j then (i, b) :: (j, c) :: rest
    else if i = j then (i, b) :: rest
    else (j, c) :: Store.write rest i b

/-- Every index listed is above `low` and the indices rise strictly. -/
def Store.risesFrom (low : Nat) : Store → Bool
  | [] => true
  | (j, _) :: rest => decide (low ≤ j) && Store.risesFrom (j + 1) rest

/-- The canonical form: strictly rising indices. No entry can equal what an unlisted cell reads as, because an
unlisted cell holds no byte. -/
def Memory.wf (fb : Store) : Bool := Store.risesFrom 0 fb

/-- Every index listed is a cell of a store of `n` cells (R27). -/
def Store.within (fb : Store) (n : Nat) : Bool := fb.all fun cell => decide (cell.1 < n)

/-- The pixel at column `x`, row `y` of a plane (R63): nothing where its cell is `UNWRITTEN`. -/
def pixel (c : Cfg) (fb : Store) (p : Plane) (x y : Nat) : Option Bool :=
  (Store.read fb (byteIndex c p x y)).map fun b => b.getLsbD (pixelBit x)

/-! ## The trace -/

/-- Append an event to the trace, which is kept newest first. -/
def State.emit (s : State) (e : Event) : State := { s with trace := e :: s.trace }

/-- Append events, given in the order they happen. -/
def State.record (s : State) (es : List Event) : State := { s with trace := es.reverse ++ s.trace }

/-- `Diag(tag, info)` (R215): the line is put on the diagnostic trace, newest first, or dropped; which, is a free value
for each call (log entry 12). -/
def State.diagnose (s : State) (d : Diag) : State :=
  { s with
    diag := if Config.lineEmitted s.diagCalls then d :: s.diag else s.diag
    diagCalls := s.diagCalls + 1 }

/-- Calls of `Diag`, in the order made. -/
def State.said (s : State) (ds : List Diag) : State := ds.foldl State.diagnose s

/-- An optional line, where the block may emit it: `BUSY_POLL` "inside the poll loop", a status line "at any point"
(R215). -/
def Chatter.line (s : State) : Chatter → Option Diag
  | .busyPoll => if s.bwActive then some (.busyPoll s.polls) else none
  | .status => some .status

/-- Optional lines are emitted, in the order given; a faulted block emits none (R206). -/
def State.chatter (s : State) (ls : List Chatter) : State :=
  if s.dstate = .faulted then s else { s with diag := (ls.filterMap (Chatter.line s)).reverse ++ s.diag }

/-! ## The primitives of R7 -/

/-- The level a line holds (R32). -/
def State.level (s : State) : Line → Level
  | .cs => s.lineCs
  | .dc => s.lineDc
  | .rst => s.lineRst

/-- `SetLine(L, v)`: "recorded on every call even when the level does not change". -/
def State.setLine (s : State) (l : Line) (v : Bit) : State :=
  let t := s.emit (.line l v)
  match l with
  | .cs => { t with lineCs := .driven v }
  | .dc => { t with lineDc := .driven v }
  | .rst => { t with lineRst := .driven v }

/-- `SpiWrite(b)`. -/
def State.spiWrite (s : State) (b : Byte) : State := s.emit (.spi b)

/-- `Arm()`: afterwards `wdt_armed` is true (R31). -/
def State.armWatchdog (s : State) : State := { s.emit .arm with wdtArmed := true }

/-- `Feed()`. -/
def State.feedWatchdog (s : State) : State := s.emit .feed

/-- `Delay(t)`: a lower bound on the time before the next event (R9). -/
def State.wait (s : State) (ms : Nat) : State := s.emit (.delay ms)

/-- `TxByte(b)`: "never fails and never blocks forever" (R42, R108). -/
def State.txByte (s : State) (b : Byte) : State := s.emit (.tx b)

/-- The level the next busy sample reads: the next one listed, else a free value (R44). -/
def State.nextBusy (s : State) : Bit :=
  match s.busyIn with
  | v :: _ => v
  | [] => Config.busyLevel s.draws

/-- `SampleBusy()`: one sample, consumed and recorded. -/
def State.sampleBusy (s : State) : State :=
  match s.busyIn with
  | v :: vs => { s with busyIn := vs, trace := .busy v :: s.trace }
  | [] => { s with draws := s.draws + 1, trace := .busy (Config.busyLevel s.draws) :: s.trace }

/-- `RxByte()` receives `b` into the held byte, leaving `rest` on the link (R70: "it cannot be re-read"). -/
def State.receive (s : State) (b : Byte) (rest : List LinkSlot) : State :=
  { s with held := b, rx := rest, trace := .rx b :: s.trace }

/-- `RxByte()` finds no byte: the block feeds once and looks again (R106 item 3, R107). -/
def State.linkIdle (s : State) : State := { s with rx := s.rx.tail, trace := .feed :: s.trace }

/-- `MemRead(i, 1)` into the held byte; an `UNWRITTEN` cell gives "a byte the model draws freshly on every read"
(R65). -/
def State.memRead (s : State) (i : Nat) : State :=
  match Store.read s.fb i with
  | some b => { s with held := b }
  | none => { s with held := Config.unwrittenByte s.draws, draws := s.draws + 1 }

/-- `MemWrite(rx_idx, 1, b)` of the byte received (R172). -/
def State.memWrite (s : State) : State := { s with fb := Store.write s.fb s.rxIdx s.held }

/-! ## Resets, faults and requests -/

/-- A reset of the whole block (R48, R49, R230): every field of R20 takes its reset value, whatever was going on, and
the pending request is gone. The inputs still to come, what was observed so far and CFG stand. -/
def State.resetTo (s : State) (cause : ResetCause) : State :=
  { s with
    dstate := .boot
    pstate := .unpowered
    fb := []
    rxIdx := 0
    curOp := .none
    bwActive := false
    polls := 0
    timedOut := false
    wdtArmed := false
    lineCs := .undriven
    lineDc := .undriven
    lineRst := .undriven
    fault := none
    lastResult := .ok
    resetCause := cause
    seq := Seq.start .boot
    ctlReq := none
    held := 0 }

/-- Taking a fault (R206), the one exception entry of the block: the record is set and the dispatcher is `FAULTED`.
Nothing is saved for a return (R207), and there is no return (R208): only a reset leaves the fault. -/
def State.takeFault (s : State) (f : FaultRecord) : State := { s with fault := some f, dstate := .faulted }

/-- The record of `InvalidPanelState(op, pstate)` (R205). -/
def invalidPanelState (op : PanelOp) (p : PState) : FaultRecord := ⟨ErrorCode.invalidPanelState.byte, op, p⟩

/-- A control request arrives: "a second request while one is pending is lost" (R46). -/
def State.request (s : State) (q : CtlReq) : State :=
  match s.ctlReq with
  | none => { s with ctlReq := some q }
  | some _ => s

/-! ## The moments before a primitive -/

/-- What the move of the environment leaves: the block goes on (`pass`), it has been reset (`reset`), or the step ends
here (`hold`). -/
inductive Moment where
  | pass (s : State)
  | reset (s : State)
  | hold (s : State)
  deriving DecidableEq, Repr

/-- What the schedule holds comes just before a primitive. Resets take "precedence over everything, at any step; if both
arrive together … `reset_cause` is POR" (R209). With nothing scheduled the environment does nothing. -/
def State.moment (s : State) : Moment :=
  match s.env with
  | [] => .pass s
  | .quiet :: es => .pass { s with env := es }
  | .por :: es => .reset ({ s with env := es }.resetTo .por)
  | .wdtReset :: es => .reset ({ s with env := es }.resetTo .wdt)
  | .bothResets :: es => .reset ({ s with env := es }.resetTo .por)
  | .request q :: es => .pass ({ s with env := es }.request q)
  | .lines ls :: es => .pass ({ s with env := es }.chatter ls)
  | .pause :: es => .hold { s with env := es }

end Sys2Proof.Machine
end

