-- ==== Sys2Proof/Machine/Flags.lean ====
section
/-! DEFINITION. The status booleans of 10_state.md R36 that an operation computes: the Busy-Wait Session (R30, R152 to
R156). There are no condition codes (R36). -/

namespace Sys2Proof.Machine

/-- A session is created: `bw_active <- true; polls <- 0` (R156). -/
def State.openSession (s : State) : State := { s with bwActive := true, polls := 0 }

/-- The session is destroyed: `bw_active <- false`, `polls` keeps its value (R156). -/
def State.closeSession (s : State) : State := { s with bwActive := false }

/-- The poll loop takes another pass: there is a session, and it is below its ceiling (R152). -/
def State.polling (s : State) : Bool := s.bwActive && decide (s.polls < s.cfg.busyMaxPolls)

/-- The session has reached its ceiling and its diagnostic is still to come (R154). -/
def State.atCeiling (s : State) : Bool := s.bwActive && !decide (s.polls < s.cfg.busyMaxPolls)

/-- The ready exit (R153): `timed_out <- false`, and the loop ends. -/
def State.readyExit (s : State) : State := { s with timedOut := false, bwActive := false }

/-- `SampleBusy()` in the poll loop and what follows it up to the next primitive (R150, R152): count, then the two exit
tests in the written order. At the ceiling `timed_out <- true`, and the loop's diagnostic comes next. -/
def State.poll (s : State) : State :=
  let v := s.nextBusy
  let t := { s.sampleBusy with polls := s.polls + 1 }
  if v ≠ s.cfg.busyActive then t.readyExit
  else if s.polls + 1 = s.cfg.busyMaxPolls then { t with timedOut := true }
  else t

/-- `Diag(BUSY_TIMEOUT, polls)`, and the loop ends (R154, R203). -/
def State.ceilingExit (s : State) : State := { s.diagnose (.busyTimeout s.polls) with bwActive := false }

end Sys2Proof.Machine
end

