-- ==== Sys2Proof/Machine/Micro.lean ====
section
/-! DEFINITION. The elementary steps operations are written in, what each does, how each moves the sequence position
(10_state.md R22), and running a sequence of them. The primitives of 00_scope.md R7 are each preceded by one moment of
the environment; the other steps are the writes to fields of R20 and the tests that stand between them in the
pseudocode, and the marks of a call, its return, and the head and the end of the poll loop. -/

namespace Sys2Proof.Machine

/-- An elementary step of an operation's sequence (R22). -/
inductive Micro where
  /-- `SetLine(L, v)`. -/
  | setLine (l : Line) (v : Bit)
  /-- `SpiWrite(b)`. -/
  | spiWrite (b : Byte)
  /-- `SpiWrite` of the byte just read from the store. -/
  | spiHeld
  /-- `Arm()`. -/
  | arm
  /-- `Feed()`. -/
  | feed
  /-- `Delay(t)`. -/
  | delay (ms : Nat)
  /-- `TxByte(b)`. -/
  | txByte (b : Byte)
  /-- `MemRead(i, 1)`. -/
  | memRead (i : Nat)
  /-- `b <- RxByte()`, in the payload loop of R172. -/
  | rxPayload
  /-- `MemWrite(rx_idx, 1, b)`, in the payload loop. -/
  | memWrite
  /-- `rx_idx <- rx_idx + 1`, in the payload loop. -/
  | bumpIdx
  /-- `Feed()`, in the poll loop of R150. -/
  | pollFeed
  /-- `SampleBusy()`, the count and the exit tests, in the poll loop. -/
  | pollSample
  /-- `Diag(BUSY_TIMEOUT, polls)` and the exit, in the poll loop. -/
  | pollDiag
  /-- `Delay(POLL_MS)`, in the poll loop. -/
  | pollDelay
  /-- The session is created (R156). -/
  | openSession
  /-- The session is destroyed (R156). -/
  | closeSession
  /-- `Diag(tag, info)`. -/
  | diag (d : Diag)
  /-- `Diag(DONE, cur_op)` (R176). -/
  | diagDone
  /-- `if last_result = INVALID_FRAME_SIZE: Diag(FRAME_SIZE, -)` (R173). -/
  | diagShape
  /-- The entry check of R120, with its `raise InvalidPanelState(op, pstate)`. -/
  | enter (op : PanelOp)
  /-- `raise InvalidFrameSize(len_b, len_r)` (R124, R202), whose effect the write of `last_result` before it is. -/
  | raiseFrameSize
  /-- `pstate <- p`. -/
  | setPState (p : PState)
  /-- `dstate <- d`. -/
  | setDState (d : DState)
  /-- `cur_op <- o`. -/
  | setCurOp (o : CurOp)
  /-- `rx_idx <- 0`. -/
  | startPayload
  /-- Clear the pending request (R177). -/
  | takeRequest
  /-- `last_result <- r`. -/
  | setResult (r : DisplayResult)
  /-- The operation named is called. -/
  | call (op : Operation)
  /-- The operation called returns. -/
  | ret
  /-- The head of the poll loop of R150. -/
  | pollHead
  /-- The end of the poll loop. -/
  | pollExit
  deriving DecidableEq, Repr

/-- What an elementary step leaves: the next one follows (`go`); the step of the machine ends with the sequence
position at this one (`hold`); a reset has abandoned the sequence (`gone`); the machine stops (`fault`). -/
inductive Flow where
  | go (s : State)
  | hold (s : State)
  | gone (s : State)
  | fault (r : Fault)
  deriving DecidableEq, Repr

/-- A primitive: the environment's moment, then the effect. -/
def State.primitive (s : State) (effect : State → Flow) : Flow :=
  match s.moment with
  | .pass t => effect t
  | .reset t => .gone t
  | .hold t => .hold t

/-- Receive one payload byte (R107): with none at hand the block feeds and the step ends, still waiting (R180). -/
def receivePayload (s : State) : Flow :=
  match s.rx with
  | .byte b :: rest => .go (s.receive b rest)
  | _ => .hold s.linkIdle

/-- Read a cell (R61): an index that is no cell's stops the machine. -/
def readCell (i : Nat) (s : State) : Flow :=
  if i < s.cfg.payloadLen then .go (s.memRead i) else .fault (.noSuchCell i)

/-- What an elementary step does. The steps of the payload loop are skipped once `rx_idx` has reached `PAYLOAD_LEN`
(the loop's own test), those of the poll loop once the session is over (its `exit loop`) or past its ceiling. -/
def Micro.exec (m : Micro) (s : State) : Flow :=
  match m with
  | .setLine l v => s.primitive fun t => .go (t.setLine l v)
  | .spiWrite b => s.primitive fun t => .go (t.spiWrite b)
  | .spiHeld => s.primitive fun t => .go (t.spiWrite t.held)
  | .arm => s.primitive fun t => .go t.armWatchdog
  | .feed => s.primitive fun t => .go t.feedWatchdog
  | .delay ms => s.primitive fun t => .go (t.wait ms)
  | .txByte b => s.primitive fun t => .go (t.txByte b)
  | .memRead i => s.primitive (readCell i)
  | .rxPayload => if s.rxIdx < s.cfg.payloadLen then s.primitive receivePayload else .go s
  | .memWrite => if s.rxIdx < s.cfg.payloadLen then s.primitive fun t => .go t.memWrite else .go s
  | .bumpIdx => if s.rxIdx < s.cfg.payloadLen then .go { s with rxIdx := s.rxIdx + 1 } else .go s
  | .pollFeed => if s.polling then s.primitive fun t => .go t.feedWatchdog else .go s
  | .pollSample => if s.polling then s.primitive fun t => .go t.poll else .go s
  | .pollDiag => if s.atCeiling then s.primitive fun t => .go t.ceilingExit else .go s
  | .pollDelay => if s.polling then s.primitive fun t => .go (t.wait t.cfg.pollMs) else .go s
  | .openSession => .go s.openSession
  | .closeSession => .go s.closeSession
  | .diag d => s.primitive fun t => .go (t.diagnose d)
  | .diagDone => s.primitive fun t => .go (t.diagnose (.done t.curOp))
  | .diagShape =>
      if s.lastResult = .invalidFrameSize then
        s.primitive fun t => .go (t.diagnose (.frameSize (blackLen t.cfg) (redLen t.cfg)))
      else .go s
  | .enter op =>
      if validIn op s.pstate then .go s
      else s.primitive fun t => .hold (t.takeFault (invalidPanelState op t.pstate))
  | .raiseFrameSize => s.primitive .go
  | .setPState p => .go { s with pstate := p }
  | .setDState d => .go { s with dstate := d }
  | .setCurOp o => .go { s with curOp := o }
  | .startPayload => .go { s with rxIdx := 0 }
  | .takeRequest => .go { s with ctlReq := none }
  | .setResult r => .go { s with lastResult := r }
  | .call _ => .go s
  | .ret => .go s
  | .pollHead => .go s
  | .pollExit => .go s

/-! ## The sequence position (R22) -/

/-- "The step advances by one after each primitive", in the innermost operation. -/
def Seq.next (p : Seq) : Seq :=
  match p.calls with
  | [] => { p with step := p.step + 1 }
  | f :: fs => { p with calls := { f with step := f.step + 1 } :: fs }

/-- A call "nests the callee's position under the caller's". -/
def Seq.enter (p : Seq) (op : Operation) : Seq := { p with calls := ⟨op, 0⟩ :: p.calls }

/-- A return is "to the step after the call". -/
def Seq.leave (p : Seq) : Seq := { p with calls := p.calls.tail }.next

/-- The innermost operation stands at the step given. -/
def Seq.at (p : Seq) (step : Nat) : Seq :=
  match p.calls with
  | [] => { p with step := step }
  | f :: fs => { p with calls := { f with step := step } :: fs }

/-- The callers of an operation that `Seq` does not repeat: ProcessOneCommand, at the choice of its input for a control
request and after its `RxByte()` for the others (R171), under the loop of the boot sequence (R232). -/
def Operation.callers : Operation → List Frame
  | .boot => []
  | .main => [⟨.boot, 2⟩]
  | .instr .ctlInit => [⟨.main, 0⟩, ⟨.boot, 2⟩]
  | .instr .ctlSleep => [⟨.main, 0⟩, ⟨.boot, 2⟩]
  | _ => [⟨.main, 1⟩, ⟨.boot, 2⟩]

/-- The whole nest of positions, the innermost first. -/
def Seq.stack (p : Seq) : List Frame := p.calls ++ ⟨p.op, p.step⟩ :: p.op.callers

/-- Whether an elementary step is one a position counts: a call, or a primitive of R7 that the tests before it reach.
A `raise` that a test passes over counts no more than any other primitive passed over, and one that takes a fault has
no step after it (R206). The `Feed()` and `SampleBusy()` of a pass are reached while the session is open, the pass ending
in `Diag` at its ceiling and in `Delay` below it. -/
def Micro.counts (m : Micro) (s : State) : Bool :=
  match m with
  | .setLine _ _ => true
  | .spiWrite _ => true
  | .spiHeld => true
  | .arm => true
  | .feed => true
  | .delay _ => true
  | .txByte _ => true
  | .memRead _ => true
  | .rxPayload => true
  | .memWrite => true
  | .pollFeed => s.bwActive
  | .pollSample => s.bwActive
  | .pollDiag => s.atCeiling
  | .pollDelay => s.polling
  | .diag _ => true
  | .diagDone => true
  | .diagShape => s.lastResult == .invalidFrameSize
  | .raiseFrameSize => true
  | .call _ => true
  | .enter _ => false
  | .bumpIdx => false
  | .openSession => false
  | .closeSession => false
  | .setPState _ => false
  | .setDState _ => false
  | .setCurOp _ => false
  | .startPayload => false
  | .takeRequest => false
  | .setResult _ => false
  | .ret => false
  | .pollHead => false
  | .pollExit => false

/-- How an elementary step moves the position, from the state it finds. While the session is open each pass of the poll
loop begins at step 1 of BusyWait, the only place where a step goes back (R22, R152); once it is closed, the step is the
one the last primitive of the loop has led to: the `SampleBusy()` when ready, the `Diag` after it at the ceiling. -/
def Micro.place (m : Micro) (s : State) (p : Seq) : Seq :=
  match m with
  | .call op => p.enter op
  | .ret => p.leave
  | .pollHead => if s.bwActive then p.at 1 else p
  | .pollExit => if s.timedOut then p.at 4 else p.at 3
  | m => if m.counts s then p.next else p

/-- The operation `op`, called: its sequence between the call and the return. -/
def callCode (op : Operation) (body : List Micro) : List Micro := .call op :: body ++ [.ret]

/-- Whether the block can stand before an elementary step, at its position: before every primitive that the tests before
it reach, so before each that counts and before the `raise` of an entry check that fails in `s` (R120). -/
def Micro.stands (m : Micro) (s : State) : Bool :=
  match m with
  | .enter op => !validIn op s.pstate
  | m => m.counts s

/-- What is left of a sequence, which begins at `p`, from the position of `s` on: from the first elementary step the
block can stand before there, as the tests of the text come out in `s`. Inside the poll loop that is the pass written
first; `polls` says how many passes are left. -/
def seek (s : State) (p : Seq) : List Micro → List Micro
  | [] => []
  | m :: ms => if m.stands s ∧ p = s.seq then m :: ms else seek s (m.place s p) ms

/-- What is left of the operation `op` from the position of `s` on: all of it from its first step on. -/
def restFrom (op : Operation) (s : State) (ms : List Micro) : List Micro :=
  if s.seq = Seq.start op then ms else seek s (Seq.start op) ms

/-! ## Running a sequence -/

/-- Where a sequence of elementary steps gets to: its end (`done`), a position it ends at (`held`), a reset (`gone`),
or a stop (`fault`). -/
inductive Walk where
  | done (s : State)
  | held (p : Seq) (s : State)
  | gone (s : State)
  | fault (r : Fault)
  deriving DecidableEq, Repr

/-- Run the elementary steps in order from the position `p` on. -/
def walk (p : Seq) : List Micro → State → Walk
  | [], s => .done s
  | m :: ms, s =>
    match m.exec s with
    | .go t => walk (m.place s p) ms t
    | .hold t => .held p t
    | .gone t => .gone t
    | .fault r => .fault r

/-- The position a sequence has got to when it has been run to its end, from the one it begins at. -/
def placeAll : List Micro → Seq → State → Seq
  | [], p, _ => p
  | m :: ms, p, s =>
    match m.exec s with
    | .go t => placeAll ms (m.place s p) t
    | _ => p

/-- Run what is left of an operation from the position `p` on. At its end the block is back in the forever loop (R182);
a step that ends earlier leaves the sequence position where it stands (R22). -/
def run (p : Seq) (ms : List Micro) (s : State) : Host.Outcome State Fault Refusal :=
  match walk p ms s with
  | .done t => .next { t with seq := Seq.main }
  | .held q t => .next { t with seq := q }
  | .gone t => .next t
  | .fault r => .fault r

end Sys2Proof.Machine
end

