-- ==== Sys2Proof/Machine/Framing.lean ====
section
/-! DEFINITION. The lowest operations of the panel sequencer as sequences of elementary steps: the framed bytes, the
fed delay, the reset pulse and the plane write (40_bus_framing.md R100 to R109). -/

namespace Sys2Proof.Machine

/-- `CMD(b)` (R100). -/
def cmdCode (b : Byte) : List Micro := [.setLine .dc 0, .setLine .cs 0, .spiWrite b, .setLine .cs 1]

/-- `DATA(b)` (R101). -/
def dataCode (b : Byte) : List Micro := [.setLine .dc 1, .setLine .cs 0, .spiWrite b, .setLine .cs 1]

/-- `SEND(c, ds)` (R103). -/
def sendCode (command : Byte) (ds : List Byte) : List Micro :=
  callCode .command (cmdCode command) ++ ds.flatMap fun b => callCode .data (dataCode b)

/-- `Wait(t)`: "one feed immediately before each delay" (R105). -/
def waitCode (ms : Nat) : List Micro := callCode .wait [.feed, .delay ms]

/-- `HardwareReset()` (R104). -/
def pulseCode (c : Cfg) : List Micro :=
  callCode .pulse (.setLine .rst 1 :: waitCode c.rstHighMs ++ .setLine .rst 0 :: waitCode c.rstLowMs
    ++ .setLine .rst 1 :: waitCode c.rstSettleMs)

/-- `DATA` of the byte in a cell: the cell is read "just before its DATA" (R109). -/
def cellCode (i : Nat) : List Micro :=
  .memRead i :: callCode .data [.setLine .dc 1, .setLine .cs 0, .spiHeld, .setLine .cs 1]

/-- `StreamPlane(c, src)` (R109): the plane's command, then `PLANE_SIZE` data bytes in index order. -/
def planeCode (c : Cfg) (p : Plane) : PlaneSrc → List Micro
  | .const b => sendCode (planeCommand c p) (List.replicate c.planeSize b)
  | .store =>
      callCode .command (cmdCode (planeCommand c p))
        ++ (List.range' (planeBase c p) c.planeSize).flatMap cellCode

end Sys2Proof.Machine
end

