-- ==== Sys2Proof/Machine/PanelWords.lean ====
section
/-! DEFINITION. The meanings of the panel bus rows of the opcode table (format PANELWORD): each command with the data
bytes that belong to it (30_encoding.md R87, R88), and the framed data byte. Every definition `<row>Code` is the
sequence, and `exec<Row>` runs it. -/

namespace Sys2Proof.Machine

/-- `BTST`: the booster command and `BTST_DATA` (R88). -/
def btstCode (c : Cfg) : List Micro := sendCode c.cmdBtst c.btstData.toList

/-- `PON`: the power-on command (R88). -/
def ponCode (c : Cfg) : List Micro := sendCode c.cmdPon []

/-- `PSR`: the panel-setting command and `PSR_DATA[PROFILE]` (R88, R122). -/
def psrCode (c : Cfg) : List Micro := sendCode c.cmdPsr [c.psrData]

/-- `CDI`: the VCOM and data-interval command and its one data byte (R88). -/
def cdiCode (c : Cfg) (b : Byte) : List Micro := sendCode c.cmdCdi [b]

/-- `TRES`: the resolution command and `TRES_DATA` (R88). -/
def tresCode (c : Cfg) : List Micro := sendCode c.cmdTres c.tresData.toList

/-- `DTM1`: the black-plane write (R109). -/
def dtm1Code (c : Cfg) (src : PlaneSrc) : List Micro := planeCode c .black src

/-- `DTM2`: the red-plane write (R109). -/
def dtm2Code (c : Cfg) (src : PlaneSrc) : List Micro := planeCode c .red src

/-- `DRF`: the refresh-trigger command (R126). -/
def drfCode (c : Cfg) : List Micro := cmdCode c.cmdDrf

/-- `FLG`: the busy-status command (R151). -/
def flgCode (c : Cfg) : List Micro := cmdCode c.cmdFlg

/-- `POF`: the power-off command (R127). -/
def pofCode (c : Cfg) : List Micro := cmdCode c.cmdPof

/-- `DSLP`: the deep-sleep command and `DSLP_DATA` (R127). -/
def dslpCode (c : Cfg) : List Micro := sendCode c.cmdDslp c.dslpData

/-- BTST (R88, R121). -/
def execBtst (s : State) : Host.Outcome State Fault Refusal := run (Seq.start (.instr .btst)) (btstCode s.cfg) s

/-- PON (R88, R121). -/
def execPon (s : State) : Host.Outcome State Fault Refusal := run (Seq.start (.instr .pon)) (ponCode s.cfg) s

/-- PSR (R88, R121). -/
def execPsr (s : State) : Host.Outcome State Fault Refusal := run (Seq.start (.instr .psr)) (psrCode s.cfg) s

/-- CDI (R88, R121, R127). -/
def execCdi (b : Byte) (s : State) : Host.Outcome State Fault Refusal :=
  run (Seq.start (.instr (.cdi b))) (cdiCode s.cfg b) s

/-- TRES (R88, R121). -/
def execTres (s : State) : Host.Outcome State Fault Refusal := run (Seq.start (.instr .tres)) (tresCode s.cfg) s

/-- DTM1 (R109). -/
def execDtm1 (src : PlaneSrc) (s : State) : Host.Outcome State Fault Refusal :=
  run (Seq.start (.instr (.dtm1 src))) (dtm1Code s.cfg src) s

/-- DTM2 (R109). -/
def execDtm2 (src : PlaneSrc) (s : State) : Host.Outcome State Fault Refusal :=
  run (Seq.start (.instr (.dtm2 src))) (dtm2Code s.cfg src) s

/-- DRF (R126). -/
def execDrf (s : State) : Host.Outcome State Fault Refusal := run (Seq.start (.instr .drf)) (drfCode s.cfg) s

/-- FLG (R151). -/
def execFlg (s : State) : Host.Outcome State Fault Refusal := run (Seq.start (.instr .flg)) (flgCode s.cfg) s

/-- POF (R127). -/
def execPof (s : State) : Host.Outcome State Fault Refusal := run (Seq.start (.instr .pof)) (pofCode s.cfg) s

/-- DSLP (R127). -/
def execDslp (s : State) : Host.Outcome State Fault Refusal := run (Seq.start (.instr .dslp)) (dslpCode s.cfg) s

/-- DATA (R101). -/
def execData (b : Byte) (s : State) : Host.Outcome State Fault Refusal :=
  run (Seq.start (.instr (.data b))) (dataCode b) s

end Sys2Proof.Machine
end

