-- ==== Sys2Proof/Machine/PanelOps.lean ====
section
/-! DEFINITION. The panel operations (41_panel_ops.md R120 to R127) and the busy-wait helper (42_busy_wait.md R150),
each written as its pseudocode: an operation that calls another has the callee's sequence in the place of the call
(R22). -/

namespace Sys2Proof.Machine

/-- One pass of the poll loop (R150, R152): feed, sample and test, the ceiling's diagnostic, and the delay if the loop
goes on. -/
def pollCode : List Micro := [.pollHead, .pollFeed, .pollSample, .pollDiag, .pollDelay]

/-- `BusyWait()` (R150): the loop "takes at most BUSY_MAX_POLLS iterations" (R152), so it is that many passes, of which
those after the exit are skipped. -/
def busyWaitCode (c : Cfg) : List Micro :=
  .enter .busyWait :: callCode (.instr .flg) (flgCode c) ++ .openSession ::
    (List.replicate c.busyMaxPolls pollCode).flatten ++ .pollExit :: .closeSession :: waitCode c.settleMs

/-- `Refresh()` (R126). -/
def refreshCode (c : Cfg) : List Micro :=
  .enter .refresh :: callCode (.instr .drf) (drfCode c) ++ .setPState .refreshing ::
    callCode (.instr .busyWait) (busyWaitCode c) ++ [.setPState .idle]

/-- The wait Initialize takes after power-on when `INIT_BUSY_WAIT` is true (R121). -/
def initWaitCode (c : Cfg) : List Micro :=
  if c.initBusyWait then callCode (.instr .busyWait) (busyWaitCode c) else []

/-- `Initialize()` (R121). -/
def initPanelCode (c : Cfg) : List Micro :=
  .enter .initPanel :: .setPState .initializing :: pulseCode c
    ++ callCode (.instr .btst) (btstCode c) ++ callCode (.instr .pon) (ponCode c) ++ initWaitCode c
    ++ callCode (.instr .psr) (psrCode c) ++ callCode (.instr (.cdi c.cdiData)) (cdiCode c c.cdiData)
    ++ callCode (.instr .tres) (tresCode c) ++ [.setPState .idle]

/-- `Clear()` (R123). -/
def clearCode (c : Cfg) : List Micro :=
  .enter .clear :: .setPState .writing ::
    callCode (.instr (.dtm1 (.const c.clearByteBlack))) (dtm1Code c (.const c.clearByteBlack))
    ++ callCode (.instr (.dtm2 (.const c.clearByteRed))) (dtm2Code c (.const c.clearByteRed))
    ++ callCode (.instr .refresh) (refreshCode c)

/-- `Display()` (R124, R125): a bad shape sets the result, is raised, and returns at once, with no event (R202). -/
def displayCode (c : Cfg) : List Micro :=
  .enter .display ::
    if shapeOk c then
      .setResult .ok :: .setPState .writing :: callCode (.instr (.dtm1 .store)) (dtm1Code c .store)
        ++ callCode (.instr (.dtm2 .store)) (dtm2Code c .store) ++ callCode (.instr .refresh) (refreshCode c)
    else [.setResult .invalidFrameSize, .raiseFrameSize]

/-- `Sleep()` (R127). -/
def sleepCode (c : Cfg) : List Micro :=
  .enter .sleep :: callCode (.instr (.cdi c.sleepCdiData)) (cdiCode c c.sleepCdiData)
    ++ callCode (.instr .pof) (pofCode c) ++ .setPState .refreshing ::
    callCode (.instr .busyWait) (busyWaitCode c) ++ callCode (.instr .dslp) (dslpCode c) ++ [.setPState .sleeping]

/-- BusyWait (R150). -/
def execBusyWait (s : State) : Host.Outcome State Fault Refusal :=
  run (Seq.start (.instr .busyWait)) (busyWaitCode s.cfg) s

/-- Refresh (R126). -/
def execRefresh (s : State) : Host.Outcome State Fault Refusal :=
  run (Seq.start (.instr .refresh)) (refreshCode s.cfg) s

/-- Initialize (R121). -/
def execInitPanel (s : State) : Host.Outcome State Fault Refusal :=
  run (Seq.start (.instr .initPanel)) (initPanelCode s.cfg) s

/-- Clear (R123). -/
def execClear (s : State) : Host.Outcome State Fault Refusal := run (Seq.start (.instr .clear)) (clearCode s.cfg) s

/-- Display (R124). -/
def execDisplay (s : State) : Host.Outcome State Fault Refusal :=
  run (Seq.start (.instr .display)) (displayCode s.cfg) s

/-- Sleep (R127). -/
def execSleep (s : State) : Host.Outcome State Fault Refusal := run (Seq.start (.instr .sleep)) (sleepCode s.cfg) s

end Sys2Proof.Machine
end

