-- ==== Sys2Proof/Machine/HostCommands.lean ====
section
/-! DEFINITION. The serial commands, their acknowledgement and the control requests (43_dispatcher.md R172 to R177).
The opcode byte itself has been received when a command's sequence begins (R171). -/

namespace Sys2Proof.Machine

/-- `Ack()` (R176), as at the "accepted" point: the ack byte, or nothing under SILENT. -/
def ackCode (c : Cfg) : List Micro :=
  match c.ackMode with
  | .ack => [.txByte c.ackByte]
  | .silent => []

/-- `Ack()` at the "done" point (R176): under SILENT it is replaced by `Diag(DONE, cur_op)`. -/
def doneCode (c : Cfg) : List Micro :=
  match c.ackMode with
  | .ack => callCode (.instr .ack) (ackCode c)
  | .silent => [.diagDone]

/-- The end of a dispatch cycle: `cur_op <- NONE; dstate <- AWAIT`. -/
def endCode : List Micro := [.setCurOp .none, .setDState .await]

/-- One pass of the payload loop (R172). -/
def payloadCode : List Micro := [.rxPayload, .memWrite, .bumpIdx]

/-- Send-Buffer (R172): the payload loop takes `PAYLOAD_LEN` passes, each with steps of its own (R22: "every operation
is a finite sequence"). -/
def sendBufferCode (c : Cfg) : List Micro :=
  .setCurOp .sendBuffer :: callCode (.instr .ack) (ackCode c) ++ .setDState .recv :: .startPayload ::
    (List.replicate c.payloadLen payloadCode).flatten ++ .setDState .exec :: doneCode c ++ endCode

/-- Write-Screen (R173, R179). -/
def writeScreenCode (c : Cfg) : List Micro :=
  .setCurOp .writeScreen :: .setDState .exec :: callCode (.instr .ack) (ackCode c)
    ++ callCode (.instr .display) (displayCode c) ++ .diagShape :: doneCode c ++ endCode

/-- Clear-Screen (R174). -/
def clearScreenCode (c : Cfg) : List Micro :=
  .setCurOp .clearScreen :: .setDState .exec :: callCode (.instr .ack) (ackCode c)
    ++ callCode (.instr .clear) (clearCode c) ++ doneCode c ++ endCode

/-- Unknown opcode (R175, R204): the diagnostic and nothing else. -/
def unknownCode (op : Byte) : List Micro := [.diag (.unknownOpcode op)]

/-- Control request INIT (R177): "Control requests … are never acked" (R176). -/
def ctlInitCode (c : Cfg) : List Micro :=
  .takeRequest :: .setCurOp .ctlInit :: .setDState .exec :: callCode (.instr .initPanel) (initPanelCode c) ++ endCode

/-- Control request SLEEP (R177). -/
def ctlSleepCode (c : Cfg) : List Micro :=
  .takeRequest :: .setCurOp .ctlSleep :: .setDState .exec :: callCode (.instr .sleep) (sleepCode c) ++ endCode

/-- SEND_BUFFER (R172). -/
def execSendBuffer (s : State) : Host.Outcome State Fault Refusal :=
  run (Seq.start (.instr .sendBuffer)) (sendBufferCode s.cfg) s

/-- WRITE_SCREEN (R173). -/
def execWriteScreen (s : State) : Host.Outcome State Fault Refusal :=
  run (Seq.start (.instr .writeScreen)) (writeScreenCode s.cfg) s

/-- CLEAR_SCREEN (R174). -/
def execClearScreen (s : State) : Host.Outcome State Fault Refusal :=
  run (Seq.start (.instr .clearScreen)) (clearScreenCode s.cfg) s

/-- UNKNOWN (R175). -/
def execUnknown (op : Byte) (s : State) : Host.Outcome State Fault Refusal :=
  run (Seq.start (.instr (.unknown op))) (unknownCode op) s

/-- ACK (R176). -/
def execAck (s : State) : Host.Outcome State Fault Refusal := run (Seq.start (.instr .ack)) (ackCode s.cfg) s

/-- CTL_INIT (R177). -/
def execCtlInit (s : State) : Host.Outcome State Fault Refusal :=
  run (Seq.start (.instr .ctlInit)) (ctlInitCode s.cfg) s

/-- CTL_SLEEP (R177). -/
def execCtlSleep (s : State) : Host.Outcome State Fault Refusal :=
  run (Seq.start (.instr .ctlSleep)) (ctlSleepCode s.cfg) s

end Sys2Proof.Machine
end

