-- ==== Sys2Proof/Machine/Dispatch.lean ====
section
/-! DEFINITION. `exec`: one arm per constructor of `Instr`, each one direct call of its meaning. -/

namespace Sys2Proof.Machine

def exec (i : Instr) (s : State) : Host.Outcome State Fault Refusal :=
  match i with
  | .sendBuffer => Sys2Proof.Machine.execSendBuffer s
  | .writeScreen => Sys2Proof.Machine.execWriteScreen s
  | .clearScreen => Sys2Proof.Machine.execClearScreen s
  | .unknown op => Sys2Proof.Machine.execUnknown op s
  | .ack => Sys2Proof.Machine.execAck s
  | .ctlInit => Sys2Proof.Machine.execCtlInit s
  | .ctlSleep => Sys2Proof.Machine.execCtlSleep s
  | .btst => Sys2Proof.Machine.execBtst s
  | .pon => Sys2Proof.Machine.execPon s
  | .psr => Sys2Proof.Machine.execPsr s
  | .cdi b => Sys2Proof.Machine.execCdi b s
  | .tres => Sys2Proof.Machine.execTres s
  | .dtm1 src => Sys2Proof.Machine.execDtm1 src s
  | .dtm2 src => Sys2Proof.Machine.execDtm2 src s
  | .drf => Sys2Proof.Machine.execDrf s
  | .flg => Sys2Proof.Machine.execFlg s
  | .pof => Sys2Proof.Machine.execPof s
  | .dslp => Sys2Proof.Machine.execDslp s
  | .data b => Sys2Proof.Machine.execData b s
  | .initPanel => Sys2Proof.Machine.execInitPanel s
  | .clear => Sys2Proof.Machine.execClear s
  | .display => Sys2Proof.Machine.execDisplay s
  | .refresh => Sys2Proof.Machine.execRefresh s
  | .sleep => Sys2Proof.Machine.execSleep s
  | .busyWait => Sys2Proof.Machine.execBusyWait s

end Sys2Proof.Machine
end

