-- ==== Sys2Proof/Machine/Fetch.lean ====
section
/-! DEFINITION. What a step runs next: the boot sequence (70_reset_and_hazards.md R232), the input the forever loop
takes (43_dispatcher.md R171, R178, R182), or the rest of an operation an earlier step ended inside. -/

namespace Sys2Proof.Machine

/-- The boot sequence (R232), up to its forever loop. -/
def bootCode (c : Cfg) : List Micro := .arm :: callCode (.instr .initPanel) (initPanelCode c) ++ [.setDState .await]

/-- The sequence of each instruction (R22): what its meaning runs. -/
def instrCode (c : Cfg) : Instr → List Micro
  | .sendBuffer => sendBufferCode c
  | .writeScreen => writeScreenCode c
  | .clearScreen => clearScreenCode c
  | .unknown op => unknownCode op
  | .ack => ackCode c
  | .ctlInit => ctlInitCode c
  | .ctlSleep => ctlSleepCode c
  | .btst => btstCode c
  | .pon => ponCode c
  | .psr => psrCode c
  | .cdi b => cdiCode c b
  | .tres => tresCode c
  | .dtm1 src => dtm1Code c src
  | .dtm2 src => dtm2Code c src
  | .drf => drfCode c
  | .flg => flgCode c
  | .pof => pofCode c
  | .dslp => dslpCode c
  | .data b => dataCode b
  | .initPanel => initPanelCode c
  | .clear => clearCode c
  | .display => displayCode c
  | .refresh => refreshCode c
  | .sleep => sleepCode c
  | .busyWait => busyWaitCode c

/-- The sequence of an operation a position can be in: none for the forever loop, which `processOne` runs, nor for the
operations that are only ever called. -/
def opCode (c : Cfg) : Operation → List Micro
  | .boot => bootCode c
  | .instr i => instrCode c i
  | .main => []
  | .command => []
  | .data => []
  | .wait => []
  | .pulse => []

/-- The input the loop takes. -/
inductive Input where
  | control (q : CtlReq)
  | byte (b : Byte) (rest : List LinkSlot)
  | nothing
  deriving DecidableEq, Repr

/-- Which comes first when a control request and a host byte are both ready: "either may be taken first; the model
admits both orders" (R178). The next choice listed, else a free value. -/
def State.controlFirst (s : State) : Bool :=
  match s.firstIn with
  | c :: _ => c
  | [] => Config.controlFirst s.draws

/-- The state after that choice is drawn. -/
def State.afterChoice (s : State) : State :=
  match s.firstIn with
  | _ :: cs => { s with firstIn := cs }
  | [] => { s with draws := s.draws + 1 }

/-- The input R178 takes, and the state after the choice, if there was one to make. A request that is pending while no
byte is at hand "ends that wait without consuming a byte and is taken". -/
def nextInput (s : State) : Input × State :=
  match s.ctlReq, s.rx with
  | none, .byte b :: rest => (.byte b rest, s)
  | none, _ => (.nothing, s)
  | some q, .byte b :: rest => (if s.controlFirst then .control q else .byte b rest, s.afterChoice)
  | some q, _ => (.control q, s)

/-- ProcessOneCommand (R171): the environment's moment, then the next input; a control request is performed, an opcode
byte is received, decoded and performed, and with neither the block feeds and waits on. -/
def processOne (s : State) : Host.Outcome State Fault Refusal :=
  match s.moment with
  | .reset t => .next t
  | .hold t => .next t
  | .pass t =>
    match nextInput t with
    | (.control q, u) => exec (decodeControl q) u
    | (.byte b rest, u) => exec (decodeHost u.cfg b) (u.receive b rest)
    | (.nothing, u) => .next u.linkIdle

/-- A faulted block "performs no further primitive" (R206); only a reset leaves the fault. -/
def idleFaulted (s : State) : Host.Outcome State Fault Refusal :=
  match s.moment with
  | .pass t => .next t
  | .reset t => .next t
  | .hold t => .next t

/-- Go on from the sequence position (R22). -/
def continueAt (s : State) : Host.Outcome State Fault Refusal :=
  match s.seq.op with
  | .main => processOne s
  | op => run s.seq (restFrom op s (opCode s.cfg op)) s

/-- One step of a machine that was built (R6): faulted, or at its sequence position. -/
def stepBuilt (s : State) : Host.Outcome State Fault Refusal :=
  if s.dstate = .faulted then idleFaulted s else continueAt s

/-- The payload bytes a number of the opcode table holds above its first byte (R81). -/
def tablePayload (c : Cfg) (w : Nat) : List LinkSlot :=
  (List.range c.payloadLen).map fun i => .byte (BitVec.ofNat 8 (w >>> (8 * (i + 1))))

/-- The block in its forever loop with the byte `b` next on the link, followed by `payload`, and no request pending. -/
def placeHostByte (s : State) (b : Byte) (payload : List LinkSlot) : State :=
  { s with dstate := .await, seq := Seq.main, ctlReq := none, env := [], rx := .byte b :: payload }

/-- The state in which the very next step runs the instruction a number of the opcode table stands for: a host command
stands at the head of the link, with the payload when it is Send-Buffer; any other row is selected by the sequence
position. Nothing else happens meanwhile (log entry 16). -/
def placeTableWord (s : State) (nbits w : Nat) : State :=
  let b : Byte := BitVec.ofNat 8 w
  match tableInstr s.cfg nbits w with
  | none => s
  | some .sendBuffer => placeHostByte s b (tablePayload s.cfg w)
  | some .writeScreen => placeHostByte s b []
  | some .clearScreen => placeHostByte s b []
  | some (.unknown _) => placeHostByte s b []
  | some i => { s with dstate := .exec, seq := Seq.start (.instr i), env := [] }

end Sys2Proof.Machine
end

