-- ==== Sys2Proof/Machine/Step.lean ====
section
/-! DEFINITION. The one step of the machine, and how a word comes to stand where the next step runs it. -/

namespace Sys2Proof.Machine

/-- A step: the block runs until its operation ends, or until it waits for the host, takes a fault, or the environment
ends the step (log entry 5). "A model refuses (builds no machine for) a CFG that breaks any of these checks" (R6). -/
def step (s : State) : Host.Outcome State Fault Refusal :=
  match s.cfg.firstBroken with
  | some check => .refused (.illFormedConfig check)
  | none => stepBuilt s

/-- The state in which `step` runs the instruction of the opcode table that `w` numbers. -/
def State.withFetchWord (s : State) (nbits w : Nat) : State := placeTableWord s nbits w

end Sys2Proof.Machine
end

