-- ==== Sys2Proof/Machine/TraceForms.lean ====
section
/-! DEFINITION. The trace notation of 00_scope.md R12 as lists of events in the order they happen, and what an observer
reads off a trace: the byte streams of 20_memory.md R60 and the framing of 40_bus_framing.md R102. -/

namespace Sys2Proof.Machine

/-- `C(b)`: the four events of a framed command byte (R12, R100). -/
def evC (b : Byte) : List Event := [.line .dc 0, .line .cs 0, .spi b, .line .cs 1]

/-- `D(b)`: the four events of a framed data byte (R12, R101). -/
def evD (b : Byte) : List Event := [.line .dc 1, .line .cs 0, .spi b, .line .cs 1]

/-- `C(c) D(d0) D(d1) …`: a command with its data (R93, R103). -/
def evSend (command : Byte) (ds : List Byte) : List Event := evC command ++ ds.flatMap evD

/-- `W d(t)`: a fed delay (R105). -/
def evWait (ms : Nat) : List Event := [.feed, .delay ms]

/-- The reset pulse (R104). -/
def evPulse (c : Cfg) : List Event :=
  .line .rst 1 :: evWait c.rstHighMs ++ .line .rst 0 :: evWait c.rstLowMs ++ .line .rst 1 :: evWait c.rstSettleMs

/-- One poll that goes on: `W B(v) d(POLL_MS)` (R158). -/
def evPoll (c : Cfg) (v : Bit) : List Event := [.feed, .busy v, .delay c.pollMs]

/-- A whole BusyWait (R158): the samples `vs` that went on, each with its delay, then the last sample `v`, then the
settle delay. -/
def evBusyWait (c : Cfg) (vs : List Bit) (v : Bit) : List Event :=
  evC c.cmdFlg ++ vs.flatMap (evPoll c) ++ [.feed, .busy v] ++ evWait c.settleMs

/-- The configuration part of Initialize after the optional wait (R121). -/
def evSetup (c : Cfg) : List Event :=
  evSend c.cmdPsr [c.psrData] ++ evSend c.cmdCdi [c.cdiData] ++ evSend c.cmdTres c.tresData.toList

/-- Initialize with `wait` where its busy wait may stand (R121): nothing when `INIT_BUSY_WAIT` is false. -/
def evInit (c : Cfg) (wait : List Event) : List Event :=
  evPulse c ++ evSend c.cmdBtst c.btstData.toList ++ evC c.cmdPon ++ wait ++ evSetup c

/-- The two plane writes of Clear or Display with their bytes, and the refresh command (R123, R124, R126). -/
def evPlanes (c : Cfg) (black red : List Byte) : List Event :=
  evSend c.cmdDtm1 black ++ evSend c.cmdDtm2 red ++ evC c.cmdDrf

/-- The ack's events (R176). -/
def evAck (c : Cfg) : List Event :=
  match c.ackMode with
  | .ack => [.tx c.ackByte]
  | .silent => []

/-- The diagnostic of the "done" point (R176): `DONE` under SILENT only. -/
def diagAtDone (c : Cfg) (op : CurOp) : List Diag :=
  match c.ackMode with
  | .ack => []
  | .silent => [.done op]

/-! ## What an observer reads -/

/-- The host transmit stream (R60). -/
def hostTx (es : List Event) : List Byte := es.filterMap fun e =>
  match e with
  | .tx b => some b
  | _ => none

/-- The bytes received from the host (R60). -/
def hostRx (es : List Event) : List Byte := es.filterMap fun e =>
  match e with
  | .rx b => some b
  | _ => none

/-- The busy samples read (R8). -/
def busySamples (es : List Event) : List Bit := es.filterMap fun e =>
  match e with
  | .busy v => some v
  | _ => none

/-- The panel bus stream of R60: each byte written with the level DC then has. -/
def panelStream (dc : Level) : List Event → List (Level × Byte)
  | [] => []
  | .line .dc v :: es => panelStream (.driven v) es
  | .spi b :: es => (dc, b) :: panelStream dc es
  | _ :: es => panelStream dc es

/-- How many times the panel stream carries a command byte (R87: DC = 0). -/
def commandCount (es : List Event) (b : Byte) : Nat := (panelStream .undriven es).count (.driven 0, b)

/-- Framing atomicity (R102): `LINE(CS,0)`, one byte, `LINE(CS,1)` come together, and neither a byte nor a level of CS
comes otherwise. -/
def framed : List Event → Bool
  | [] => true
  | .line .cs v :: es =>
    v == 0 &&
      match es with
      | .spi _ :: .line .cs u :: rest => u == 1 && framed rest
      | _ => false
  | .spi _ :: _ => false
  | _ :: es => framed es

/-- Every busy sample is "immediately preceded by a FEED" (R159); `fed` says the last event was one. -/
def fedPolls (fed : Bool) : List Event → Bool
  | [] => true
  | .busy _ :: es => fed && fedPolls false es
  | .feed :: es => fedPolls true es
  | _ :: es => fedPolls false es

/-- Every delay has a FEED before it with no other delay between them (R105, R159); `fed` says one is still unspent. -/
def fedDelays (fed : Bool) : List Event → Bool
  | [] => true
  | .delay _ :: es => fed && fedDelays false es
  | .feed :: es => fedDelays true es
  | _ :: es => fedDelays fed es

end Sys2Proof.Machine
end

