-- ==== Sys2Proof/Safety.lean ====
section
/-! DEFINITION. The terms claims use: quiet environments, the samples a busy wait will read and how it ends, the bytes
a plane write sends, the state between dispatch cycles, the invariant every step keeps, and a safe run. -/

namespace Sys2Proof.Machine

/-- Nothing is scheduled: no reset, no new request, no optional line, no pause. -/
abbrev State.Quiet (s : State) : Prop := s.env = []

/-- What a command with its data bytes leaves (R100, R101, R103): DC as the last byte had it, CS back at 1, and the
framed bytes on the trace. -/
def State.sent (s : State) (command : Byte) (ds : List Byte) : State :=
  { s with
    lineDc := if ds = [] then .driven 0 else .driven 1
    lineCs := .driven 1
    trace := (evSend command ds).reverse ++ s.trace }

/-- The instruction that is a panel operation (R26). -/
def PanelOp.instr : PanelOp → Instr
  | .initPanel => .initPanel
  | .clear => .clear
  | .display => .display
  | .refresh => .refresh
  | .sleep => .sleep
  | .busyWait => .busyWait

/-- The panel operation whose entry check an instruction meets first, if it invokes one (R120, R173, R174, R177). -/
def entryOp : Instr → Option PanelOp
  | .writeScreen => some .display
  | .clearScreen => some .clear
  | .ctlInit => some .initPanel
  | .ctlSleep => some .sleep
  | .initPanel => some .initPanel
  | .clear => some .clear
  | .display => some .display
  | .refresh => some .refresh
  | .sleep => some .sleep
  | .busyWait => some .busyWait
  | .sendBuffer => none
  | .unknown _ => none
  | .ack => none
  | .btst => none
  | .pon => none
  | .psr => none
  | .cdi _ => none
  | .tres => none
  | .dtm1 _ => none
  | .dtm2 _ => none
  | .drf => none
  | .flg => none
  | .pof => none
  | .dslp => none
  | .data _ => none

/-- The link shows no byte at this look. -/
def NoByte (slots : List LinkSlot) : Prop := ∀ b rest, slots ≠ .byte b :: rest

/-! ## Busy samples (10_state.md R44, 42_busy_wait.md R158) -/

/-- The sample the busy line will give at the `j`-th look from now: listed, else a free value. -/
def State.sampleAt (s : State) (j : Nat) : Bit :=
  match s.busyIn[j]? with
  | some v => v
  | none => Config.busyLevel (s.draws + (j - s.busyIn.length))

/-- The next busy wait takes `k` samples and ends ready (`late = false`, R153) or at the ceiling (`late = true`,
R154): `k` is "the index (1-based) of the first ready sample if that index is at most BUSY_MAX_POLLS, and
BUSY_MAX_POLLS otherwise" (R158). -/
def BusyEnds (s : State) (k : Nat) (late : Bool) : Prop :=
  1 ≤ k ∧ k ≤ s.cfg.busyMaxPolls ∧ (∀ j, j < k - 1 → s.sampleAt j = s.cfg.busyActive) ∧
    (if late then k = s.cfg.busyMaxPolls ∧ s.sampleAt (k - 1) = s.cfg.busyActive
      else s.sampleAt (k - 1) ≠ s.cfg.busyActive)

/-- The trace of a busy wait of `k` samples that starts in `s` (R158). -/
def evWaitOf (s : State) (k : Nat) : List Event :=
  evBusyWait s.cfg (List.replicate (k - 1) s.cfg.busyActive) (s.sampleAt (k - 1))

/-- The calls of `Diag` of a busy wait (R154, R203). -/
def diagOfWait (k : Nat) (late : Bool) : List Diag := if late then [.busyTimeout k] else []

/-- What a busy wait of `k` samples leaves besides the trace and the lines (R153, R154, R156). -/
def State.waited (s : State) (k : Nat) (late : Bool) : State :=
  { s.said (diagOfWait k late) with
    bwActive := false
    polls := k
    timedOut := late
    busyIn := s.busyIn.drop k
    draws := s.draws + (k - s.busyIn.length) }

/-! ## The bytes of a plane write from the store (20_memory.md R65, 40_bus_framing.md R109) -/

/-- The bytes read from the cells listed, in order: the cell's byte, or a fresh free value for an `UNWRITTEN` one;
`draws` counts the free values drawn so far. -/
def cellBytes (fb : Store) (draws : Nat) : List Nat → List Byte
  | [] => []
  | i :: is =>
    match Store.read fb i with
    | some b => b :: cellBytes fb draws is
    | none => Config.unwrittenByte draws :: cellBytes fb (draws + 1) is

/-- How many of the cells listed are `UNWRITTEN`. -/
def unwrittenIn (fb : Store) (is : List Nat) : Nat := is.countP fun i => (Store.read fb i).isNone

/-- The cells of a plane, in index order (R62). -/
def planeCells (c : Cfg) (p : Plane) : List Nat := List.range' (planeBase c p) c.planeSize

/-- The bytes Display sends under DTM1 (R124). -/
def State.blackBytes (s : State) : List Byte := cellBytes s.fb s.draws (planeCells s.cfg .black)

/-- How many free values the black plane draws. -/
def State.blackDraws (s : State) : Nat := unwrittenIn s.fb (planeCells s.cfg .black)

/-- The bytes Display sends under DTM2 (R124). -/
def State.redBytes (s : State) : List Byte :=
  cellBytes s.fb (s.draws + s.blackDraws) (planeCells s.cfg .red)

/-- How many free values the red plane draws. -/
def State.redDraws (s : State) : Nat := unwrittenIn s.fb (planeCells s.cfg .red)

/-- The state once a whole frame has been read from the store: the free values drawn, and the last byte held. -/
def State.frameRead (s : State) : State :=
  { s with
    held := ((s.blackBytes ++ s.redBytes).getLast?).getD s.held
    draws := s.draws + s.blackDraws + s.redDraws }

/-- The two constant planes Clear sends (R123). -/
def State.blankBlack (s : State) : List Byte := List.replicate s.cfg.planeSize s.cfg.clearByteBlack

/-- Clear's red plane (R123). -/
def State.blankRed (s : State) : List Byte := List.replicate s.cfg.planeSize s.cfg.clearByteRed

/-! ## Writes of the Panel State (10_state.md R25) -/

/-- The values a sequence writes to `pstate`, in order. -/
def pstateWrites (ms : List Micro) : List PState := ms.filterMap fun m =>
  match m with
  | .setPState p => some p
  | _ => none

/-- Each value follows the one before it by an edge of R25's table. -/
def edgesFrom : PState → List PState → Bool
  | _, [] => true
  | p, q :: qs => panelEdge p q && edgesFrom q qs

/-! ## Between dispatch cycles (43_dispatcher.md R170, 60_exceptions.md R205) -/

/-- The block waits for its next command, as after boot or a completed cycle: `AWAIT`, no operation, no session, no
fault, the watchdog armed, and the panel `IDLE` or `SLEEPING`. -/
def State.Settled (s : State) : Prop :=
  s.seq = Seq.main ∧ s.dstate = .await ∧ s.curOp = .none ∧ s.bwActive = false ∧ s.fault = none ∧
    s.wdtArmed = true ∧ (s.pstate = .idle ∨ s.pstate = .sleeping)

/-- The position of Send-Buffer's `RxByte()` once `n` payload bytes are stored: the call of `Ack()` is behind it, and
the two primitives of each byte (R22, R172). -/
def Seq.receiving (n : Nat) : Seq := ⟨.instr .sendBuffer, 1 + 2 * n, []⟩

/-- The block waits for a payload byte in `RECV` (R170, R180). -/
def State.Receiving (s : State) : Prop :=
  s.seq = Seq.receiving s.rxIdx ∧ s.rxIdx < s.cfg.payloadLen ∧ s.dstate = .recv ∧ s.curOp = .sendBuffer ∧ s.bwActive = false ∧ s.fault = none ∧
    s.wdtArmed = true ∧ (s.pstate = .idle ∨ s.pstate = .sleeping)

/-- The block has faulted for an operation called while the panel sleeps (R205). -/
def State.FaultedAsleep (s : State) : Prop :=
  s.dstate = .faulted ∧ s.pstate = .sleeping ∧
    ∃ op, validIn op .sleeping = false ∧ s.fault = some ⟨0x04, op, .sleeping⟩

/-- A built block that the environment leaves alone, in a dispatch cycle: between two cycles, waiting for a payload
byte, or faulted while the panel sleeps. -/
def State.InCycle (s : State) : Prop :=
  s.cfg.wf = true ∧ s.Quiet ∧ (s.Settled ∨ s.Receiving ∨ s.FaultedAsleep)

/-- A request has arrived that may be taken or lost: it pends unless another does (R46). -/
def State.asked (s : State) (q : CtlReq) : State := { s with ctlReq := some (s.ctlReq.getD q) }

/-- From `s` to `t` by steps that the environment each ends by a pause, after as many quiet primitives as `ns` says. -/
def PausedThrough : List Nat → State → State → Prop
  | [], s, t => t = s
  | n :: ns, s, t =>
    ∃ v, step { s with env := List.replicate n .quiet ++ [.pause] } = .next v ∧ v.env = [] ∧ PausedThrough ns v t

/-! ## The invariant -/

/-- The memory keeps its canonical form and lists cells of the store only (R27). -/
def State.StoreOk (s : State) : Prop := Memory.wf s.fb = true ∧ Store.within s.fb s.cfg.payloadLen = true

/-- The ranges of the counters (R20, R28, R30), and a session that has reached its ceiling has timed out (R154). -/
def State.CountersOk (s : State) : Prop :=
  s.rxIdx ≤ s.cfg.payloadLen ∧ s.polls ≤ s.cfg.busyMaxPolls ∧
    (s.bwActive = true → s.polls = s.cfg.busyMaxPolls → s.timedOut = true)

/-- "while set, dstate is FAULTED" (R33), and `FAULTED` only with a record. -/
def State.FaultOk (s : State) : Prop := s.dstate = .faulted ↔ s.fault ≠ none

/-- The watchdog is armed once the boot sequence has taken its first step, and only then (R31). -/
def State.ArmOk (s : State) : Prop := s.seq = Seq.start .boot ↔ s.wdtArmed = false

/-- Every fault record is `InvalidPanelState`, code 0x04, of an operation in a panel state outside its `VALID`
(R200, R205). -/
def State.RecordOk (s : State) : Prop :=
  ∀ f, s.fault = some f → f.code = 0x04 ∧ validIn f.op f.pstate = false

/-- The invariant of a built machine. -/
structure State.Inv (s : State) : Prop where
  cfgOk : s.cfg.wf = true
  storeOk : s.StoreOk
  countersOk : s.CountersOk
  faultOk : s.FaultOk
  armOk : s.ArmOk
  recordOk : s.RecordOk

/-- A safe run of `k` steps: every step answers a next state, and none of the states is faulted ("a run that reaches
it is a failed run", R206). -/
def SafeRun : Nat → State → Prop
  | 0, s => s.dstate ≠ .faulted
  | k + 1, s => s.dstate ≠ .faulted ∧ ∃ t, step s = .next t ∧ SafeRun k t

end Sys2Proof.Machine
end

