-- ==== Sys2Proof/Certificates/Slice0/Obligations.lean ====
section
/-! DEFINITION. The statements for the provers: what the rules of spec/ say the block does, in the terms of
Safety.lean. Every statement holds for every configuration unless it names a check of R6 as a premise. Where a result
names `seq`, `held`, `draws`, `rx`, `busyIn`, `firstIn`, `env`, `diag` or `diagCalls`, that part is in the model's own
terms (log entries 5 to 12): those fields say how far the block and its inputs have got, `said` that the calls of `Diag`
it names were made, each line emitted or dropped, and a free value stands for every value. That an operation which ends
leaves the block in the forever loop (`seq := Seq.main`) is the model's grain of a step (log entry 5), and `Quiet` is a
run with no reset, no new request, no optional diagnostic line and no pause (log entries 6 and 12). -/

open Sys2Proof Sys2Proof.Machine

/-! ## Encoding and decoding -/

/-- The words of some rows, written out with the values of `Cfg.build` (the general-knowledge bytes of R88 and the
spec's test binding: the model's choice, log entries 1 and 2), decode to their instructions; a command byte that is
none of R88's, and a command with other data, are rejected by name. -/
def Obligations.WordsOfTheTableDecode : Prop :=
  decode Cfg.build [.command 0x06, .data 0x17, .data 0x17, .data 0x17] = .ok .btst [] ∧
  decode Cfg.build [.command 0x04, .host 0x03] = .ok .pon [.host 0x03] ∧
  decode Cfg.build [.command 0x61, .data 0x68, .data 0x00, .data 0xD4] = .ok .tres [] ∧
  decode Cfg.build [.command 0x50, .data 0xF7] = .ok (.cdi 0xF7) [] ∧
  decode Cfg.build [.command 0x07, .data 0xA5] = .ok .dslp [] ∧
  decode Cfg.build [.command 0x12, .command 0x71] = .ok .drf [.command 0x71] ∧
  decode Cfg.build [.data 0xAA] = .ok (.data 0xAA) [] ∧
  decode Cfg.build [.tx 0x06] = .ok .ack [] ∧
  decode Cfg.build [.host 0x01] = .ok .sendBuffer [] ∧
  decode Cfg.build [.host 0x7E] = .ok (.unknown 0x7E) [] ∧
  decode Cfg.build [.ctl .sleep] = .ok .ctlSleep [] ∧
  decode Cfg.build [.command 0x99] = .rejected (.notACommand 0x99) ∧
  decode Cfg.build [.command 0x07, .data 0xA4] = .rejected (.wrongData 0x07) ∧
  decode Cfg.build [.tx 0x15] = .rejected (.notAnAck 0x15)

/-- R82 and R83: the opcode map, by all eight bits of the first byte, and the length of the frame it begins. -/
def Obligations.FirstByteDecidesFrame : Prop :=
  ∀ (c : Cfg) (b : Byte), c.wf = true →
    (b = c.opSendBuffer → decodeHost c b = .sendBuffer ∧ frameLength c b = 1 + c.payloadLen) ∧
    (b = c.opWriteScreen → decodeHost c b = .writeScreen ∧ frameLength c b = 1) ∧
    (b = c.opClearScreen → decodeHost c b = .clearScreen ∧ frameLength c b = 1) ∧
    (b ≠ c.opSendBuffer → b ≠ c.opWriteScreen → b ≠ c.opClearScreen →
      decodeHost c b = .unknown b ∧ frameLength c b = 1)

/-- R84: "There are 253 such byte values for any legal CFG". -/
def Obligations.UnknownClassHas253Bytes : Prop :=
  ∀ c : Cfg, c.wf = true →
    (List.range 256).countP (fun n => decodeHost c (BitVec.ofNat 8 n) == .unknown (BitVec.ofNat 8 n)) = 253

/-- Decoding the words of a well-formed instruction gives it back, whatever follows that is not more data. That no two
panel commands share a byte is a premise the spec does not check (log entry 15). -/
def Obligations.DecodeEncodeRoundTrip : Prop :=
  ∀ (c : Cfg) (i : Instr) (rest : List Wire), c.wf = true → c.PanelDistinct → i.wf c = true →
    encode c i ≠ [] → (∀ b ws, rest ≠ .data b :: ws) → decode c (encode c i ++ rest) = .ok i rest

/-- What decodes to an instruction is the words of that instruction: no word has two readings. -/
def Obligations.DecodedWordsAreTheInstructions : Prop :=
  ∀ (c : Cfg) (ws rest : List Wire) (i : Instr), decode c ws = .ok i rest → encode c i ++ rest = ws

/-! ## What a step runs -/

/-- R171: in the forever loop, with no request pending and a byte next on the link, a step is `exec` of the
instruction the byte decodes to, after the byte has been received (`RX(b)` recorded, the byte consumed). -/
def Obligations.StepRunsTheByteReceived : Prop :=
  ∀ (s : State) (b : Byte) (rest : List LinkSlot), s.cfg.wf = true → s.dstate ≠ .faulted → s.seq.op = .main →
    s.Quiet → s.ctlReq = none → s.rx = .byte b :: rest →
    step s = exec (decodeHost s.cfg b) { s with held := b, rx := rest, trace := .rx b :: s.trace }

/-- R171, R178: with a request pending and no byte at hand, a step is `exec` of the request; and a request that comes
while the block waits for an opcode "ends that wait without consuming a byte and is taken". -/
def Obligations.StepTakesTheRequest : Prop :=
  (∀ (s : State) (q : CtlReq), s.cfg.wf = true → s.dstate ≠ .faulted → s.seq.op = .main → s.Quiet →
    s.ctlReq = some q → NoByte s.rx → step s = exec (decodeControl q) s) ∧
  (∀ (s : State) (q : CtlReq) (es : List EnvEvent), s.cfg.wf = true → s.dstate ≠ .faulted →
    s.seq.op = .main → s.env = .request q :: es → s.ctlReq = none → NoByte s.rx →
    step s = exec (decodeControl q) { s with env := es, ctlReq := some q })

/-- R178: with a request pending and a byte at hand "either may be taken first; the model admits both orders": the
next choice the state lists decides, and when it lists none a free value does. -/
def Obligations.StepAdmitsBothOrders : Prop :=
  ∀ (s : State) (q : CtlReq) (b : Byte) (rest : List LinkSlot), s.cfg.wf = true → s.dstate ≠ .faulted →
    s.seq.op = .main → s.Quiet → s.ctlReq = some q → s.rx = .byte b :: rest →
    (∀ cs, s.firstIn = true :: cs → step s = exec (decodeControl q) { s with firstIn := cs }) ∧
    (∀ cs, s.firstIn = false :: cs →
      step s = exec (decodeHost s.cfg b)
        { s with firstIn := cs, held := b, rx := rest, trace := .rx b :: s.trace }) ∧
    (s.firstIn = [] →
      step s = exec (decodeControl q) { s with draws := s.draws + 1 } ∨
      step s = exec (decodeHost s.cfg b)
        { s with draws := s.draws + 1, held := b, rx := rest, trace := .rx b :: s.trace })

/-- R106 item 3, R107, R180: with neither, the block feeds once, looks again at the next step, and nothing else
changes: "a hang of the block, not an error". -/
def Obligations.StepWaitsByFeeding : Prop :=
  ∀ s : State, s.cfg.wf = true → s.dstate ≠ .faulted → s.seq.op = .main → s.Quiet → s.ctlReq = none →
    NoByte s.rx → step s = .next { s with rx := s.rx.tail, trace := .feed :: s.trace }

/-- R22: a step at the beginning of an instruction's sequence is `exec` of the instruction, and one at a later position
runs what `restFrom` finds there. What it finds is right: wherever running an instruction or boot from its beginning has
got to, if the block can be stopped there, a step from that position, whatever the environment then does, is a run of
exactly what the sequence has left, the elementary step it was stopped before first. -/
def Obligations.StepContinuesAtThePosition : Prop :=
  (∀ (s : State) (i : Instr), s.cfg.wf = true → s.dstate ≠ .faulted → s.seq.op = .instr i →
    (s.seq = Seq.start (.instr i) → step s = exec i s) ∧
    step s = run s.seq (restFrom (.instr i) s (instrCode s.cfg i)) s) ∧
  (∀ (op : Operation) (a b : List Micro) (m : Micro) (s u t v : State) (es : List EnvEvent), s.cfg.wf = true →
    s.dstate ≠ .faulted → opCode s.cfg op = a ++ m :: b → walk (Seq.start op) a s = .done u →
    m.exec { u with env := [.pause] } = .hold t →
    v = { u with seq := placeAll a (Seq.start op) s, env := es } → step v = run v.seq (m :: b) v)

/-- R22: the innermost position advances by one with each primitive that completes and with nothing else: an elementary
step that does not count completes none, and one that counts completes one. A call of any operation, from any position,
nests the callee's first step under the caller's and returns to the step after the call. The poll loop alone goes back,
each pass to its head, and is left at the step its last primitive leads to. How the steps are numbered is log entry 5. -/
def Obligations.PositionAdvancesAndNests : Prop :=
  (∀ (m : Micro) (s t : State) (p : Seq), m.counts s = false → m ≠ .ret → m ≠ .pollHead → m ≠ .pollExit →
    m.exec s = .go t → m.place s p = p ∧ t.env = s.env ∧ t.trace = s.trace ∧ t.diagCalls = s.diagCalls) ∧
  (∀ (m : Micro) (s t : State) (p : Seq) (es : List EnvEvent), m.counts s = true → (∀ op, m ≠ .call op) →
    (m = .rxPayload ∨ m = .memWrite → s.rxIdx < s.cfg.payloadLen) →
    (m = .pollFeed ∨ m = .pollSample → s.polls < s.cfg.busyMaxPolls) → s.env = .quiet :: es → m.exec s = .go t →
    m.place s p = p.next ∧ t.env = es) ∧
  (∀ (op : Operation) (s : State) (p : Seq), (Micro.call op).place s p = { p with calls := ⟨op, 0⟩ :: p.calls }) ∧
  (∀ (c : Cfg) (i : Instr) (b : Byte) (ms : Nat) (code rest : List Micro) (p : Seq) (s t : State),
    code = callCode (.instr i) (instrCode c i) ∨ code = callCode .command (cmdCode b) ∨
      code = callCode .data (dataCode b) ∨ code = waitCode ms ∨ code = pulseCode c →
    walk p code s = .done t → walk p (code ++ rest) s = walk p.next rest t) ∧
  (∀ (s : State) (p : Seq) (k : Nat) (late : Bool), s.Quiet → s.bwActive = true → s.polls = 0 → BusyEnds s k late →
    placeAll (List.replicate s.cfg.busyMaxPolls pollCode).flatten p s = p.at (if late then 4 else 3))

/-- The host's placing of a number of the opcode table: the very next step runs the instruction it stands for (the
model's reading of the table's numbers, log entry 16). -/
def Obligations.StepRunsTheTableWord : Prop :=
  ∀ (s : State) (w : Nat) (i : Instr), s.cfg.wf = true → tableInstr s.cfg 8 w = some i →
    (i.format = .panelWord → step (s.withFetchWord 8 w) = exec i (s.withFetchWord 8 w)) ∧
    (i.format = .hostCmd →
      step (s.withFetchWord 8 w) =
        exec i ((s.withFetchWord 8 w).receive (BitVec.ofNat 8 w) (s.withFetchWord 8 w).rx.tail))

/-- R6: what each check asks, and that a machine is built for no configuration that breaks one. -/
def Obligations.IllFormedConfigIsRefused : Prop :=
  (∀ c : Cfg, c.wf = true ↔
    (1 ≤ c.width ∧ 1 ≤ c.height) ∧ c.payloadLen = 2 * c.planeSize ∧
    (c.opSendBuffer ≠ c.opWriteScreen ∧ c.opSendBuffer ≠ c.opClearScreen ∧ c.opWriteScreen ≠ c.opClearScreen) ∧
    1 ≤ c.busyMaxPolls ∧ (100 ≤ c.rstHighMs ∧ 2 ≤ c.rstLowMs ∧ 10 ≤ c.rstSettleMs) ∧
    (c.pollMs < c.wdtTimeout ∧ c.settleMs < c.wdtTimeout ∧ c.rstHighMs < c.wdtTimeout ∧
      c.rstLowMs < c.wdtTimeout ∧ c.rstSettleMs < c.wdtTimeout) ∧
    (c.tresData = ⟨BitVec.ofNat 8 c.width, BitVec.ofNat 8 (c.height / 256), BitVec.ofNat 8 c.height⟩ →
      c.width ≤ 255 ∧ c.height ≤ 65535)) ∧
  (∀ s : State, s.cfg.wf = false → ∃ k, s.cfg.passes k = false ∧ step s = .refused (.illFormedConfig k))

/-- R206, R208, R230: a faulted block does nothing, emits nothing and waits; a request that comes is only noted; a reset
leaves the fault, whatever else the schedule holds. -/
def Obligations.FaultedBlockOnlyResets : Prop :=
  ∀ (s : State) (es : List EnvEvent), s.cfg.wf = true → s.dstate = .faulted →
    (s.Quiet → step s = .next s) ∧
    (s.env = .quiet :: es → step s = .next { s with env := es }) ∧
    (s.env = .pause :: es → step s = .next { s with env := es }) ∧
    (∀ ls, s.env = .lines ls :: es → step s = .next { s with env := es }) ∧
    (∀ q, s.env = .request q :: es → step s = .next { s with env := es, ctlReq := some (s.ctlReq.getD q) }) ∧
    (s.env = .por :: es → step s = .next ({ s with env := es }.resetTo .por)) ∧
    (s.env = .wdtReset :: es → step s = .next ({ s with env := es }.resetTo .wdt)) ∧
    (s.env = .bothResets :: es → step s = .next ({ s with env := es }.resetTo .por))

/-! ## Panel words -/

/-- R100: `CMD(b)` for every byte, and the four rows that are one command byte alone. -/
def Obligations.CommandByteIsFramed : Prop :=
  ∀ s : State, s.Quiet →
    (∀ (p : Seq) (b : Byte), walk p (cmdCode b) s =
      .done { s with
        lineDc := .driven 0
        lineCs := .driven 1
        trace := .line .cs 1 :: .spi b :: .line .cs 0 :: .line .dc 0 :: s.trace }) ∧
    exec .pon s = .next { s.sent s.cfg.cmdPon [] with seq := Seq.main } ∧
    exec .drf s = .next { s.sent s.cfg.cmdDrf [] with seq := Seq.main } ∧
    exec .flg s = .next { s.sent s.cfg.cmdFlg [] with seq := Seq.main } ∧
    exec .pof s = .next { s.sent s.cfg.cmdPof [] with seq := Seq.main }

/-- R101: the DATA row sends any byte in its framing and changes nothing else but that the block is back in the forever
loop (log entry 5). -/
def Obligations.DataByteIsFramed : Prop :=
  ∀ (s : State) (b : Byte), s.Quiet →
    exec (.data b) s = .next { s with
      lineDc := .driven 1
      lineCs := .driven 1
      seq := Seq.main
      trace := .line .cs 1 :: .spi b :: .line .cs 0 :: .line .dc 1 :: s.trace }

/-- R103: `SEND(c, ds)` for every command and every data, none included, and the rows that are a command with the data
bytes R88 gives it. -/
def Obligations.CommandIsSentWithItsData : Prop :=
  ∀ s : State, s.Quiet →
    (∀ (p : Seq) (command : Byte) (ds : List Byte), walk p (sendCode command ds) s =
      .done { s with
        lineDc := if ds = [] then .driven 0 else .driven 1
        lineCs := .driven 1
        trace := (evC command ++ ds.flatMap evD).reverse ++ s.trace }) ∧
    exec .btst s = .next { s.sent s.cfg.cmdBtst [s.cfg.btstData.b0, s.cfg.btstData.b1, s.cfg.btstData.b2] with
      seq := Seq.main } ∧
    exec .psr s = .next { s.sent s.cfg.cmdPsr [s.cfg.psrData] with seq := Seq.main } ∧
    (∀ b, exec (.cdi b) s = .next { s.sent s.cfg.cmdCdi [b] with seq := Seq.main }) ∧
    exec .tres s = .next { s.sent s.cfg.cmdTres [s.cfg.tresData.b0, s.cfg.tresData.b1, s.cfg.tresData.b2] with
      seq := Seq.main } ∧
    exec .dslp s = .next { s.sent s.cfg.cmdDslp s.cfg.dslpData with seq := Seq.main }

/-- R109: a plane write of a constant is the plane's command and exactly `PLANE_SIZE` data bytes; the store is neither
read nor written. -/
def Obligations.ConstantPlaneIsStreamed : Prop :=
  ∀ (s : State) (b : Byte), s.Quiet →
    exec (.dtm1 (.const b)) s =
      .next { s.sent s.cfg.cmdDtm1 (List.replicate s.cfg.planeSize b) with seq := Seq.main } ∧
    exec (.dtm2 (.const b)) s =
      .next { s.sent s.cfg.cmdDtm2 (List.replicate s.cfg.planeSize b) with seq := Seq.main }

/-- R62, R65, R109: a plane write from the store sends, in index order, each cell of its plane, a fresh free value for
an `UNWRITTEN` one, and changes no cell; where the plane is not inside the store the machine stops at the first index
that is no cell's (R61). -/
def Obligations.StoredPlaneIsStreamed : Prop :=
  ∀ s : State, s.Quiet →
    (s.cfg.planeSize ≤ s.cfg.payloadLen →
      exec (.dtm1 .store) s =
        .next { s.sent s.cfg.cmdDtm1 (cellBytes s.fb s.draws (List.range' 0 s.cfg.planeSize)) with
          seq := Seq.main
          held := ((cellBytes s.fb s.draws (List.range' 0 s.cfg.planeSize)).getLast?).getD s.held
          draws := s.draws + unwrittenIn s.fb (List.range' 0 s.cfg.planeSize) }) ∧
    (2 * s.cfg.planeSize ≤ s.cfg.payloadLen →
      exec (.dtm2 .store) s =
        .next { s.sent s.cfg.cmdDtm2 (cellBytes s.fb s.draws (List.range' s.cfg.planeSize s.cfg.planeSize)) with
          seq := Seq.main
          held :=
            ((cellBytes s.fb s.draws (List.range' s.cfg.planeSize s.cfg.planeSize)).getLast?).getD s.held
          draws := s.draws + unwrittenIn s.fb (List.range' s.cfg.planeSize s.cfg.planeSize) }) ∧
    (s.cfg.payloadLen < s.cfg.planeSize → exec (.dtm1 .store) s = .fault (.noSuchCell s.cfg.payloadLen)) ∧
    (s.cfg.payloadLen < 2 * s.cfg.planeSize →
      exec (.dtm2 .store) s = .fault (.noSuchCell (max s.cfg.planeSize s.cfg.payloadLen)))

/-! ## The busy wait -/

/-- R158: whatever the busy line does, a busy wait ends: it takes `k` samples, between 1 and `BUSY_MAX_POLLS`, records
`k` BUSY events and leaves `polls` at `k`; and the samples decide `k` and how it ends. -/
def Obligations.EveryBusyWaitEnds : Prop :=
  ∀ s : State, s.Quiet → (s.pstate = .refreshing ∨ s.pstate = .initializing) → 1 ≤ s.cfg.busyMaxPolls →
    ∃ k t es, exec .busyWait s = .next t ∧ 1 ≤ k ∧ k ≤ s.cfg.busyMaxPolls ∧ t.polls = k ∧
      t.trace = es.reverse ++ s.trace ∧ (busySamples es).length = k ∧ BusyEnds s k t.timedOut ∧
      ∀ k' late', BusyEnds s k' late' → k' = k ∧ late' = t.timedOut

/-- R150 to R156: from a panel state it is valid in, BusyWait sends FLG, polls until the first ready sample or the
ceiling, feeding before every sample and before the settle delay, and leaves the session closed with its poll count;
`timed_out` and the diagnostic tell the ceiling. Nothing else changes. -/
def Obligations.BusyWaitPollsAndSettles : Prop :=
  ∀ (s : State) (k : Nat) (late : Bool), s.Quiet → (s.pstate = .refreshing ∨ s.pstate = .initializing) →
    BusyEnds s k late →
    exec .busyWait s = .next { s.waited k late with
      lineDc := .driven 0
      lineCs := .driven 1
      seq := Seq.main
      trace := (evWaitOf s k).reverse ++ s.trace }

/-! ## The panel operations -/

/-- R126: Refresh sends DRF, waits, and the panel state ends `IDLE`, ready or at the ceiling. -/
def Obligations.RefreshSendsAndWaits : Prop :=
  ∀ (s : State) (k : Nat) (late : Bool), s.Quiet → s.pstate = .writing → BusyEnds s k late →
    exec .refresh s = .next { s.waited k late with
      pstate := .idle
      lineDc := .driven 0
      lineCs := .driven 1
      seq := Seq.main
      trace := (evC s.cfg.cmdDrf ++ evWaitOf s k).reverse ++ s.trace }

/-- R121: Initialize, in every panel state, drives the reset pulse and sends its five commands, with the wait after
power-on only when `INIT_BUSY_WAIT` is true, and the panel state ends `IDLE`. -/
def Obligations.InitializeConfiguresThePanel : Prop :=
  (∀ s : State, s.Quiet → s.cfg.initBusyWait = false →
    exec .initPanel s = .next { s with
      pstate := .idle
      lineRst := .driven 1
      lineDc := .driven 1
      lineCs := .driven 1
      seq := Seq.main
      trace := (evInit s.cfg []).reverse ++ s.trace }) ∧
  (∀ (s : State) (k : Nat) (late : Bool), s.Quiet → s.cfg.initBusyWait = true → BusyEnds s k late →
    exec .initPanel s = .next { s.waited k late with
      pstate := .idle
      lineRst := .driven 1
      lineDc := .driven 1
      lineCs := .driven 1
      seq := Seq.main
      trace := (evInit s.cfg (evWaitOf s k)).reverse ++ s.trace })

/-- R123: Clear sends the two constant planes and refreshes, whatever the store holds, and leaves the store. -/
def Obligations.ClearBlanksBothPlanes : Prop :=
  ∀ (s : State) (k : Nat) (late : Bool), s.Quiet → s.pstate = .idle → BusyEnds s k late →
    exec .clear s = .next { s.waited k late with
      pstate := .idle
      lineDc := .driven 0
      lineCs := .driven 1
      seq := Seq.main
      trace := (evPlanes s.cfg s.blankBlack s.blankRed ++ evWaitOf s k).reverse ++ s.trace }

/-- R124: Display sends the two stored planes unchanged and refreshes; the result is OK and the store is not
written. -/
def Obligations.DisplaySendsTheStoredFrame : Prop :=
  ∀ (s : State) (k : Nat) (late : Bool), s.Quiet → s.pstate = .idle → shapeOk s.cfg = true →
    BusyEnds s.frameRead k late →
    exec .display s = .next { s.frameRead.waited k late with
      pstate := .idle
      lastResult := .ok
      lineDc := .driven 0
      lineCs := .driven 1
      seq := Seq.main
      trace := (evPlanes s.cfg s.blackBytes s.redBytes ++ evWaitOf s.frameRead k).reverse ++ s.trace }

/-- R127: Sleep sends the reconfiguration, the power-off, waits, sends the deep-sleep command even when the wait ended
at the ceiling, and the panel state ends `SLEEPING`. -/
def Obligations.SleepEndsInDeepSleep : Prop :=
  ∀ (s : State) (k : Nat) (late : Bool), s.Quiet → s.pstate = .idle → BusyEnds s k late →
    exec .sleep s = .next { s.waited k late with
      pstate := .sleeping
      lineDc := if s.cfg.dslpData = [] then .driven 0 else .driven 1
      lineCs := .driven 1
      seq := Seq.main
      trace := (evSend s.cfg.cmdCdi [s.cfg.sleepCdiData] ++ evC s.cfg.cmdPof ++ evWaitOf s k
        ++ evSend s.cfg.cmdDslp s.cfg.dslpData).reverse ++ s.trace }

/-- R125, R202, R179: a frame of the wrong shape is rejected before anything is sent: the result says so, the panel
state stays, and Write-Screen still sends its "done" ack after the diagnostic. -/
def Obligations.BadFrameShapeSendsNothing : Prop :=
  ∀ s : State, s.Quiet → s.pstate = .idle → shapeOk s.cfg = false →
    exec .display s = .next { s with lastResult := .invalidFrameSize, seq := Seq.main } ∧
    exec .writeScreen s = .next (({ s with
      lastResult := .invalidFrameSize
      curOp := .none
      dstate := .await
      seq := Seq.main
      trace := (evAck s.cfg ++ evAck s.cfg).reverse ++ s.trace } : State).said
        (.frameSize s.cfg.planeSize (s.cfg.payloadLen - s.cfg.planeSize) :: diagAtDone s.cfg .writeScreen))

/-- R120 with the table of R26: in a panel state outside `VALID(op)` an operation takes the fault of R206 and records
no event; inside it the check changes nothing. -/
def Obligations.EntryCheckFaultsOrPasses : Prop :=
  (∀ p, validIn .initPanel p = true ∧ (validIn .clear p = true ↔ p = .idle) ∧
    (validIn .display p = true ↔ p = .idle) ∧ (validIn .refresh p = true ↔ p = .writing) ∧
    (validIn .sleep p = true ↔ p = .idle) ∧
    (validIn .busyWait p = true ↔ p = .refreshing ∨ p = .initializing)) ∧
  (∀ (op : PanelOp) (s : State), s.Quiet → validIn op s.pstate = false →
    exec op.instr s = .next { s with
      fault := some ⟨0x04, op, s.pstate⟩
      dstate := .faulted
      seq := Seq.start (.instr op.instr) }) ∧
  (∀ (op : PanelOp) (s : State), (instrCode s.cfg op.instr).head? = some (.enter op) ∧
    (validIn op s.pstate = true → (Micro.enter op).exec s = .go s))

/-- R179, R205, R206: Write-Screen and Clear-Screen outside `IDLE` have sent the "accepted" ack and nothing more when
they fault; a SLEEP request outside `IDLE` sends nothing. The operation stays, at its callee's entry check. -/
def Obligations.CommandFaultsOutsideIdle : Prop :=
  ∀ s : State, s.Quiet → s.pstate ≠ .idle →
    exec .writeScreen s = .next { s with
      curOp := .writeScreen
      dstate := .faulted
      fault := some ⟨0x04, .display, s.pstate⟩
      seq := ⟨.instr .writeScreen, 1, [⟨.instr .display, 0⟩]⟩
      trace := evAck s.cfg ++ s.trace } ∧
    exec .clearScreen s = .next { s with
      curOp := .clearScreen
      dstate := .faulted
      fault := some ⟨0x04, .clear, s.pstate⟩
      seq := ⟨.instr .clearScreen, 1, [⟨.instr .clear, 0⟩]⟩
      trace := evAck s.cfg ++ s.trace } ∧
    exec .ctlSleep s = .next { s with
      ctlReq := none
      curOp := .ctlSleep
      dstate := .faulted
      fault := some ⟨0x04, .sleep, s.pstate⟩
      seq := ⟨.instr .ctlSleep, 0, [⟨.instr .sleep, 0⟩]⟩ }

/-! ## The host commands -/

/-- R172: with its whole payload at hand Send-Buffer stores every byte as received, in every panel state, between its
two acks, and touches nothing of the panel; after it every cell of the store is written. -/
def Obligations.SendBufferStoresThePayload : Prop :=
  ∀ (s : State) (ps : List Byte) (rest : List LinkSlot), s.Quiet → ps.length = s.cfg.payloadLen →
    s.rx = ps.map LinkSlot.byte ++ rest →
    ∃ f : Store, (∀ i, i < s.cfg.payloadLen → Store.read f i = ps[i]?) ∧
      (∀ i, s.cfg.payloadLen ≤ i → Store.read f i = Store.read s.fb i) ∧
      (Memory.wf s.fb = true → Memory.wf f = true) ∧
      exec .sendBuffer s = .next (({ s with
        fb := f
        rxIdx := s.cfg.payloadLen
        rx := rest
        held := ps.getLast?.getD s.held
        curOp := .none
        dstate := .await
        seq := Seq.main
        trace := (evAck s.cfg ++ ps.map Event.rx ++ evAck s.cfg).reverse ++ s.trace } : State).said
          (diagAtDone s.cfg .sendBuffer))

/-- R180: when the payload stops short, the bytes that came are stored, the other cells keep what they held, and the
block is in `RECV`, feeding: neither an error nor a fault. -/
def Obligations.ShortPayloadLeavesTheBlockReceiving : Prop :=
  ∀ (s : State) (ps : List Byte) (rest : List LinkSlot), s.Quiet → ps.length < s.cfg.payloadLen →
    s.rx = ps.map LinkSlot.byte ++ rest → NoByte rest →
    ∃ f : Store, (∀ i, i < ps.length → Store.read f i = ps[i]?) ∧
      (∀ i, ps.length ≤ i → Store.read f i = Store.read s.fb i) ∧
      exec .sendBuffer s = .next { s with
        fb := f
        rxIdx := ps.length
        rx := rest.tail
        held := ps.getLast?.getD s.held
        curOp := .sendBuffer
        dstate := .recv
        seq := Seq.receiving ps.length
        trace := (evAck s.cfg ++ ps.map Event.rx ++ [Event.feed]).reverse ++ s.trace }

/-- R22, R172: a block that stands in the payload loop with `n` bytes stored takes the other bytes when they come and
completes the command: the rest of the store, and the "done" ack. R180: with too few of them, or none, it stores those
that came and stands in the loop again, in the dispatcher state it was in, having fed. -/
def Obligations.InterruptedPayloadIsCompleted : Prop :=
  (∀ (s : State) (n : Nat) (ps : List Byte) (rest : List LinkSlot), s.cfg.wf = true → s.dstate ≠ .faulted →
    s.Quiet → s.seq = Seq.receiving n → s.rxIdx = n →
    n + ps.length = s.cfg.payloadLen → s.rx = ps.map LinkSlot.byte ++ rest →
    ∃ f : Store, (∀ i, i < n → Store.read f i = Store.read s.fb i) ∧
      (∀ i, n ≤ i → i < s.cfg.payloadLen → Store.read f i = ps[i - n]?) ∧
      (∀ i, s.cfg.payloadLen ≤ i → Store.read f i = Store.read s.fb i) ∧
      (Memory.wf s.fb = true → Memory.wf f = true) ∧
      step s = .next (({ s with
        fb := f
        rxIdx := s.cfg.payloadLen
        rx := rest
        held := ps.getLast?.getD s.held
        curOp := .none
        dstate := .await
        seq := Seq.main
        trace := (ps.map Event.rx ++ evAck s.cfg).reverse ++ s.trace } : State).said (diagAtDone s.cfg s.curOp))) ∧
  (∀ (s : State) (n : Nat) (ps : List Byte) (rest : List LinkSlot), s.cfg.wf = true → s.dstate ≠ .faulted →
    s.Quiet → s.seq = Seq.receiving n → s.rxIdx = n →
    n + ps.length < s.cfg.payloadLen → s.rx = ps.map LinkSlot.byte ++ rest → NoByte rest →
    ∃ f : Store, (∀ i, n ≤ i → i < n + ps.length → Store.read f i = ps[i - n]?) ∧
      (∀ i, i < n ∨ n + ps.length ≤ i → Store.read f i = Store.read s.fb i) ∧
      (Memory.wf s.fb = true → Memory.wf f = true) ∧
      step s = .next { s with
        fb := f
        rxIdx := n + ps.length
        rx := rest.tail
        held := ps.getLast?.getD s.held
        seq := Seq.receiving (n + ps.length)
        trace := (ps.map Event.rx ++ [Event.feed]).reverse ++ s.trace })

/-- R173: Write-Screen is the ack, Display of the store and the ack; no byte is read from the link. -/
def Obligations.WriteScreenDisplaysTheStore : Prop :=
  ∀ (s : State) (k : Nat) (late : Bool), s.Quiet → s.pstate = .idle → shapeOk s.cfg = true →
    BusyEnds s.frameRead k late →
    exec .writeScreen s = .next (({ s.frameRead.waited k late with
      pstate := .idle
      lastResult := .ok
      curOp := .none
      dstate := .await
      lineDc := .driven 0
      lineCs := .driven 1
      seq := Seq.main
      trace := (evAck s.cfg ++ evPlanes s.cfg s.blackBytes s.redBytes ++ evWaitOf s.frameRead k
        ++ evAck s.cfg).reverse ++ s.trace } : State).said (diagAtDone s.cfg .writeScreen))

/-- R174: Clear-Screen is the ack, Clear and the ack. -/
def Obligations.ClearScreenClears : Prop :=
  ∀ (s : State) (k : Nat) (late : Bool), s.Quiet → s.pstate = .idle → BusyEnds s k late →
    exec .clearScreen s = .next (({ s.waited k late with
      pstate := .idle
      curOp := .none
      dstate := .await
      lineDc := .driven 0
      lineCs := .driven 1
      seq := Seq.main
      trace := (evAck s.cfg ++ evPlanes s.cfg s.blankBlack s.blankRed ++ evWaitOf s k
        ++ evAck s.cfg).reverse ++ s.trace } : State).said (diagAtDone s.cfg .clearScreen))

/-- R177: a control request is cleared and performed, with no ack: INIT in every panel state, SLEEP in `IDLE`. -/
def Obligations.ControlRequestsArePerformed : Prop :=
  (∀ s : State, s.Quiet → s.cfg.initBusyWait = false →
    exec .ctlInit s = .next { s with
      ctlReq := none
      curOp := .none
      dstate := .await
      pstate := .idle
      lineRst := .driven 1
      lineDc := .driven 1
      lineCs := .driven 1
      seq := Seq.main
      trace := (evInit s.cfg []).reverse ++ s.trace }) ∧
  (∀ (s : State) (k : Nat) (late : Bool), s.Quiet → s.cfg.initBusyWait = true → BusyEnds s k late →
    exec .ctlInit s = .next { s.waited k late with
      ctlReq := none
      curOp := .none
      dstate := .await
      pstate := .idle
      lineRst := .driven 1
      lineDc := .driven 1
      lineCs := .driven 1
      seq := Seq.main
      trace := (evInit s.cfg (evWaitOf s k)).reverse ++ s.trace }) ∧
  (∀ (s : State) (k : Nat) (late : Bool), s.Quiet → s.pstate = .idle → BusyEnds s k late →
    exec .ctlSleep s = .next { s.waited k late with
      ctlReq := none
      curOp := .none
      dstate := .await
      pstate := .sleeping
      lineDc := if s.cfg.dslpData = [] then .driven 0 else .driven 1
      lineCs := .driven 1
      seq := Seq.main
      trace := (evSend s.cfg.cmdCdi [s.cfg.sleepCdiData] ++ evC s.cfg.cmdPof ++ evWaitOf s k
        ++ evSend s.cfg.cmdDslp s.cfg.dslpData).reverse ++ s.trace })

/-- R175, R204: an unknown opcode makes one call of `Diag` with its byte, and does nothing else: no ack, no panel
operation, no further byte consumed. -/
def Obligations.UnknownOpcodeIsOnlyLogged : Prop :=
  ∀ (s : State) (op : Byte), s.Quiet →
    exec (.unknown op) s = .next { s.said [.unknownOpcode op] with seq := Seq.main }

/-- R86, R176: `Ack()` sends the one byte `ACK_BYTE` in `ACK_MODE = ACK` and nothing in SILENT; under SILENT the "done"
point is the diagnostic DONE with `cur_op`. -/
def Obligations.AckFollowsTheConvention : Prop :=
  ∀ s : State, s.Quiet →
    (s.cfg.ackMode = .ack →
      exec .ack s = .next { s with seq := Seq.main, trace := .tx s.cfg.ackByte :: s.trace } ∧
      ∀ p, walk p (doneCode s.cfg) s = .done { s with trace := .tx s.cfg.ackByte :: s.trace }) ∧
    (s.cfg.ackMode = .silent →
      exec .ack s = .next { s with seq := Seq.main } ∧
      ∀ p, walk p (doneCode s.cfg) s = .done (s.said [.done s.curOp]))

/-- R86, R172 to R176: on the host link a command that completes has sent the ack byte twice, one that has not
completed has sent it once, and no other instruction but ACK sends a byte; in SILENT none does. -/
def Obligations.AckBytesPerCommand : Prop :=
  ∀ (i : Instr) (s t : State) (es : List Event), s.Quiet → exec i s = .next t →
    t.trace = es.reverse ++ s.trace →
    (i = .sendBuffer ∨ i = .writeScreen ∨ i = .clearScreen →
      hostTx es = if s.cfg.ackMode = .silent then []
        else if t.seq = Seq.main then [s.cfg.ackByte, s.cfg.ackByte] else [s.cfg.ackByte]) ∧
    (i ≠ .sendBuffer → i ≠ .writeScreen → i ≠ .clearScreen → i ≠ .ack → hostTx es = [])

/-- R183: `SEND_BUFFER p; WRITE_SCREEN` sends the panel the bytes of `p`, unchanged and in order, the first
`PLANE_SIZE` under DTM1 and the others under DTM2, then the refresh. -/
def Obligations.StoredFrameIsShownAsReceived : Prop :=
  ∀ (s : State) (ps : List Byte) (rest : List LinkSlot), s.cfg.wf = true → s.dstate ≠ .faulted →
    s.seq.op = .main → s.Quiet → s.ctlReq = none → s.pstate = .idle → ps.length = s.cfg.payloadLen →
    s.rx = .byte s.cfg.opSendBuffer :: (ps.map LinkSlot.byte ++ .byte s.cfg.opWriteScreen :: rest) →
    ∃ t, step s = .next t ∧ ∀ k late, BusyEnds t k late →
      ∃ u, step t = .next u ∧ u.pstate = .idle ∧
        u.trace = (.rx s.cfg.opSendBuffer :: evAck s.cfg ++ ps.map Event.rx ++ evAck s.cfg
          ++ .rx s.cfg.opWriteScreen :: evAck s.cfg
          ++ evSend s.cfg.cmdDtm1 (ps.take s.cfg.planeSize)
          ++ evSend s.cfg.cmdDtm2 (ps.drop s.cfg.planeSize)
          ++ evC s.cfg.cmdDrf ++ evWaitOf t k ++ evAck s.cfg).reverse ++ s.trace

/-- R129: Clear and then Display end in `IDLE` and "issued exactly two refresh commands total", however the two waits
end. That no two panel commands share a byte is a premise (log entry 15). -/
def Obligations.ClearThenDisplayRefreshesTwice : Prop :=
  ∀ s : State, s.Quiet → s.cfg.wf = true → s.cfg.PanelDistinct → s.pstate = .idle →
    ∃ t u es, exec .clear s = .next t ∧ exec .display t = .next u ∧ u.pstate = .idle ∧
      u.trace = es.reverse ++ s.trace ∧ commandCount es s.cfg.cmdDrf = 2

/-- R128: how many framed bytes each operation sends, however its wait ends. -/
def Obligations.FramedBytesPerOperation : Prop :=
  ∀ (s t : State) (es : List Event), s.Quiet → s.cfg.wf = true → t.trace = es.reverse ++ s.trace →
    (s.cfg.initBusyWait = false → exec .initPanel s = .next t → (panelStream .undriven es).length = 13) ∧
    (s.pstate = .idle → exec .clear s = .next t →
      (panelStream .undriven es).length = 4 + 2 * s.cfg.planeSize) ∧
    (s.pstate = .idle → exec .display s = .next t →
      (panelStream .undriven es).length = 4 + 2 * s.cfg.planeSize) ∧
    (s.pstate = .writing → exec .refresh s = .next t → (panelStream .undriven es).length = 2) ∧
    (s.pstate = .idle → exec .sleep s = .next t →
      (panelStream .undriven es).length = 5 + s.cfg.dslpData.length)

/-! ## Whole-machine rules -/

/-- R102, R105, R159, R31: whatever an instruction records, every byte is framed and nothing interleaves, every busy
sample comes right after a feed, every delay has a feed of its own before it, and the watchdog is not armed again. -/
def Obligations.EveryTraceIsFramedAndFed : Prop :=
  ∀ (i : Instr) (s t : State), s.Quiet → exec i s = .next t →
    ∃ es, t.trace = es.reverse ++ s.trace ∧ framed es = true ∧ fedPolls false es = true ∧
      fedDelays false es = true ∧ Event.arm ∉ es

/-- R66, R170: only Send-Buffer writes the store, and no other instruction reads a byte from the link while it runs. -/
def Obligations.OnlySendBufferReceivesAndStores : Prop :=
  ∀ (i : Instr) (s t : State), s.Quiet → i ≠ .sendBuffer → exec i s = .next t →
    (∀ a, Store.read t.fb a = Store.read s.fb a) ∧ t.fb = s.fb ∧ t.rx = s.rx ∧ t.rxIdx = s.rxIdx

/-- R25: every write of `pstate` is an edge of the table: an elementary step that is no such write keeps it, and the
writes of each operation, from any panel state its entry check passes, follow the edges; so do those of boot. -/
def Obligations.PanelStateFollowsTheEdges : Prop :=
  (∀ (m : Micro) (s t : State), m.exec s = .go t →
    (∀ p, m = .setPState p → t.pstate = p) ∧ ((∀ p, m ≠ .setPState p) → t.pstate = s.pstate)) ∧
  (∀ (c : Cfg) (i : Instr) (p : PState), (∀ op, entryOp i = some op → validIn op p = true) →
    edgesFrom p (pstateWrites (instrCode c i)) = true) ∧
  (∀ (c : Cfg) (p : PState), edgesFrom p (pstateWrites (bootCode c)) = true)

/-- R25, R104: while the panel sleeps, no instruction but Initialize, by itself or for an INIT request, takes it out of
`SLEEPING`, whatever the environment does short of a reset. -/
def Obligations.OnlyInitializeWakesThePanel : Prop :=
  ∀ (i : Instr) (s t : State), i ≠ .initPanel → i ≠ .ctlInit → s.pstate = .sleeping → exec i s = .next t →
    t.pstate = .sleeping ∨ ∃ (u : State) (cause : ResetCause), t = u.resetTo cause

/-- R5: CFG "never changes while it runs". -/
def Obligations.StepKeepsTheConfiguration : Prop :=
  ∀ s t : State, step s = .next t → t.cfg = s.cfg

/-- R61, R158: a machine that was built answers a next state at every step, from every state. -/
def Obligations.BuiltMachineAlwaysSteps : Prop :=
  ∀ s : State, s.cfg.wf = true → ∃ t, step s = .next t

/-- R170, R205: a block that the environment leaves alone stays in its dispatch cycle, whatever the link brings: between
two cycles with the panel `IDLE` or `SLEEPING`, in `RECV` at the reception of a payload byte, or in `FAULTED` by an
operation called while the panel sleeps, from which only a reset leads; and it faults only while the panel sleeps. -/
def Obligations.DispatchCycleEndsSettled : Prop :=
  ∀ s t : State, s.InCycle → step s = .next t →
    t.InCycle ∧ (t.dstate = .faulted → s.pstate = .sleeping) ∧ (t.dstate = .recv → t.pstate = s.pstate)

/-- A step that the environment ends before a primitive loses nothing: the next step goes on to where the whole step
would have ended (the model's own pause, log entry 6; R22). So of an instruction; and of a step that begins an
instruction or boot, or takes the next input in the forever loop, however many pauses divide it. -/
def Obligations.PausedOperationGoesOn : Prop :=
  (∀ (i : Instr) (s t u : State) (n : Nat), s.cfg.wf = true → s.dstate ≠ .faulted → s.Quiet →
    exec i s = .next u → exec i { s with env := List.replicate n .quiet ++ [.pause] } = .next t →
    t.env = [] → step t = .next u) ∧
  (∀ (s t u : State) (ns : List Nat), s.cfg.wf = true → s.Quiet →
    (s.seq = Seq.start s.seq.op ∨ s.seq.op = .main) → step s = .next u → PausedThrough ns s t → step t = .next u)

/-- R63: the pixels of a plane are distinct bits of cells inside the plane. -/
def Obligations.PixelsAreDistinctBits : Prop :=
  ∀ (c : Cfg) (p : Plane) (x y x' y' : Nat), x < c.width → y < c.height → x' < c.width → y' < c.height →
    planeBase c p ≤ byteIndex c p x y ∧ byteIndex c p x y < planeBase c p + c.planeSize ∧ pixelBit x ≤ 7 ∧
    (byteIndex c p x y = byteIndex c p x' y' → pixelBit x = pixelBit x' → x = x' ∧ y = y')

/-- R46: "At most one request is pending at a time; a second request while one is pending is lost", and in a state
that takes none it waits. -/
def Obligations.SecondRequestIsLost : Prop :=
  ∀ (s : State) (q : CtlReq) (es : List EnvEvent), s.env = .request q :: es →
    (s.ctlReq = none → s.moment = .pass { s with env := es, ctlReq := some q }) ∧
    (∀ r, s.ctlReq = some r → s.moment = .pass { s with env := es, ctlReq := some r })

/-- R178: "A control request never interrupts RECV or EXEC: it stays pending until the cycle returns to AWAIT". A
request that comes before any primitive of any instruction, or of what is left of one or of boot, changes nothing but
that it pends; what the block had been doing goes on to the same end. -/
def Obligations.RequestNeverInterrupts : Prop :=
  (∀ (i : Instr) (s t : State) (n : Nat) (q : CtlReq), s.Quiet → exec i s = .next t →
    exec i { s with env := List.replicate (n + 1) .quiet } = .next t →
    exec i { s with env := List.replicate n .quiet ++ [.request q] } = .next (t.asked q)) ∧
  (∀ (s t : State) (n : Nat) (q : CtlReq), s.cfg.wf = true → s.dstate ≠ .faulted → s.seq.op ≠ .main → s.Quiet →
    step s = .next t → step { s with env := List.replicate (n + 1) .quiet } = .next t →
    step { s with env := List.replicate n .quiet ++ [.request q] } = .next (t.asked q))

/-- R8, R215: "no rule reads the stream": whatever the diagnostic trace holds, a step does the same to everything else;
and a call of `Diag`, its line emitted or dropped, or an optional line, changes that trace alone. -/
def Obligations.NothingReadsTheDiagnostics : Prop :=
  (∀ (s t : State) (ds : List Diag), step s = .next t →
    ∃ ds', step { s with diag := ds } = .next { t with diag := ds' }) ∧
  (∀ (s : State) (d : Diag), s.diagnose d = { s with diag := d :: s.diag, diagCalls := s.diagCalls + 1 } ∨
    s.diagnose d = { s with diagCalls := s.diagCalls + 1 }) ∧
  (∀ (s : State) (ls : List Chatter) (es : List EnvEvent), s.env = .lines ls :: es →
    ∃ ds, s.moment = .pass { s with env := es, diag := ds ++ s.diag })

/-! ## Reset and boot -/

/-- R49: after either reset every field of R20 takes the value of the table, and no request is pending; the state the
machine starts in is that of a power-on reset. -/
def Obligations.ResetValuesOfEveryField : Prop :=
  (∀ (s : State) (cause : ResetCause), ∃ t, t = s.resetTo cause ∧
    t.dstate = .boot ∧ t.pstate = .unpowered ∧ (∀ i, Store.read t.fb i = none) ∧ t.rxIdx = 0 ∧ t.curOp = .none ∧
    t.bwActive = false ∧ t.polls = 0 ∧ t.timedOut = false ∧ t.wdtArmed = false ∧ t.lineCs = .undriven ∧
    t.lineDc = .undriven ∧ t.lineRst = .undriven ∧ t.fault = none ∧ t.lastResult = .ok ∧ t.resetCause = cause ∧
    t.seq = Seq.start .boot ∧ t.ctlReq = none) ∧
  State.reset.resetTo .por = State.reset

/-- R209, R230: a reset takes over before any primitive of any operation, wherever it comes: where a step of the block
left alone runs at least `n + 1` primitives, a reset due before the last of them gives the reset state of its cause (POR
if both come together) at once, with the inputs the step had not yet consumed and what it had recorded by then, as
ending the step at that place shows them (log entries 6 and 22). -/
def Obligations.ResetTakesOverAnywhere : Prop :=
  ∀ (s u : State) (n : Nat) (e : EnvEvent) (es : List EnvEvent) (cause : ResetCause), s.cfg.wf = true →
    (e = .por ∧ cause = .por ∨ e = .wdtReset ∧ cause = .wdt ∨ e = .bothResets ∧ cause = .por) →
    s.env = List.replicate n .quiet ++ e :: es →
    step { s with env := List.replicate (n + 1) .quiet } = .next u → u.env = [] →
    ∃ v : State, step { s with env := List.replicate n .quiet ++ [.pause] } = .next v ∧ v.env = [] ∧
      v.cfg = s.cfg ∧ v.rx <:+ s.rx ∧ v.busyIn <:+ s.busyIn ∧ s.trace <:+ v.trace ∧
      step s = .next ({ v with env := es }.resetTo cause)

/-- R209, R230: in the forever loop, or in `FAULTED`, a reset that comes is taken at once. -/
def Obligations.ResetIsTakenAtOnceWhileWaiting : Prop :=
  ∀ (s : State) (es : List EnvEvent), s.cfg.wf = true → (s.dstate = .faulted ∨ s.seq.op = .main) →
    (s.env = .por :: es → step s = .next ({ s with env := es }.resetTo .por)) ∧
    (s.env = .wdtReset :: es → step s = .next ({ s with env := es }.resetTo .wdt)) ∧
    (s.env = .bothResets :: es → step s = .next ({ s with env := es }.resetTo .por))

/-- R232: the boot sequence arms the watchdog, runs Initialize and enters `AWAIT`; it sends nothing to the host. -/
def Obligations.BootArmsAndInitializes : Prop :=
  (∀ s : State, s.cfg.wf = true → s.dstate ≠ .faulted → s.Quiet → s.seq = Seq.start .boot →
    s.cfg.initBusyWait = false →
    step s = .next { s with
      dstate := .await
      pstate := .idle
      wdtArmed := true
      lineRst := .driven 1
      lineDc := .driven 1
      lineCs := .driven 1
      seq := Seq.main
      trace := (.arm :: evInit s.cfg []).reverse ++ s.trace }) ∧
  (∀ (s : State) (k : Nat) (late : Bool), s.cfg.wf = true → s.dstate ≠ .faulted → s.Quiet →
    s.seq = Seq.start .boot → s.cfg.initBusyWait = true → BusyEnds s k late →
    step s = .next { s.waited k late with
      dstate := .await
      pstate := .idle
      wdtArmed := true
      lineRst := .driven 1
      lineDc := .driven 1
      lineCs := .driven 1
      seq := Seq.main
      trace := (.arm :: evInit s.cfg (evWaitOf s k)).reverse ++ s.trace })

/-- The invariant holds after reset, for the build the model chose (log entries 1 to 4). -/
def Obligations.ResetMeetsTheInvariant : Prop := State.reset.Inv

/-- Every step keeps the invariant: the store's canonical form and bounds (R27), the ranges of the counters (R20, R28,
R30), a fault record exactly in `FAULTED` and of the form R205 gives it (R33), the watchdog armed exactly from the first
step of boot on (R31). -/
def Obligations.StepKeepsTheInvariant : Prop :=
  ∀ s t : State, s.Inv → step s = .next t → t.Inv
end

