-- ==== Sys2Proof/Laws/State.lean ====
section
/-! SUPPORT. What each update of the state leaves in each field: one lemma per field and update, so that no later proof
unfolds a record update. -/

namespace Sys2Proof.Machine

/-! ### `State.emit` -/

@[simp] theorem State.emit_dstate (s : State) (e : Event) : (s.emit e).dstate = s.dstate := rfl
@[simp] theorem State.emit_pstate (s : State) (e : Event) : (s.emit e).pstate = s.pstate := rfl
@[simp] theorem State.emit_fb (s : State) (e : Event) : (s.emit e).fb = s.fb := rfl
@[simp] theorem State.emit_rxIdx (s : State) (e : Event) : (s.emit e).rxIdx = s.rxIdx := rfl
@[simp] theorem State.emit_curOp (s : State) (e : Event) : (s.emit e).curOp = s.curOp := rfl
@[simp] theorem State.emit_bwActive (s : State) (e : Event) : (s.emit e).bwActive = s.bwActive := rfl
@[simp] theorem State.emit_polls (s : State) (e : Event) : (s.emit e).polls = s.polls := rfl
@[simp] theorem State.emit_timedOut (s : State) (e : Event) : (s.emit e).timedOut = s.timedOut := rfl
@[simp] theorem State.emit_wdtArmed (s : State) (e : Event) : (s.emit e).wdtArmed = s.wdtArmed := rfl
@[simp] theorem State.emit_lineCs (s : State) (e : Event) : (s.emit e).lineCs = s.lineCs := rfl
@[simp] theorem State.emit_lineDc (s : State) (e : Event) : (s.emit e).lineDc = s.lineDc := rfl
@[simp] theorem State.emit_lineRst (s : State) (e : Event) : (s.emit e).lineRst = s.lineRst := rfl
@[simp] theorem State.emit_fault (s : State) (e : Event) : (s.emit e).fault = s.fault := rfl
@[simp] theorem State.emit_lastResult (s : State) (e : Event) : (s.emit e).lastResult = s.lastResult := rfl
@[simp] theorem State.emit_resetCause (s : State) (e : Event) : (s.emit e).resetCause = s.resetCause := rfl
@[simp] theorem State.emit_seq (s : State) (e : Event) : (s.emit e).seq = s.seq := rfl
@[simp] theorem State.emit_ctlReq (s : State) (e : Event) : (s.emit e).ctlReq = s.ctlReq := rfl
@[simp] theorem State.emit_rx (s : State) (e : Event) : (s.emit e).rx = s.rx := rfl
@[simp] theorem State.emit_busyIn (s : State) (e : Event) : (s.emit e).busyIn = s.busyIn := rfl
@[simp] theorem State.emit_firstIn (s : State) (e : Event) : (s.emit e).firstIn = s.firstIn := rfl
@[simp] theorem State.emit_env (s : State) (e : Event) : (s.emit e).env = s.env := rfl
@[simp] theorem State.emit_trace (s : State) (e : Event) : (s.emit e).trace = e :: s.trace := rfl
@[simp] theorem State.emit_diag (s : State) (e : Event) : (s.emit e).diag = s.diag := rfl
@[simp] theorem State.emit_diagCalls (s : State) (e : Event) : (s.emit e).diagCalls = s.diagCalls := rfl
@[simp] theorem State.emit_held (s : State) (e : Event) : (s.emit e).held = s.held := rfl
@[simp] theorem State.emit_draws (s : State) (e : Event) : (s.emit e).draws = s.draws := rfl
@[simp] theorem State.emit_cfg (s : State) (e : Event) : (s.emit e).cfg = s.cfg := rfl

/-! ### `State.record` -/

@[simp] theorem State.record_dstate (s : State) (es : List Event) : (s.record es).dstate = s.dstate := rfl
@[simp] theorem State.record_pstate (s : State) (es : List Event) : (s.record es).pstate = s.pstate := rfl
@[simp] theorem State.record_fb (s : State) (es : List Event) : (s.record es).fb = s.fb := rfl
@[simp] theorem State.record_rxIdx (s : State) (es : List Event) : (s.record es).rxIdx = s.rxIdx := rfl
@[simp] theorem State.record_curOp (s : State) (es : List Event) : (s.record es).curOp = s.curOp := rfl
@[simp] theorem State.record_bwActive (s : State) (es : List Event) : (s.record es).bwActive = s.bwActive := rfl
@[simp] theorem State.record_polls (s : State) (es : List Event) : (s.record es).polls = s.polls := rfl
@[simp] theorem State.record_timedOut (s : State) (es : List Event) : (s.record es).timedOut = s.timedOut := rfl
@[simp] theorem State.record_wdtArmed (s : State) (es : List Event) : (s.record es).wdtArmed = s.wdtArmed := rfl
@[simp] theorem State.record_lineCs (s : State) (es : List Event) : (s.record es).lineCs = s.lineCs := rfl
@[simp] theorem State.record_lineDc (s : State) (es : List Event) : (s.record es).lineDc = s.lineDc := rfl
@[simp] theorem State.record_lineRst (s : State) (es : List Event) : (s.record es).lineRst = s.lineRst := rfl
@[simp] theorem State.record_fault (s : State) (es : List Event) : (s.record es).fault = s.fault := rfl
@[simp] theorem State.record_lastResult (s : State) (es : List Event) : (s.record es).lastResult = s.lastResult := rfl
@[simp] theorem State.record_resetCause (s : State) (es : List Event) : (s.record es).resetCause = s.resetCause := rfl
@[simp] theorem State.record_seq (s : State) (es : List Event) : (s.record es).seq = s.seq := rfl
@[simp] theorem State.record_ctlReq (s : State) (es : List Event) : (s.record es).ctlReq = s.ctlReq := rfl
@[simp] theorem State.record_rx (s : State) (es : List Event) : (s.record es).rx = s.rx := rfl
@[simp] theorem State.record_busyIn (s : State) (es : List Event) : (s.record es).busyIn = s.busyIn := rfl
@[simp] theorem State.record_firstIn (s : State) (es : List Event) : (s.record es).firstIn = s.firstIn := rfl
@[simp] theorem State.record_env (s : State) (es : List Event) : (s.record es).env = s.env := rfl
@[simp] theorem State.record_trace (s : State) (es : List Event) : (s.record es).trace = es.reverse ++ s.trace := rfl
@[simp] theorem State.record_diag (s : State) (es : List Event) : (s.record es).diag = s.diag := rfl
@[simp] theorem State.record_diagCalls (s : State) (es : List Event) : (s.record es).diagCalls = s.diagCalls := rfl
@[simp] theorem State.record_held (s : State) (es : List Event) : (s.record es).held = s.held := rfl
@[simp] theorem State.record_draws (s : State) (es : List Event) : (s.record es).draws = s.draws := rfl
@[simp] theorem State.record_cfg (s : State) (es : List Event) : (s.record es).cfg = s.cfg := rfl

/-! ### `State.diagnose` -/

@[simp] theorem State.diagnose_dstate (s : State) (d : Diag) : (s.diagnose d).dstate = s.dstate := rfl
@[simp] theorem State.diagnose_pstate (s : State) (d : Diag) : (s.diagnose d).pstate = s.pstate := rfl
@[simp] theorem State.diagnose_fb (s : State) (d : Diag) : (s.diagnose d).fb = s.fb := rfl
@[simp] theorem State.diagnose_rxIdx (s : State) (d : Diag) : (s.diagnose d).rxIdx = s.rxIdx := rfl
@[simp] theorem State.diagnose_curOp (s : State) (d : Diag) : (s.diagnose d).curOp = s.curOp := rfl
@[simp] theorem State.diagnose_bwActive (s : State) (d : Diag) : (s.diagnose d).bwActive = s.bwActive := rfl
@[simp] theorem State.diagnose_polls (s : State) (d : Diag) : (s.diagnose d).polls = s.polls := rfl
@[simp] theorem State.diagnose_timedOut (s : State) (d : Diag) : (s.diagnose d).timedOut = s.timedOut := rfl
@[simp] theorem State.diagnose_wdtArmed (s : State) (d : Diag) : (s.diagnose d).wdtArmed = s.wdtArmed := rfl
@[simp] theorem State.diagnose_lineCs (s : State) (d : Diag) : (s.diagnose d).lineCs = s.lineCs := rfl
@[simp] theorem State.diagnose_lineDc (s : State) (d : Diag) : (s.diagnose d).lineDc = s.lineDc := rfl
@[simp] theorem State.diagnose_lineRst (s : State) (d : Diag) : (s.diagnose d).lineRst = s.lineRst := rfl
@[simp] theorem State.diagnose_fault (s : State) (d : Diag) : (s.diagnose d).fault = s.fault := rfl
@[simp] theorem State.diagnose_lastResult (s : State) (d : Diag) : (s.diagnose d).lastResult = s.lastResult := rfl
@[simp] theorem State.diagnose_resetCause (s : State) (d : Diag) : (s.diagnose d).resetCause = s.resetCause := rfl
@[simp] theorem State.diagnose_seq (s : State) (d : Diag) : (s.diagnose d).seq = s.seq := rfl
@[simp] theorem State.diagnose_ctlReq (s : State) (d : Diag) : (s.diagnose d).ctlReq = s.ctlReq := rfl
@[simp] theorem State.diagnose_rx (s : State) (d : Diag) : (s.diagnose d).rx = s.rx := rfl
@[simp] theorem State.diagnose_busyIn (s : State) (d : Diag) : (s.diagnose d).busyIn = s.busyIn := rfl
@[simp] theorem State.diagnose_firstIn (s : State) (d : Diag) : (s.diagnose d).firstIn = s.firstIn := rfl
@[simp] theorem State.diagnose_env (s : State) (d : Diag) : (s.diagnose d).env = s.env := rfl
@[simp] theorem State.diagnose_trace (s : State) (d : Diag) : (s.diagnose d).trace = s.trace := rfl
@[simp] theorem State.diagnose_diag (s : State) (d : Diag) : (s.diagnose d).diag = if Config.lineEmitted s.diagCalls then d :: s.diag else s.diag := rfl
@[simp] theorem State.diagnose_diagCalls (s : State) (d : Diag) : (s.diagnose d).diagCalls = s.diagCalls + 1 := rfl
@[simp] theorem State.diagnose_held (s : State) (d : Diag) : (s.diagnose d).held = s.held := rfl
@[simp] theorem State.diagnose_draws (s : State) (d : Diag) : (s.diagnose d).draws = s.draws := rfl
@[simp] theorem State.diagnose_cfg (s : State) (d : Diag) : (s.diagnose d).cfg = s.cfg := rfl

/-! ### `State.said` -/

@[simp] theorem State.said_dstate (s : State) (ds : List Diag) : (s.said ds).dstate = s.dstate := by
  induction ds generalizing s with
  | nil => rfl
  | cons d ds ih => exact ih (s.diagnose d)
@[simp] theorem State.said_pstate (s : State) (ds : List Diag) : (s.said ds).pstate = s.pstate := by
  induction ds generalizing s with
  | nil => rfl
  | cons d ds ih => exact ih (s.diagnose d)
@[simp] theorem State.said_fb (s : State) (ds : List Diag) : (s.said ds).fb = s.fb := by
  induction ds generalizing s with
  | nil => rfl
  | cons d ds ih => exact ih (s.diagnose d)
@[simp] theorem State.said_rxIdx (s : State) (ds : List Diag) : (s.said ds).rxIdx = s.rxIdx := by
  induction ds generalizing s with
  | nil => rfl
  | cons d ds ih => exact ih (s.diagnose d)
@[simp] theorem State.said_curOp (s : State) (ds : List Diag) : (s.said ds).curOp = s.curOp := by
  induction ds generalizing s with
  | nil => rfl
  | cons d ds ih => exact ih (s.diagnose d)
@[simp] theorem State.said_bwActive (s : State) (ds : List Diag) : (s.said ds).bwActive = s.bwActive := by
  induction ds generalizing s with
  | nil => rfl
  | cons d ds ih => exact ih (s.diagnose d)
@[simp] theorem State.said_polls (s : State) (ds : List Diag) : (s.said ds).polls = s.polls := by
  induction ds generalizing s with
  | nil => rfl
  | cons d ds ih => exact ih (s.diagnose d)
@[simp] theorem State.said_timedOut (s : State) (ds : List Diag) : (s.said ds).timedOut = s.timedOut := by
  induction ds generalizing s with
  | nil => rfl
  | cons d ds ih => exact ih (s.diagnose d)
@[simp] theorem State.said_wdtArmed (s : State) (ds : List Diag) : (s.said ds).wdtArmed = s.wdtArmed := by
  induction ds generalizing s with
  | nil => rfl
  | cons d ds ih => exact ih (s.diagnose d)
@[simp] theorem State.said_lineCs (s : State) (ds : List Diag) : (s.said ds).lineCs = s.lineCs := by
  induction ds generalizing s with
  | nil => rfl
  | cons d ds ih => exact ih (s.diagnose d)
@[simp] theorem State.said_lineDc (s : State) (ds : List Diag) : (s.said ds).lineDc = s.lineDc := by
  induction ds generalizing s with
  | nil => rfl
  | cons d ds ih => exact ih (s.diagnose d)
@[simp] theorem State.said_lineRst (s : State) (ds : List Diag) : (s.said ds).lineRst = s.lineRst := by
  induction ds generalizing s with
  | nil => rfl
  | cons d ds ih => exact ih (s.diagnose d)
@[simp] theorem State.said_fault (s : State) (ds : List Diag) : (s.said ds).fault = s.fault := by
  induction ds generalizing s with
  | nil => rfl
  | cons d ds ih => exact ih (s.diagnose d)
@[simp] theorem State.said_lastResult (s : State) (ds : List Diag) : (s.said ds).lastResult = s.lastResult := by
  induction ds generalizing s with
  | nil => rfl
  | cons d ds ih => exact ih (s.diagnose d)
@[simp] theorem State.said_resetCause (s : State) (ds : List Diag) : (s.said ds).resetCause = s.resetCause := by
  induction ds generalizing s with
  | nil => rfl
  | cons d ds ih => exact ih (s.diagnose d)
@[simp] theorem State.said_seq (s : State) (ds : List Diag) : (s.said ds).seq = s.seq := by
  induction ds generalizing s with
  | nil => rfl
  | cons d ds ih => exact ih (s.diagnose d)
@[simp] theorem State.said_ctlReq (s : State) (ds : List Diag) : (s.said ds).ctlReq = s.ctlReq := by
  induction ds generalizing s with
  | nil => rfl
  | cons d ds ih => exact ih (s.diagnose d)
@[simp] theorem State.said_rx (s : State) (ds : List Diag) : (s.said ds).rx = s.rx := by
  induction ds generalizing s with
  | nil => rfl
  | cons d ds ih => exact ih (s.diagnose d)
@[simp] theorem State.said_busyIn (s : State) (ds : List Diag) : (s.said ds).busyIn = s.busyIn := by
  induction ds generalizing s with
  | nil => rfl
  | cons d ds ih => exact ih (s.diagnose d)
@[simp] theorem State.said_firstIn (s : State) (ds : List Diag) : (s.said ds).firstIn = s.firstIn := by
  induction ds generalizing s with
  | nil => rfl
  | cons d ds ih => exact ih (s.diagnose d)
@[simp] theorem State.said_env (s : State) (ds : List Diag) : (s.said ds).env = s.env := by
  induction ds generalizing s with
  | nil => rfl
  | cons d ds ih => exact ih (s.diagnose d)
@[simp] theorem State.said_trace (s : State) (ds : List Diag) : (s.said ds).trace = s.trace := by
  induction ds generalizing s with
  | nil => rfl
  | cons d ds ih => exact ih (s.diagnose d)
@[simp] theorem State.said_diagCalls (s : State) (ds : List Diag) : (s.said ds).diagCalls = s.diagCalls + ds.length := by
  induction ds generalizing s with
  | nil => rfl
  | cons d ds ih => exact (ih (s.diagnose d)).trans (by simp [Nat.add_assoc, Nat.add_comm 1])
@[simp] theorem State.said_held (s : State) (ds : List Diag) : (s.said ds).held = s.held := by
  induction ds generalizing s with
  | nil => rfl
  | cons d ds ih => exact ih (s.diagnose d)
@[simp] theorem State.said_draws (s : State) (ds : List Diag) : (s.said ds).draws = s.draws := by
  induction ds generalizing s with
  | nil => rfl
  | cons d ds ih => exact ih (s.diagnose d)
@[simp] theorem State.said_cfg (s : State) (ds : List Diag) : (s.said ds).cfg = s.cfg := by
  induction ds generalizing s with
  | nil => rfl
  | cons d ds ih => exact ih (s.diagnose d)
@[simp] theorem State.said_nil (s : State) : s.said [] = s := rfl
@[simp] theorem State.said_cons (s : State) (d : Diag) (ds : List Diag) : s.said (d :: ds) = (s.diagnose d).said ds := rfl

/-! ### `State.chatter` -/

@[simp] theorem State.chatter_dstate (s : State) (ls : List Chatter) : (s.chatter ls).dstate = s.dstate := by
  unfold State.chatter; split <;> rfl
@[simp] theorem State.chatter_pstate (s : State) (ls : List Chatter) : (s.chatter ls).pstate = s.pstate := by
  unfold State.chatter; split <;> rfl
@[simp] theorem State.chatter_fb (s : State) (ls : List Chatter) : (s.chatter ls).fb = s.fb := by
  unfold State.chatter; split <;> rfl
@[simp] theorem State.chatter_rxIdx (s : State) (ls : List Chatter) : (s.chatter ls).rxIdx = s.rxIdx := by
  unfold State.chatter; split <;> rfl
@[simp] theorem State.chatter_curOp (s : State) (ls : List Chatter) : (s.chatter ls).curOp = s.curOp := by
  unfold State.chatter; split <;> rfl
@[simp] theorem State.chatter_bwActive (s : State) (ls : List Chatter) : (s.chatter ls).bwActive = s.bwActive := by
  unfold State.chatter; split <;> rfl
@[simp] theorem State.chatter_polls (s : State) (ls : List Chatter) : (s.chatter ls).polls = s.polls := by
  unfold State.chatter; split <;> rfl
@[simp] theorem State.chatter_timedOut (s : State) (ls : List Chatter) : (s.chatter ls).timedOut = s.timedOut := by
  unfold State.chatter; split <;> rfl
@[simp] theorem State.chatter_wdtArmed (s : State) (ls : List Chatter) : (s.chatter ls).wdtArmed = s.wdtArmed := by
  unfold State.chatter; split <;> rfl
@[simp] theorem State.chatter_lineCs (s : State) (ls : List Chatter) : (s.chatter ls).lineCs = s.lineCs := by
  unfold State.chatter; split <;> rfl
@[simp] theorem State.chatter_lineDc (s : State) (ls : List Chatter) : (s.chatter ls).lineDc = s.lineDc := by
  unfold State.chatter; split <;> rfl
@[simp] theorem State.chatter_lineRst (s : State) (ls : List Chatter) : (s.chatter ls).lineRst = s.lineRst := by
  unfold State.chatter; split <;> rfl
@[simp] theorem State.chatter_fault (s : State) (ls : List Chatter) : (s.chatter ls).fault = s.fault := by
  unfold State.chatter; split <;> rfl
@[simp] theorem State.chatter_lastResult (s : State) (ls : List Chatter) : (s.chatter ls).lastResult = s.lastResult := by
  unfold State.chatter; split <;> rfl
@[simp] theorem State.chatter_resetCause (s : State) (ls : List Chatter) : (s.chatter ls).resetCause = s.resetCause := by
  unfold State.chatter; split <;> rfl
@[simp] theorem State.chatter_seq (s : State) (ls : List Chatter) : (s.chatter ls).seq = s.seq := by
  unfold State.chatter; split <;> rfl
@[simp] theorem State.chatter_ctlReq (s : State) (ls : List Chatter) : (s.chatter ls).ctlReq = s.ctlReq := by
  unfold State.chatter; split <;> rfl
@[simp] theorem State.chatter_rx (s : State) (ls : List Chatter) : (s.chatter ls).rx = s.rx := by
  unfold State.chatter; split <;> rfl
@[simp] theorem State.chatter_busyIn (s : State) (ls : List Chatter) : (s.chatter ls).busyIn = s.busyIn := by
  unfold State.chatter; split <;> rfl
@[simp] theorem State.chatter_firstIn (s : State) (ls : List Chatter) : (s.chatter ls).firstIn = s.firstIn := by
  unfold State.chatter; split <;> rfl
@[simp] theorem State.chatter_env (s : State) (ls : List Chatter) : (s.chatter ls).env = s.env := by
  unfold State.chatter; split <;> rfl
@[simp] theorem State.chatter_trace (s : State) (ls : List Chatter) : (s.chatter ls).trace = s.trace := by
  unfold State.chatter; split <;> rfl
@[simp] theorem State.chatter_diagCalls (s : State) (ls : List Chatter) : (s.chatter ls).diagCalls = s.diagCalls := by
  unfold State.chatter; split <;> rfl
@[simp] theorem State.chatter_held (s : State) (ls : List Chatter) : (s.chatter ls).held = s.held := by
  unfold State.chatter; split <;> rfl
@[simp] theorem State.chatter_draws (s : State) (ls : List Chatter) : (s.chatter ls).draws = s.draws := by
  unfold State.chatter; split <;> rfl
@[simp] theorem State.chatter_cfg (s : State) (ls : List Chatter) : (s.chatter ls).cfg = s.cfg := by
  unfold State.chatter; split <;> rfl

/-! ### `State.setLine` -/

@[simp] theorem State.setLine_dstate (s : State) (l : Line) (v : Bit) : (s.setLine l v).dstate = s.dstate := by cases l <;> rfl
@[simp] theorem State.setLine_pstate (s : State) (l : Line) (v : Bit) : (s.setLine l v).pstate = s.pstate := by cases l <;> rfl
@[simp] theorem State.setLine_fb (s : State) (l : Line) (v : Bit) : (s.setLine l v).fb = s.fb := by cases l <;> rfl
@[simp] theorem State.setLine_rxIdx (s : State) (l : Line) (v : Bit) : (s.setLine l v).rxIdx = s.rxIdx := by cases l <;> rfl
@[simp] theorem State.setLine_curOp (s : State) (l : Line) (v : Bit) : (s.setLine l v).curOp = s.curOp := by cases l <;> rfl
@[simp] theorem State.setLine_bwActive (s : State) (l : Line) (v : Bit) : (s.setLine l v).bwActive = s.bwActive := by cases l <;> rfl
@[simp] theorem State.setLine_polls (s : State) (l : Line) (v : Bit) : (s.setLine l v).polls = s.polls := by cases l <;> rfl
@[simp] theorem State.setLine_timedOut (s : State) (l : Line) (v : Bit) : (s.setLine l v).timedOut = s.timedOut := by cases l <;> rfl
@[simp] theorem State.setLine_wdtArmed (s : State) (l : Line) (v : Bit) : (s.setLine l v).wdtArmed = s.wdtArmed := by cases l <;> rfl
@[simp] theorem State.setLine_lineCs (s : State) (l : Line) (v : Bit) : (s.setLine l v).lineCs = if l = .cs then .driven v else s.lineCs := by cases l <;> rfl
@[simp] theorem State.setLine_lineDc (s : State) (l : Line) (v : Bit) : (s.setLine l v).lineDc = if l = .dc then .driven v else s.lineDc := by cases l <;> rfl
@[simp] theorem State.setLine_lineRst (s : State) (l : Line) (v : Bit) : (s.setLine l v).lineRst = if l = .rst then .driven v else s.lineRst := by cases l <;> rfl
@[simp] theorem State.setLine_fault (s : State) (l : Line) (v : Bit) : (s.setLine l v).fault = s.fault := by cases l <;> rfl
@[simp] theorem State.setLine_lastResult (s : State) (l : Line) (v : Bit) : (s.setLine l v).lastResult = s.lastResult := by cases l <;> rfl
@[simp] theorem State.setLine_resetCause (s : State) (l : Line) (v : Bit) : (s.setLine l v).resetCause = s.resetCause := by cases l <;> rfl
@[simp] theorem State.setLine_seq (s : State) (l : Line) (v : Bit) : (s.setLine l v).seq = s.seq := by cases l <;> rfl
@[simp] theorem State.setLine_ctlReq (s : State) (l : Line) (v : Bit) : (s.setLine l v).ctlReq = s.ctlReq := by cases l <;> rfl
@[simp] theorem State.setLine_rx (s : State) (l : Line) (v : Bit) : (s.setLine l v).rx = s.rx := by cases l <;> rfl
@[simp] theorem State.setLine_busyIn (s : State) (l : Line) (v : Bit) : (s.setLine l v).busyIn = s.busyIn := by cases l <;> rfl
@[simp] theorem State.setLine_firstIn (s : State) (l : Line) (v : Bit) : (s.setLine l v).firstIn = s.firstIn := by cases l <;> rfl
@[simp] theorem State.setLine_env (s : State) (l : Line) (v : Bit) : (s.setLine l v).env = s.env := by cases l <;> rfl
@[simp] theorem State.setLine_trace (s : State) (l : Line) (v : Bit) : (s.setLine l v).trace = .line l v :: s.trace := by cases l <;> rfl
@[simp] theorem State.setLine_diag (s : State) (l : Line) (v : Bit) : (s.setLine l v).diag = s.diag := by cases l <;> rfl
@[simp] theorem State.setLine_diagCalls (s : State) (l : Line) (v : Bit) : (s.setLine l v).diagCalls = s.diagCalls := by cases l <;> rfl
@[simp] theorem State.setLine_held (s : State) (l : Line) (v : Bit) : (s.setLine l v).held = s.held := by cases l <;> rfl
@[simp] theorem State.setLine_draws (s : State) (l : Line) (v : Bit) : (s.setLine l v).draws = s.draws := by cases l <;> rfl
@[simp] theorem State.setLine_cfg (s : State) (l : Line) (v : Bit) : (s.setLine l v).cfg = s.cfg := by cases l <;> rfl

/-! ### `State.spiWrite` -/

@[simp] theorem State.spiWrite_dstate (s : State) (b : Byte) : (s.spiWrite b).dstate = s.dstate := rfl
@[simp] theorem State.spiWrite_pstate (s : State) (b : Byte) : (s.spiWrite b).pstate = s.pstate := rfl
@[simp] theorem State.spiWrite_fb (s : State) (b : Byte) : (s.spiWrite b).fb = s.fb := rfl
@[simp] theorem State.spiWrite_rxIdx (s : State) (b : Byte) : (s.spiWrite b).rxIdx = s.rxIdx := rfl
@[simp] theorem State.spiWrite_curOp (s : State) (b : Byte) : (s.spiWrite b).curOp = s.curOp := rfl
@[simp] theorem State.spiWrite_bwActive (s : State) (b : Byte) : (s.spiWrite b).bwActive = s.bwActive := rfl
@[simp] theorem State.spiWrite_polls (s : State) (b : Byte) : (s.spiWrite b).polls = s.polls := rfl
@[simp] theorem State.spiWrite_timedOut (s : State) (b : Byte) : (s.spiWrite b).timedOut = s.timedOut := rfl
@[simp] theorem State.spiWrite_wdtArmed (s : State) (b : Byte) : (s.spiWrite b).wdtArmed = s.wdtArmed := rfl
@[simp] theorem State.spiWrite_lineCs (s : State) (b : Byte) : (s.spiWrite b).lineCs = s.lineCs := rfl
@[simp] theorem State.spiWrite_lineDc (s : State) (b : Byte) : (s.spiWrite b).lineDc = s.lineDc := rfl
@[simp] theorem State.spiWrite_lineRst (s : State) (b : Byte) : (s.spiWrite b).lineRst = s.lineRst := rfl
@[simp] theorem State.spiWrite_fault (s : State) (b : Byte) : (s.spiWrite b).fault = s.fault := rfl
@[simp] theorem State.spiWrite_lastResult (s : State) (b : Byte) : (s.spiWrite b).lastResult = s.lastResult := rfl
@[simp] theorem State.spiWrite_resetCause (s : State) (b : Byte) : (s.spiWrite b).resetCause = s.resetCause := rfl
@[simp] theorem State.spiWrite_seq (s : State) (b : Byte) : (s.spiWrite b).seq = s.seq := rfl
@[simp] theorem State.spiWrite_ctlReq (s : State) (b : Byte) : (s.spiWrite b).ctlReq = s.ctlReq := rfl
@[simp] theorem State.spiWrite_rx (s : State) (b : Byte) : (s.spiWrite b).rx = s.rx := rfl
@[simp] theorem State.spiWrite_busyIn (s : State) (b : Byte) : (s.spiWrite b).busyIn = s.busyIn := rfl
@[simp] theorem State.spiWrite_firstIn (s : State) (b : Byte) : (s.spiWrite b).firstIn = s.firstIn := rfl
@[simp] theorem State.spiWrite_env (s : State) (b : Byte) : (s.spiWrite b).env = s.env := rfl
@[simp] theorem State.spiWrite_trace (s : State) (b : Byte) : (s.spiWrite b).trace = .spi b :: s.trace := rfl
@[simp] theorem State.spiWrite_diag (s : State) (b : Byte) : (s.spiWrite b).diag = s.diag := rfl
@[simp] theorem State.spiWrite_diagCalls (s : State) (b : Byte) : (s.spiWrite b).diagCalls = s.diagCalls := rfl
@[simp] theorem State.spiWrite_held (s : State) (b : Byte) : (s.spiWrite b).held = s.held := rfl
@[simp] theorem State.spiWrite_draws (s : State) (b : Byte) : (s.spiWrite b).draws = s.draws := rfl
@[simp] theorem State.spiWrite_cfg (s : State) (b : Byte) : (s.spiWrite b).cfg = s.cfg := rfl

/-! ### `State.armWatchdog` -/

@[simp] theorem State.armWatchdog_dstate (s : State) : (s.armWatchdog).dstate = s.dstate := rfl
@[simp] theorem State.armWatchdog_pstate (s : State) : (s.armWatchdog).pstate = s.pstate := rfl
@[simp] theorem State.armWatchdog_fb (s : State) : (s.armWatchdog).fb = s.fb := rfl
@[simp] theorem State.armWatchdog_rxIdx (s : State) : (s.armWatchdog).rxIdx = s.rxIdx := rfl
@[simp] theorem State.armWatchdog_curOp (s : State) : (s.armWatchdog).curOp = s.curOp := rfl
@[simp] theorem State.armWatchdog_bwActive (s : State) : (s.armWatchdog).bwActive = s.bwActive := rfl
@[simp] theorem State.armWatchdog_polls (s : State) : (s.armWatchdog).polls = s.polls := rfl
@[simp] theorem State.armWatchdog_timedOut (s : State) : (s.armWatchdog).timedOut = s.timedOut := rfl
@[simp] theorem State.armWatchdog_wdtArmed (s : State) : (s.armWatchdog).wdtArmed = true := rfl
@[simp] theorem State.armWatchdog_lineCs (s : State) : (s.armWatchdog).lineCs = s.lineCs := rfl
@[simp] theorem State.armWatchdog_lineDc (s : State) : (s.armWatchdog).lineDc = s.lineDc := rfl
@[simp] theorem State.armWatchdog_lineRst (s : State) : (s.armWatchdog).lineRst = s.lineRst := rfl
@[simp] theorem State.armWatchdog_fault (s : State) : (s.armWatchdog).fault = s.fault := rfl
@[simp] theorem State.armWatchdog_lastResult (s : State) : (s.armWatchdog).lastResult = s.lastResult := rfl
@[simp] theorem State.armWatchdog_resetCause (s : State) : (s.armWatchdog).resetCause = s.resetCause := rfl
@[simp] theorem State.armWatchdog_seq (s : State) : (s.armWatchdog).seq = s.seq := rfl
@[simp] theorem State.armWatchdog_ctlReq (s : State) : (s.armWatchdog).ctlReq = s.ctlReq := rfl
@[simp] theorem State.armWatchdog_rx (s : State) : (s.armWatchdog).rx = s.rx := rfl
@[simp] theorem State.armWatchdog_busyIn (s : State) : (s.armWatchdog).busyIn = s.busyIn := rfl
@[simp] theorem State.armWatchdog_firstIn (s : State) : (s.armWatchdog).firstIn = s.firstIn := rfl
@[simp] theorem State.armWatchdog_env (s : State) : (s.armWatchdog).env = s.env := rfl
@[simp] theorem State.armWatchdog_trace (s : State) : (s.armWatchdog).trace = .arm :: s.trace := rfl
@[simp] theorem State.armWatchdog_diag (s : State) : (s.armWatchdog).diag = s.diag := rfl
@[simp] theorem State.armWatchdog_diagCalls (s : State) : (s.armWatchdog).diagCalls = s.diagCalls := rfl
@[simp] theorem State.armWatchdog_held (s : State) : (s.armWatchdog).held = s.held := rfl
@[simp] theorem State.armWatchdog_draws (s : State) : (s.armWatchdog).draws = s.draws := rfl
@[simp] theorem State.armWatchdog_cfg (s : State) : (s.armWatchdog).cfg = s.cfg := rfl

/-! ### `State.feedWatchdog` -/

@[simp] theorem State.feedWatchdog_dstate (s : State) : (s.feedWatchdog).dstate = s.dstate := rfl
@[simp] theorem State.feedWatchdog_pstate (s : State) : (s.feedWatchdog).pstate = s.pstate := rfl
@[simp] theorem State.feedWatchdog_fb (s : State) : (s.feedWatchdog).fb = s.fb := rfl
@[simp] theorem State.feedWatchdog_rxIdx (s : State) : (s.feedWatchdog).rxIdx = s.rxIdx := rfl
@[simp] theorem State.feedWatchdog_curOp (s : State) : (s.feedWatchdog).curOp = s.curOp := rfl
@[simp] theorem State.feedWatchdog_bwActive (s : State) : (s.feedWatchdog).bwActive = s.bwActive := rfl
@[simp] theorem State.feedWatchdog_polls (s : State) : (s.feedWatchdog).polls = s.polls := rfl
@[simp] theorem State.feedWatchdog_timedOut (s : State) : (s.feedWatchdog).timedOut = s.timedOut := rfl
@[simp] theorem State.feedWatchdog_wdtArmed (s : State) : (s.feedWatchdog).wdtArmed = s.wdtArmed := rfl
@[simp] theorem State.feedWatchdog_lineCs (s : State) : (s.feedWatchdog).lineCs = s.lineCs := rfl
@[simp] theorem State.feedWatchdog_lineDc (s : State) : (s.feedWatchdog).lineDc = s.lineDc := rfl
@[simp] theorem State.feedWatchdog_lineRst (s : State) : (s.feedWatchdog).lineRst = s.lineRst := rfl
@[simp] theorem State.feedWatchdog_fault (s : State) : (s.feedWatchdog).fault = s.fault := rfl
@[simp] theorem State.feedWatchdog_lastResult (s : State) : (s.feedWatchdog).lastResult = s.lastResult := rfl
@[simp] theorem State.feedWatchdog_resetCause (s : State) : (s.feedWatchdog).resetCause = s.resetCause := rfl
@[simp] theorem State.feedWatchdog_seq (s : State) : (s.feedWatchdog).seq = s.seq := rfl
@[simp] theorem State.feedWatchdog_ctlReq (s : State) : (s.feedWatchdog).ctlReq = s.ctlReq := rfl
@[simp] theorem State.feedWatchdog_rx (s : State) : (s.feedWatchdog).rx = s.rx := rfl
@[simp] theorem State.feedWatchdog_busyIn (s : State) : (s.feedWatchdog).busyIn = s.busyIn := rfl
@[simp] theorem State.feedWatchdog_firstIn (s : State) : (s.feedWatchdog).firstIn = s.firstIn := rfl
@[simp] theorem State.feedWatchdog_env (s : State) : (s.feedWatchdog).env = s.env := rfl
@[simp] theorem State.feedWatchdog_trace (s : State) : (s.feedWatchdog).trace = .feed :: s.trace := rfl
@[simp] theorem State.feedWatchdog_diag (s : State) : (s.feedWatchdog).diag = s.diag := rfl
@[simp] theorem State.feedWatchdog_diagCalls (s : State) : (s.feedWatchdog).diagCalls = s.diagCalls := rfl
@[simp] theorem State.feedWatchdog_held (s : State) : (s.feedWatchdog).held = s.held := rfl
@[simp] theorem State.feedWatchdog_draws (s : State) : (s.feedWatchdog).draws = s.draws := rfl
@[simp] theorem State.feedWatchdog_cfg (s : State) : (s.feedWatchdog).cfg = s.cfg := rfl

/-! ### `State.wait` -/

@[simp] theorem State.wait_dstate (s : State) (ms : Nat) : (s.wait ms).dstate = s.dstate := rfl
@[simp] theorem State.wait_pstate (s : State) (ms : Nat) : (s.wait ms).pstate = s.pstate := rfl
@[simp] theorem State.wait_fb (s : State) (ms : Nat) : (s.wait ms).fb = s.fb := rfl
@[simp] theorem State.wait_rxIdx (s : State) (ms : Nat) : (s.wait ms).rxIdx = s.rxIdx := rfl
@[simp] theorem State.wait_curOp (s : State) (ms : Nat) : (s.wait ms).curOp = s.curOp := rfl
@[simp] theorem State.wait_bwActive (s : State) (ms : Nat) : (s.wait ms).bwActive = s.bwActive := rfl
@[simp] theorem State.wait_polls (s : State) (ms : Nat) : (s.wait ms).polls = s.polls := rfl
@[simp] theorem State.wait_timedOut (s : State) (ms : Nat) : (s.wait ms).timedOut = s.timedOut := rfl
@[simp] theorem State.wait_wdtArmed (s : State) (ms : Nat) : (s.wait ms).wdtArmed = s.wdtArmed := rfl
@[simp] theorem State.wait_lineCs (s : State) (ms : Nat) : (s.wait ms).lineCs = s.lineCs := rfl
@[simp] theorem State.wait_lineDc (s : State) (ms : Nat) : (s.wait ms).lineDc = s.lineDc := rfl
@[simp] theorem State.wait_lineRst (s : State) (ms : Nat) : (s.wait ms).lineRst = s.lineRst := rfl
@[simp] theorem State.wait_fault (s : State) (ms : Nat) : (s.wait ms).fault = s.fault := rfl
@[simp] theorem State.wait_lastResult (s : State) (ms : Nat) : (s.wait ms).lastResult = s.lastResult := rfl
@[simp] theorem State.wait_resetCause (s : State) (ms : Nat) : (s.wait ms).resetCause = s.resetCause := rfl
@[simp] theorem State.wait_seq (s : State) (ms : Nat) : (s.wait ms).seq = s.seq := rfl
@[simp] theorem State.wait_ctlReq (s : State) (ms : Nat) : (s.wait ms).ctlReq = s.ctlReq := rfl
@[simp] theorem State.wait_rx (s : State) (ms : Nat) : (s.wait ms).rx = s.rx := rfl
@[simp] theorem State.wait_busyIn (s : State) (ms : Nat) : (s.wait ms).busyIn = s.busyIn := rfl
@[simp] theorem State.wait_firstIn (s : State) (ms : Nat) : (s.wait ms).firstIn = s.firstIn := rfl
@[simp] theorem State.wait_env (s : State) (ms : Nat) : (s.wait ms).env = s.env := rfl
@[simp] theorem State.wait_trace (s : State) (ms : Nat) : (s.wait ms).trace = .delay ms :: s.trace := rfl
@[simp] theorem State.wait_diag (s : State) (ms : Nat) : (s.wait ms).diag = s.diag := rfl
@[simp] theorem State.wait_diagCalls (s : State) (ms : Nat) : (s.wait ms).diagCalls = s.diagCalls := rfl
@[simp] theorem State.wait_held (s : State) (ms : Nat) : (s.wait ms).held = s.held := rfl
@[simp] theorem State.wait_draws (s : State) (ms : Nat) : (s.wait ms).draws = s.draws := rfl
@[simp] theorem State.wait_cfg (s : State) (ms : Nat) : (s.wait ms).cfg = s.cfg := rfl

/-! ### `State.txByte` -/

@[simp] theorem State.txByte_dstate (s : State) (b : Byte) : (s.txByte b).dstate = s.dstate := rfl
@[simp] theorem State.txByte_pstate (s : State) (b : Byte) : (s.txByte b).pstate = s.pstate := rfl
@[simp] theorem State.txByte_fb (s : State) (b : Byte) : (s.txByte b).fb = s.fb := rfl
@[simp] theorem State.txByte_rxIdx (s : State) (b : Byte) : (s.txByte b).rxIdx = s.rxIdx := rfl
@[simp] theorem State.txByte_curOp (s : State) (b : Byte) : (s.txByte b).curOp = s.curOp := rfl
@[simp] theorem State.txByte_bwActive (s : State) (b : Byte) : (s.txByte b).bwActive = s.bwActive := rfl
@[simp] theorem State.txByte_polls (s : State) (b : Byte) : (s.txByte b).polls = s.polls := rfl
@[simp] theorem State.txByte_timedOut (s : State) (b : Byte) : (s.txByte b).timedOut = s.timedOut := rfl
@[simp] theorem State.txByte_wdtArmed (s : State) (b : Byte) : (s.txByte b).wdtArmed = s.wdtArmed := rfl
@[simp] theorem State.txByte_lineCs (s : State) (b : Byte) : (s.txByte b).lineCs = s.lineCs := rfl
@[simp] theorem State.txByte_lineDc (s : State) (b : Byte) : (s.txByte b).lineDc = s.lineDc := rfl
@[simp] theorem State.txByte_lineRst (s : State) (b : Byte) : (s.txByte b).lineRst = s.lineRst := rfl
@[simp] theorem State.txByte_fault (s : State) (b : Byte) : (s.txByte b).fault = s.fault := rfl
@[simp] theorem State.txByte_lastResult (s : State) (b : Byte) : (s.txByte b).lastResult = s.lastResult := rfl
@[simp] theorem State.txByte_resetCause (s : State) (b : Byte) : (s.txByte b).resetCause = s.resetCause := rfl
@[simp] theorem State.txByte_seq (s : State) (b : Byte) : (s.txByte b).seq = s.seq := rfl
@[simp] theorem State.txByte_ctlReq (s : State) (b : Byte) : (s.txByte b).ctlReq = s.ctlReq := rfl
@[simp] theorem State.txByte_rx (s : State) (b : Byte) : (s.txByte b).rx = s.rx := rfl
@[simp] theorem State.txByte_busyIn (s : State) (b : Byte) : (s.txByte b).busyIn = s.busyIn := rfl
@[simp] theorem State.txByte_firstIn (s : State) (b : Byte) : (s.txByte b).firstIn = s.firstIn := rfl
@[simp] theorem State.txByte_env (s : State) (b : Byte) : (s.txByte b).env = s.env := rfl
@[simp] theorem State.txByte_trace (s : State) (b : Byte) : (s.txByte b).trace = .tx b :: s.trace := rfl
@[simp] theorem State.txByte_diag (s : State) (b : Byte) : (s.txByte b).diag = s.diag := rfl
@[simp] theorem State.txByte_diagCalls (s : State) (b : Byte) : (s.txByte b).diagCalls = s.diagCalls := rfl
@[simp] theorem State.txByte_held (s : State) (b : Byte) : (s.txByte b).held = s.held := rfl
@[simp] theorem State.txByte_draws (s : State) (b : Byte) : (s.txByte b).draws = s.draws := rfl
@[simp] theorem State.txByte_cfg (s : State) (b : Byte) : (s.txByte b).cfg = s.cfg := rfl

/-! ### `State.sampleBusy` -/

@[simp] theorem State.sampleBusy_dstate (s : State) : (s.sampleBusy).dstate = s.dstate := by
  unfold State.sampleBusy; cases s.busyIn <;> simp
@[simp] theorem State.sampleBusy_pstate (s : State) : (s.sampleBusy).pstate = s.pstate := by
  unfold State.sampleBusy; cases s.busyIn <;> simp
@[simp] theorem State.sampleBusy_fb (s : State) : (s.sampleBusy).fb = s.fb := by
  unfold State.sampleBusy; cases s.busyIn <;> simp
@[simp] theorem State.sampleBusy_rxIdx (s : State) : (s.sampleBusy).rxIdx = s.rxIdx := by
  unfold State.sampleBusy; cases s.busyIn <;> simp
@[simp] theorem State.sampleBusy_curOp (s : State) : (s.sampleBusy).curOp = s.curOp := by
  unfold State.sampleBusy; cases s.busyIn <;> simp
@[simp] theorem State.sampleBusy_bwActive (s : State) : (s.sampleBusy).bwActive = s.bwActive := by
  unfold State.sampleBusy; cases s.busyIn <;> simp
@[simp] theorem State.sampleBusy_polls (s : State) : (s.sampleBusy).polls = s.polls := by
  unfold State.sampleBusy; cases s.busyIn <;> simp
@[simp] theorem State.sampleBusy_timedOut (s : State) : (s.sampleBusy).timedOut = s.timedOut := by
  unfold State.sampleBusy; cases s.busyIn <;> simp
@[simp] theorem State.sampleBusy_wdtArmed (s : State) : (s.sampleBusy).wdtArmed = s.wdtArmed := by
  unfold State.sampleBusy; cases s.busyIn <;> simp
@[simp] theorem State.sampleBusy_lineCs (s : State) : (s.sampleBusy).lineCs = s.lineCs := by
  unfold State.sampleBusy; cases s.busyIn <;> simp
@[simp] theorem State.sampleBusy_lineDc (s : State) : (s.sampleBusy).lineDc = s.lineDc := by
  unfold State.sampleBusy; cases s.busyIn <;> simp
@[simp] theorem State.sampleBusy_lineRst (s : State) : (s.sampleBusy).lineRst = s.lineRst := by
  unfold State.sampleBusy; cases s.busyIn <;> simp
@[simp] theorem State.sampleBusy_fault (s : State) : (s.sampleBusy).fault = s.fault := by
  unfold State.sampleBusy; cases s.busyIn <;> simp
@[simp] theorem State.sampleBusy_lastResult (s : State) : (s.sampleBusy).lastResult = s.lastResult := by
  unfold State.sampleBusy; cases s.busyIn <;> simp
@[simp] theorem State.sampleBusy_resetCause (s : State) : (s.sampleBusy).resetCause = s.resetCause := by
  unfold State.sampleBusy; cases s.busyIn <;> simp
@[simp] theorem State.sampleBusy_seq (s : State) : (s.sampleBusy).seq = s.seq := by
  unfold State.sampleBusy; cases s.busyIn <;> simp
@[simp] theorem State.sampleBusy_ctlReq (s : State) : (s.sampleBusy).ctlReq = s.ctlReq := by
  unfold State.sampleBusy; cases s.busyIn <;> simp
@[simp] theorem State.sampleBusy_rx (s : State) : (s.sampleBusy).rx = s.rx := by
  unfold State.sampleBusy; cases s.busyIn <;> simp
@[simp] theorem State.sampleBusy_busyIn (s : State) : (s.sampleBusy).busyIn = s.busyIn.tail := by
  unfold State.sampleBusy; cases s.busyIn <;> simp
@[simp] theorem State.sampleBusy_firstIn (s : State) : (s.sampleBusy).firstIn = s.firstIn := by
  unfold State.sampleBusy; cases s.busyIn <;> simp
@[simp] theorem State.sampleBusy_env (s : State) : (s.sampleBusy).env = s.env := by
  unfold State.sampleBusy; cases s.busyIn <;> simp
@[simp] theorem State.sampleBusy_trace (s : State) : (s.sampleBusy).trace = .busy s.nextBusy :: s.trace := by
  unfold State.sampleBusy State.nextBusy; cases s.busyIn <;> simp
@[simp] theorem State.sampleBusy_diag (s : State) : (s.sampleBusy).diag = s.diag := by
  unfold State.sampleBusy; cases s.busyIn <;> simp
@[simp] theorem State.sampleBusy_diagCalls (s : State) : (s.sampleBusy).diagCalls = s.diagCalls := by
  unfold State.sampleBusy; cases s.busyIn <;> simp
@[simp] theorem State.sampleBusy_held (s : State) : (s.sampleBusy).held = s.held := by
  unfold State.sampleBusy; cases s.busyIn <;> simp
@[simp] theorem State.sampleBusy_draws (s : State) : (s.sampleBusy).draws = s.draws + (1 - s.busyIn.length) := by
  unfold State.sampleBusy; cases s.busyIn <;> simp
@[simp] theorem State.sampleBusy_cfg (s : State) : (s.sampleBusy).cfg = s.cfg := by
  unfold State.sampleBusy; cases s.busyIn <;> simp

/-! ### `State.receive` -/

@[simp] theorem State.receive_dstate (s : State) (b : Byte) (rest : List LinkSlot) : (s.receive b rest).dstate = s.dstate := rfl
@[simp] theorem State.receive_pstate (s : State) (b : Byte) (rest : List LinkSlot) : (s.receive b rest).pstate = s.pstate := rfl
@[simp] theorem State.receive_fb (s : State) (b : Byte) (rest : List LinkSlot) : (s.receive b rest).fb = s.fb := rfl
@[simp] theorem State.receive_rxIdx (s : State) (b : Byte) (rest : List LinkSlot) : (s.receive b rest).rxIdx = s.rxIdx := rfl
@[simp] theorem State.receive_curOp (s : State) (b : Byte) (rest : List LinkSlot) : (s.receive b rest).curOp = s.curOp := rfl
@[simp] theorem State.receive_bwActive (s : State) (b : Byte) (rest : List LinkSlot) : (s.receive b rest).bwActive = s.bwActive := rfl
@[simp] theorem State.receive_polls (s : State) (b : Byte) (rest : List LinkSlot) : (s.receive b rest).polls = s.polls := rfl
@[simp] theorem State.receive_timedOut (s : State) (b : Byte) (rest : List LinkSlot) : (s.receive b rest).timedOut = s.timedOut := rfl
@[simp] theorem State.receive_wdtArmed (s : State) (b : Byte) (rest : List LinkSlot) : (s.receive b rest).wdtArmed = s.wdtArmed := rfl
@[simp] theorem State.receive_lineCs (s : State) (b : Byte) (rest : List LinkSlot) : (s.receive b rest).lineCs = s.lineCs := rfl
@[simp] theorem State.receive_lineDc (s : State) (b : Byte) (rest : List LinkSlot) : (s.receive b rest).lineDc = s.lineDc := rfl
@[simp] theorem State.receive_lineRst (s : State) (b : Byte) (rest : List LinkSlot) : (s.receive b rest).lineRst = s.lineRst := rfl
@[simp] theorem State.receive_fault (s : State) (b : Byte) (rest : List LinkSlot) : (s.receive b rest).fault = s.fault := rfl
@[simp] theorem State.receive_lastResult (s : State) (b : Byte) (rest : List LinkSlot) : (s.receive b rest).lastResult = s.lastResult := rfl
@[simp] theorem State.receive_resetCause (s : State) (b : Byte) (rest : List LinkSlot) : (s.receive b rest).resetCause = s.resetCause := rfl
@[simp] theorem State.receive_seq (s : State) (b : Byte) (rest : List LinkSlot) : (s.receive b rest).seq = s.seq := rfl
@[simp] theorem State.receive_ctlReq (s : State) (b : Byte) (rest : List LinkSlot) : (s.receive b rest).ctlReq = s.ctlReq := rfl
@[simp] theorem State.receive_rx (s : State) (b : Byte) (rest : List LinkSlot) : (s.receive b rest).rx = rest := rfl
@[simp] theorem State.receive_busyIn (s : State) (b : Byte) (rest : List LinkSlot) : (s.receive b rest).busyIn = s.busyIn := rfl
@[simp] theorem State.receive_firstIn (s : State) (b : Byte) (rest : List LinkSlot) : (s.receive b rest).firstIn = s.firstIn := rfl
@[simp] theorem State.receive_env (s : State) (b : Byte) (rest : List LinkSlot) : (s.receive b rest).env = s.env := rfl
@[simp] theorem State.receive_trace (s : State) (b : Byte) (rest : List LinkSlot) : (s.receive b rest).trace = .rx b :: s.trace := rfl
@[simp] theorem State.receive_diag (s : State) (b : Byte) (rest : List LinkSlot) : (s.receive b rest).diag = s.diag := rfl
@[simp] theorem State.receive_diagCalls (s : State) (b : Byte) (rest : List LinkSlot) : (s.receive b rest).diagCalls = s.diagCalls := rfl
@[simp] theorem State.receive_held (s : State) (b : Byte) (rest : List LinkSlot) : (s.receive b rest).held = b := rfl
@[simp] theorem State.receive_draws (s : State) (b : Byte) (rest : List LinkSlot) : (s.receive b rest).draws = s.draws := rfl
@[simp] theorem State.receive_cfg (s : State) (b : Byte) (rest : List LinkSlot) : (s.receive b rest).cfg = s.cfg := rfl

/-! ### `State.linkIdle` -/

@[simp] theorem State.linkIdle_dstate (s : State) : (s.linkIdle).dstate = s.dstate := rfl
@[simp] theorem State.linkIdle_pstate (s : State) : (s.linkIdle).pstate = s.pstate := rfl
@[simp] theorem State.linkIdle_fb (s : State) : (s.linkIdle).fb = s.fb := rfl
@[simp] theorem State.linkIdle_rxIdx (s : State) : (s.linkIdle).rxIdx = s.rxIdx := rfl
@[simp] theorem State.linkIdle_curOp (s : State) : (s.linkIdle).curOp = s.curOp := rfl
@[simp] theorem State.linkIdle_bwActive (s : State) : (s.linkIdle).bwActive = s.bwActive := rfl
@[simp] theorem State.linkIdle_polls (s : State) : (s.linkIdle).polls = s.polls := rfl
@[simp] theorem State.linkIdle_timedOut (s : State) : (s.linkIdle).timedOut = s.timedOut := rfl
@[simp] theorem State.linkIdle_wdtArmed (s : State) : (s.linkIdle).wdtArmed = s.wdtArmed := rfl
@[simp] theorem State.linkIdle_lineCs (s : State) : (s.linkIdle).lineCs = s.lineCs := rfl
@[simp] theorem State.linkIdle_lineDc (s : State) : (s.linkIdle).lineDc = s.lineDc := rfl
@[simp] theorem State.linkIdle_lineRst (s : State) : (s.linkIdle).lineRst = s.lineRst := rfl
@[simp] theorem State.linkIdle_fault (s : State) : (s.linkIdle).fault = s.fault := rfl
@[simp] theorem State.linkIdle_lastResult (s : State) : (s.linkIdle).lastResult = s.lastResult := rfl
@[simp] theorem State.linkIdle_resetCause (s : State) : (s.linkIdle).resetCause = s.resetCause := rfl
@[simp] theorem State.linkIdle_seq (s : State) : (s.linkIdle).seq = s.seq := rfl
@[simp] theorem State.linkIdle_ctlReq (s : State) : (s.linkIdle).ctlReq = s.ctlReq := rfl
@[simp] theorem State.linkIdle_rx (s : State) : (s.linkIdle).rx = s.rx.tail := rfl
@[simp] theorem State.linkIdle_busyIn (s : State) : (s.linkIdle).busyIn = s.busyIn := rfl
@[simp] theorem State.linkIdle_firstIn (s : State) : (s.linkIdle).firstIn = s.firstIn := rfl
@[simp] theorem State.linkIdle_env (s : State) : (s.linkIdle).env = s.env := rfl
@[simp] theorem State.linkIdle_trace (s : State) : (s.linkIdle).trace = .feed :: s.trace := rfl
@[simp] theorem State.linkIdle_diag (s : State) : (s.linkIdle).diag = s.diag := rfl
@[simp] theorem State.linkIdle_diagCalls (s : State) : (s.linkIdle).diagCalls = s.diagCalls := rfl
@[simp] theorem State.linkIdle_held (s : State) : (s.linkIdle).held = s.held := rfl
@[simp] theorem State.linkIdle_draws (s : State) : (s.linkIdle).draws = s.draws := rfl
@[simp] theorem State.linkIdle_cfg (s : State) : (s.linkIdle).cfg = s.cfg := rfl

/-! ### `State.memRead` -/

@[simp] theorem State.memRead_dstate (s : State) (i : Nat) : (s.memRead i).dstate = s.dstate := by
  unfold State.memRead; cases Store.read s.fb i <;> rfl
@[simp] theorem State.memRead_pstate (s : State) (i : Nat) : (s.memRead i).pstate = s.pstate := by
  unfold State.memRead; cases Store.read s.fb i <;> rfl
@[simp] theorem State.memRead_fb (s : State) (i : Nat) : (s.memRead i).fb = s.fb := by
  unfold State.memRead; cases Store.read s.fb i <;> rfl
@[simp] theorem State.memRead_rxIdx (s : State) (i : Nat) : (s.memRead i).rxIdx = s.rxIdx := by
  unfold State.memRead; cases Store.read s.fb i <;> rfl
@[simp] theorem State.memRead_curOp (s : State) (i : Nat) : (s.memRead i).curOp = s.curOp := by
  unfold State.memRead; cases Store.read s.fb i <;> rfl
@[simp] theorem State.memRead_bwActive (s : State) (i : Nat) : (s.memRead i).bwActive = s.bwActive := by
  unfold State.memRead; cases Store.read s.fb i <;> rfl
@[simp] theorem State.memRead_polls (s : State) (i : Nat) : (s.memRead i).polls = s.polls := by
  unfold State.memRead; cases Store.read s.fb i <;> rfl
@[simp] theorem State.memRead_timedOut (s : State) (i : Nat) : (s.memRead i).timedOut = s.timedOut := by
  unfold State.memRead; cases Store.read s.fb i <;> rfl
@[simp] theorem State.memRead_wdtArmed (s : State) (i : Nat) : (s.memRead i).wdtArmed = s.wdtArmed := by
  unfold State.memRead; cases Store.read s.fb i <;> rfl
@[simp] theorem State.memRead_lineCs (s : State) (i : Nat) : (s.memRead i).lineCs = s.lineCs := by
  unfold State.memRead; cases Store.read s.fb i <;> rfl
@[simp] theorem State.memRead_lineDc (s : State) (i : Nat) : (s.memRead i).lineDc = s.lineDc := by
  unfold State.memRead; cases Store.read s.fb i <;> rfl
@[simp] theorem State.memRead_lineRst (s : State) (i : Nat) : (s.memRead i).lineRst = s.lineRst := by
  unfold State.memRead; cases Store.read s.fb i <;> rfl
@[simp] theorem State.memRead_fault (s : State) (i : Nat) : (s.memRead i).fault = s.fault := by
  unfold State.memRead; cases Store.read s.fb i <;> rfl
@[simp] theorem State.memRead_lastResult (s : State) (i : Nat) : (s.memRead i).lastResult = s.lastResult := by
  unfold State.memRead; cases Store.read s.fb i <;> rfl
@[simp] theorem State.memRead_resetCause (s : State) (i : Nat) : (s.memRead i).resetCause = s.resetCause := by
  unfold State.memRead; cases Store.read s.fb i <;> rfl
@[simp] theorem State.memRead_seq (s : State) (i : Nat) : (s.memRead i).seq = s.seq := by
  unfold State.memRead; cases Store.read s.fb i <;> rfl
@[simp] theorem State.memRead_ctlReq (s : State) (i : Nat) : (s.memRead i).ctlReq = s.ctlReq := by
  unfold State.memRead; cases Store.read s.fb i <;> rfl
@[simp] theorem State.memRead_rx (s : State) (i : Nat) : (s.memRead i).rx = s.rx := by
  unfold State.memRead; cases Store.read s.fb i <;> rfl
@[simp] theorem State.memRead_busyIn (s : State) (i : Nat) : (s.memRead i).busyIn = s.busyIn := by
  unfold State.memRead; cases Store.read s.fb i <;> rfl
@[simp] theorem State.memRead_firstIn (s : State) (i : Nat) : (s.memRead i).firstIn = s.firstIn := by
  unfold State.memRead; cases Store.read s.fb i <;> rfl
@[simp] theorem State.memRead_env (s : State) (i : Nat) : (s.memRead i).env = s.env := by
  unfold State.memRead; cases Store.read s.fb i <;> rfl
@[simp] theorem State.memRead_trace (s : State) (i : Nat) : (s.memRead i).trace = s.trace := by
  unfold State.memRead; cases Store.read s.fb i <;> rfl
@[simp] theorem State.memRead_diag (s : State) (i : Nat) : (s.memRead i).diag = s.diag := by
  unfold State.memRead; cases Store.read s.fb i <;> rfl
@[simp] theorem State.memRead_diagCalls (s : State) (i : Nat) : (s.memRead i).diagCalls = s.diagCalls := by
  unfold State.memRead; cases Store.read s.fb i <;> rfl
@[simp] theorem State.memRead_held (s : State) (i : Nat) : (s.memRead i).held = (Store.read s.fb i).getD (Config.unwrittenByte s.draws) := by
  unfold State.memRead; cases Store.read s.fb i <;> rfl
@[simp] theorem State.memRead_draws (s : State) (i : Nat) : (s.memRead i).draws = if Store.read s.fb i = none then s.draws + 1 else s.draws := by
  unfold State.memRead; cases Store.read s.fb i <;> rfl
@[simp] theorem State.memRead_cfg (s : State) (i : Nat) : (s.memRead i).cfg = s.cfg := by
  unfold State.memRead; cases Store.read s.fb i <;> rfl

/-! ### `State.memWrite` -/

@[simp] theorem State.memWrite_dstate (s : State) : (s.memWrite).dstate = s.dstate := rfl
@[simp] theorem State.memWrite_pstate (s : State) : (s.memWrite).pstate = s.pstate := rfl
@[simp] theorem State.memWrite_fb (s : State) : (s.memWrite).fb = Store.write s.fb s.rxIdx s.held := rfl
@[simp] theorem State.memWrite_rxIdx (s : State) : (s.memWrite).rxIdx = s.rxIdx := rfl
@[simp] theorem State.memWrite_curOp (s : State) : (s.memWrite).curOp = s.curOp := rfl
@[simp] theorem State.memWrite_bwActive (s : State) : (s.memWrite).bwActive = s.bwActive := rfl
@[simp] theorem State.memWrite_polls (s : State) : (s.memWrite).polls = s.polls := rfl
@[simp] theorem State.memWrite_timedOut (s : State) : (s.memWrite).timedOut = s.timedOut := rfl
@[simp] theorem State.memWrite_wdtArmed (s : State) : (s.memWrite).wdtArmed = s.wdtArmed := rfl
@[simp] theorem State.memWrite_lineCs (s : State) : (s.memWrite).lineCs = s.lineCs := rfl
@[simp] theorem State.memWrite_lineDc (s : State) : (s.memWrite).lineDc = s.lineDc := rfl
@[simp] theorem State.memWrite_lineRst (s : State) : (s.memWrite).lineRst = s.lineRst := rfl
@[simp] theorem State.memWrite_fault (s : State) : (s.memWrite).fault = s.fault := rfl
@[simp] theorem State.memWrite_lastResult (s : State) : (s.memWrite).lastResult = s.lastResult := rfl
@[simp] theorem State.memWrite_resetCause (s : State) : (s.memWrite).resetCause = s.resetCause := rfl
@[simp] theorem State.memWrite_seq (s : State) : (s.memWrite).seq = s.seq := rfl
@[simp] theorem State.memWrite_ctlReq (s : State) : (s.memWrite).ctlReq = s.ctlReq := rfl
@[simp] theorem State.memWrite_rx (s : State) : (s.memWrite).rx = s.rx := rfl
@[simp] theorem State.memWrite_busyIn (s : State) : (s.memWrite).busyIn = s.busyIn := rfl
@[simp] theorem State.memWrite_firstIn (s : State) : (s.memWrite).firstIn = s.firstIn := rfl
@[simp] theorem State.memWrite_env (s : State) : (s.memWrite).env = s.env := rfl
@[simp] theorem State.memWrite_trace (s : State) : (s.memWrite).trace = s.trace := rfl
@[simp] theorem State.memWrite_diag (s : State) : (s.memWrite).diag = s.diag := rfl
@[simp] theorem State.memWrite_diagCalls (s : State) : (s.memWrite).diagCalls = s.diagCalls := rfl
@[simp] theorem State.memWrite_held (s : State) : (s.memWrite).held = s.held := rfl
@[simp] theorem State.memWrite_draws (s : State) : (s.memWrite).draws = s.draws := rfl
@[simp] theorem State.memWrite_cfg (s : State) : (s.memWrite).cfg = s.cfg := rfl

/-! ### `State.resetTo` -/

@[simp] theorem State.resetTo_dstate (s : State) (k : ResetCause) : (s.resetTo k).dstate = .boot := rfl
@[simp] theorem State.resetTo_pstate (s : State) (k : ResetCause) : (s.resetTo k).pstate = .unpowered := rfl
@[simp] theorem State.resetTo_fb (s : State) (k : ResetCause) : (s.resetTo k).fb = [] := rfl
@[simp] theorem State.resetTo_rxIdx (s : State) (k : ResetCause) : (s.resetTo k).rxIdx = 0 := rfl
@[simp] theorem State.resetTo_curOp (s : State) (k : ResetCause) : (s.resetTo k).curOp = .none := rfl
@[simp] theorem State.resetTo_bwActive (s : State) (k : ResetCause) : (s.resetTo k).bwActive = false := rfl
@[simp] theorem State.resetTo_polls (s : State) (k : ResetCause) : (s.resetTo k).polls = 0 := rfl
@[simp] theorem State.resetTo_timedOut (s : State) (k : ResetCause) : (s.resetTo k).timedOut = false := rfl
@[simp] theorem State.resetTo_wdtArmed (s : State) (k : ResetCause) : (s.resetTo k).wdtArmed = false := rfl
@[simp] theorem State.resetTo_lineCs (s : State) (k : ResetCause) : (s.resetTo k).lineCs = .undriven := rfl
@[simp] theorem State.resetTo_lineDc (s : State) (k : ResetCause) : (s.resetTo k).lineDc = .undriven := rfl
@[simp] theorem State.resetTo_lineRst (s : State) (k : ResetCause) : (s.resetTo k).lineRst = .undriven := rfl
@[simp] theorem State.resetTo_fault (s : State) (k : ResetCause) : (s.resetTo k).fault = none := rfl
@[simp] theorem State.resetTo_lastResult (s : State) (k : ResetCause) : (s.resetTo k).lastResult = .ok := rfl
@[simp] theorem State.resetTo_resetCause (s : State) (k : ResetCause) : (s.resetTo k).resetCause = k := rfl
@[simp] theorem State.resetTo_seq (s : State) (k : ResetCause) : (s.resetTo k).seq = Seq.start .boot := rfl
@[simp] theorem State.resetTo_ctlReq (s : State) (k : ResetCause) : (s.resetTo k).ctlReq = none := rfl
@[simp] theorem State.resetTo_rx (s : State) (k : ResetCause) : (s.resetTo k).rx = s.rx := rfl
@[simp] theorem State.resetTo_busyIn (s : State) (k : ResetCause) : (s.resetTo k).busyIn = s.busyIn := rfl
@[simp] theorem State.resetTo_firstIn (s : State) (k : ResetCause) : (s.resetTo k).firstIn = s.firstIn := rfl
@[simp] theorem State.resetTo_env (s : State) (k : ResetCause) : (s.resetTo k).env = s.env := rfl
@[simp] theorem State.resetTo_trace (s : State) (k : ResetCause) : (s.resetTo k).trace = s.trace := rfl
@[simp] theorem State.resetTo_diag (s : State) (k : ResetCause) : (s.resetTo k).diag = s.diag := rfl
@[simp] theorem State.resetTo_diagCalls (s : State) (k : ResetCause) : (s.resetTo k).diagCalls = s.diagCalls := rfl
@[simp] theorem State.resetTo_held (s : State) (k : ResetCause) : (s.resetTo k).held = 0 := rfl
@[simp] theorem State.resetTo_draws (s : State) (k : ResetCause) : (s.resetTo k).draws = s.draws := rfl
@[simp] theorem State.resetTo_cfg (s : State) (k : ResetCause) : (s.resetTo k).cfg = s.cfg := rfl

/-! ### `State.takeFault` -/

@[simp] theorem State.takeFault_dstate (s : State) (f : FaultRecord) : (s.takeFault f).dstate = .faulted := rfl
@[simp] theorem State.takeFault_pstate (s : State) (f : FaultRecord) : (s.takeFault f).pstate = s.pstate := rfl
@[simp] theorem State.takeFault_fb (s : State) (f : FaultRecord) : (s.takeFault f).fb = s.fb := rfl
@[simp] theorem State.takeFault_rxIdx (s : State) (f : FaultRecord) : (s.takeFault f).rxIdx = s.rxIdx := rfl
@[simp] theorem State.takeFault_curOp (s : State) (f : FaultRecord) : (s.takeFault f).curOp = s.curOp := rfl
@[simp] theorem State.takeFault_bwActive (s : State) (f : FaultRecord) : (s.takeFault f).bwActive = s.bwActive := rfl
@[simp] theorem State.takeFault_polls (s : State) (f : FaultRecord) : (s.takeFault f).polls = s.polls := rfl
@[simp] theorem State.takeFault_timedOut (s : State) (f : FaultRecord) : (s.takeFault f).timedOut = s.timedOut := rfl
@[simp] theorem State.takeFault_wdtArmed (s : State) (f : FaultRecord) : (s.takeFault f).wdtArmed = s.wdtArmed := rfl
@[simp] theorem State.takeFault_lineCs (s : State) (f : FaultRecord) : (s.takeFault f).lineCs = s.lineCs := rfl
@[simp] theorem State.takeFault_lineDc (s : State) (f : FaultRecord) : (s.takeFault f).lineDc = s.lineDc := rfl
@[simp] theorem State.takeFault_lineRst (s : State) (f : FaultRecord) : (s.takeFault f).lineRst = s.lineRst := rfl
@[simp] theorem State.takeFault_fault (s : State) (f : FaultRecord) : (s.takeFault f).fault = some f := rfl
@[simp] theorem State.takeFault_lastResult (s : State) (f : FaultRecord) : (s.takeFault f).lastResult = s.lastResult := rfl
@[simp] theorem State.takeFault_resetCause (s : State) (f : FaultRecord) : (s.takeFault f).resetCause = s.resetCause := rfl
@[simp] theorem State.takeFault_seq (s : State) (f : FaultRecord) : (s.takeFault f).seq = s.seq := rfl
@[simp] theorem State.takeFault_ctlReq (s : State) (f : FaultRecord) : (s.takeFault f).ctlReq = s.ctlReq := rfl
@[simp] theorem State.takeFault_rx (s : State) (f : FaultRecord) : (s.takeFault f).rx = s.rx := rfl
@[simp] theorem State.takeFault_busyIn (s : State) (f : FaultRecord) : (s.takeFault f).busyIn = s.busyIn := rfl
@[simp] theorem State.takeFault_firstIn (s : State) (f : FaultRecord) : (s.takeFault f).firstIn = s.firstIn := rfl
@[simp] theorem State.takeFault_env (s : State) (f : FaultRecord) : (s.takeFault f).env = s.env := rfl
@[simp] theorem State.takeFault_trace (s : State) (f : FaultRecord) : (s.takeFault f).trace = s.trace := rfl
@[simp] theorem State.takeFault_diag (s : State) (f : FaultRecord) : (s.takeFault f).diag = s.diag := rfl
@[simp] theorem State.takeFault_diagCalls (s : State) (f : FaultRecord) : (s.takeFault f).diagCalls = s.diagCalls := rfl
@[simp] theorem State.takeFault_held (s : State) (f : FaultRecord) : (s.takeFault f).held = s.held := rfl
@[simp] theorem State.takeFault_draws (s : State) (f : FaultRecord) : (s.takeFault f).draws = s.draws := rfl
@[simp] theorem State.takeFault_cfg (s : State) (f : FaultRecord) : (s.takeFault f).cfg = s.cfg := rfl

/-! ### `State.request` -/

@[simp] theorem State.request_dstate (s : State) (q : CtlReq) : (s.request q).dstate = s.dstate := by
  unfold State.request; cases s.ctlReq <;> rfl
@[simp] theorem State.request_pstate (s : State) (q : CtlReq) : (s.request q).pstate = s.pstate := by
  unfold State.request; cases s.ctlReq <;> rfl
@[simp] theorem State.request_fb (s : State) (q : CtlReq) : (s.request q).fb = s.fb := by
  unfold State.request; cases s.ctlReq <;> rfl
@[simp] theorem State.request_rxIdx (s : State) (q : CtlReq) : (s.request q).rxIdx = s.rxIdx := by
  unfold State.request; cases s.ctlReq <;> rfl
@[simp] theorem State.request_curOp (s : State) (q : CtlReq) : (s.request q).curOp = s.curOp := by
  unfold State.request; cases s.ctlReq <;> rfl
@[simp] theorem State.request_bwActive (s : State) (q : CtlReq) : (s.request q).bwActive = s.bwActive := by
  unfold State.request; cases s.ctlReq <;> rfl
@[simp] theorem State.request_polls (s : State) (q : CtlReq) : (s.request q).polls = s.polls := by
  unfold State.request; cases s.ctlReq <;> rfl
@[simp] theorem State.request_timedOut (s : State) (q : CtlReq) : (s.request q).timedOut = s.timedOut := by
  unfold State.request; cases s.ctlReq <;> rfl
@[simp] theorem State.request_wdtArmed (s : State) (q : CtlReq) : (s.request q).wdtArmed = s.wdtArmed := by
  unfold State.request; cases s.ctlReq <;> rfl
@[simp] theorem State.request_lineCs (s : State) (q : CtlReq) : (s.request q).lineCs = s.lineCs := by
  unfold State.request; cases s.ctlReq <;> rfl
@[simp] theorem State.request_lineDc (s : State) (q : CtlReq) : (s.request q).lineDc = s.lineDc := by
  unfold State.request; cases s.ctlReq <;> rfl
@[simp] theorem State.request_lineRst (s : State) (q : CtlReq) : (s.request q).lineRst = s.lineRst := by
  unfold State.request; cases s.ctlReq <;> rfl
@[simp] theorem State.request_fault (s : State) (q : CtlReq) : (s.request q).fault = s.fault := by
  unfold State.request; cases s.ctlReq <;> rfl
@[simp] theorem State.request_lastResult (s : State) (q : CtlReq) : (s.request q).lastResult = s.lastResult := by
  unfold State.request; cases s.ctlReq <;> rfl
@[simp] theorem State.request_resetCause (s : State) (q : CtlReq) : (s.request q).resetCause = s.resetCause := by
  unfold State.request; cases s.ctlReq <;> rfl
@[simp] theorem State.request_seq (s : State) (q : CtlReq) : (s.request q).seq = s.seq := by
  unfold State.request; cases s.ctlReq <;> rfl
@[simp] theorem State.request_ctlReq (s : State) (q : CtlReq) : (s.request q).ctlReq = some (s.ctlReq.getD q) := by
  unfold State.request; cases h : s.ctlReq <;> simp [h]
@[simp] theorem State.request_rx (s : State) (q : CtlReq) : (s.request q).rx = s.rx := by
  unfold State.request; cases s.ctlReq <;> rfl
@[simp] theorem State.request_busyIn (s : State) (q : CtlReq) : (s.request q).busyIn = s.busyIn := by
  unfold State.request; cases s.ctlReq <;> rfl
@[simp] theorem State.request_firstIn (s : State) (q : CtlReq) : (s.request q).firstIn = s.firstIn := by
  unfold State.request; cases s.ctlReq <;> rfl
@[simp] theorem State.request_env (s : State) (q : CtlReq) : (s.request q).env = s.env := by
  unfold State.request; cases s.ctlReq <;> rfl
@[simp] theorem State.request_trace (s : State) (q : CtlReq) : (s.request q).trace = s.trace := by
  unfold State.request; cases s.ctlReq <;> rfl
@[simp] theorem State.request_diag (s : State) (q : CtlReq) : (s.request q).diag = s.diag := by
  unfold State.request; cases s.ctlReq <;> rfl
@[simp] theorem State.request_diagCalls (s : State) (q : CtlReq) : (s.request q).diagCalls = s.diagCalls := by
  unfold State.request; cases s.ctlReq <;> rfl
@[simp] theorem State.request_held (s : State) (q : CtlReq) : (s.request q).held = s.held := by
  unfold State.request; cases s.ctlReq <;> rfl
@[simp] theorem State.request_draws (s : State) (q : CtlReq) : (s.request q).draws = s.draws := by
  unfold State.request; cases s.ctlReq <;> rfl
@[simp] theorem State.request_cfg (s : State) (q : CtlReq) : (s.request q).cfg = s.cfg := by
  unfold State.request; cases s.ctlReq <;> rfl

/-! ### `State.openSession` -/

@[simp] theorem State.openSession_dstate (s : State) : (s.openSession).dstate = s.dstate := rfl
@[simp] theorem State.openSession_pstate (s : State) : (s.openSession).pstate = s.pstate := rfl
@[simp] theorem State.openSession_fb (s : State) : (s.openSession).fb = s.fb := rfl
@[simp] theorem State.openSession_rxIdx (s : State) : (s.openSession).rxIdx = s.rxIdx := rfl
@[simp] theorem State.openSession_curOp (s : State) : (s.openSession).curOp = s.curOp := rfl
@[simp] theorem State.openSession_bwActive (s : State) : (s.openSession).bwActive = true := rfl
@[simp] theorem State.openSession_polls (s : State) : (s.openSession).polls = 0 := rfl
@[simp] theorem State.openSession_timedOut (s : State) : (s.openSession).timedOut = s.timedOut := rfl
@[simp] theorem State.openSession_wdtArmed (s : State) : (s.openSession).wdtArmed = s.wdtArmed := rfl
@[simp] theorem State.openSession_lineCs (s : State) : (s.openSession).lineCs = s.lineCs := rfl
@[simp] theorem State.openSession_lineDc (s : State) : (s.openSession).lineDc = s.lineDc := rfl
@[simp] theorem State.openSession_lineRst (s : State) : (s.openSession).lineRst = s.lineRst := rfl
@[simp] theorem State.openSession_fault (s : State) : (s.openSession).fault = s.fault := rfl
@[simp] theorem State.openSession_lastResult (s : State) : (s.openSession).lastResult = s.lastResult := rfl
@[simp] theorem State.openSession_resetCause (s : State) : (s.openSession).resetCause = s.resetCause := rfl
@[simp] theorem State.openSession_seq (s : State) : (s.openSession).seq = s.seq := rfl
@[simp] theorem State.openSession_ctlReq (s : State) : (s.openSession).ctlReq = s.ctlReq := rfl
@[simp] theorem State.openSession_rx (s : State) : (s.openSession).rx = s.rx := rfl
@[simp] theorem State.openSession_busyIn (s : State) : (s.openSession).busyIn = s.busyIn := rfl
@[simp] theorem State.openSession_firstIn (s : State) : (s.openSession).firstIn = s.firstIn := rfl
@[simp] theorem State.openSession_env (s : State) : (s.openSession).env = s.env := rfl
@[simp] theorem State.openSession_trace (s : State) : (s.openSession).trace = s.trace := rfl
@[simp] theorem State.openSession_diag (s : State) : (s.openSession).diag = s.diag := rfl
@[simp] theorem State.openSession_diagCalls (s : State) : (s.openSession).diagCalls = s.diagCalls := rfl
@[simp] theorem State.openSession_held (s : State) : (s.openSession).held = s.held := rfl
@[simp] theorem State.openSession_draws (s : State) : (s.openSession).draws = s.draws := rfl
@[simp] theorem State.openSession_cfg (s : State) : (s.openSession).cfg = s.cfg := rfl

/-! ### `State.closeSession` -/

@[simp] theorem State.closeSession_dstate (s : State) : (s.closeSession).dstate = s.dstate := rfl
@[simp] theorem State.closeSession_pstate (s : State) : (s.closeSession).pstate = s.pstate := rfl
@[simp] theorem State.closeSession_fb (s : State) : (s.closeSession).fb = s.fb := rfl
@[simp] theorem State.closeSession_rxIdx (s : State) : (s.closeSession).rxIdx = s.rxIdx := rfl
@[simp] theorem State.closeSession_curOp (s : State) : (s.closeSession).curOp = s.curOp := rfl
@[simp] theorem State.closeSession_bwActive (s : State) : (s.closeSession).bwActive = false := rfl
@[simp] theorem State.closeSession_polls (s : State) : (s.closeSession).polls = s.polls := rfl
@[simp] theorem State.closeSession_timedOut (s : State) : (s.closeSession).timedOut = s.timedOut := rfl
@[simp] theorem State.closeSession_wdtArmed (s : State) : (s.closeSession).wdtArmed = s.wdtArmed := rfl
@[simp] theorem State.closeSession_lineCs (s : State) : (s.closeSession).lineCs = s.lineCs := rfl
@[simp] theorem State.closeSession_lineDc (s : State) : (s.closeSession).lineDc = s.lineDc := rfl
@[simp] theorem State.closeSession_lineRst (s : State) : (s.closeSession).lineRst = s.lineRst := rfl
@[simp] theorem State.closeSession_fault (s : State) : (s.closeSession).fault = s.fault := rfl
@[simp] theorem State.closeSession_lastResult (s : State) : (s.closeSession).lastResult = s.lastResult := rfl
@[simp] theorem State.closeSession_resetCause (s : State) : (s.closeSession).resetCause = s.resetCause := rfl
@[simp] theorem State.closeSession_seq (s : State) : (s.closeSession).seq = s.seq := rfl
@[simp] theorem State.closeSession_ctlReq (s : State) : (s.closeSession).ctlReq = s.ctlReq := rfl
@[simp] theorem State.closeSession_rx (s : State) : (s.closeSession).rx = s.rx := rfl
@[simp] theorem State.closeSession_busyIn (s : State) : (s.closeSession).busyIn = s.busyIn := rfl
@[simp] theorem State.closeSession_firstIn (s : State) : (s.closeSession).firstIn = s.firstIn := rfl
@[simp] theorem State.closeSession_env (s : State) : (s.closeSession).env = s.env := rfl
@[simp] theorem State.closeSession_trace (s : State) : (s.closeSession).trace = s.trace := rfl
@[simp] theorem State.closeSession_diag (s : State) : (s.closeSession).diag = s.diag := rfl
@[simp] theorem State.closeSession_diagCalls (s : State) : (s.closeSession).diagCalls = s.diagCalls := rfl
@[simp] theorem State.closeSession_held (s : State) : (s.closeSession).held = s.held := rfl
@[simp] theorem State.closeSession_draws (s : State) : (s.closeSession).draws = s.draws := rfl
@[simp] theorem State.closeSession_cfg (s : State) : (s.closeSession).cfg = s.cfg := rfl

/-! ### `State.readyExit` -/

@[simp] theorem State.readyExit_dstate (s : State) : (s.readyExit).dstate = s.dstate := rfl
@[simp] theorem State.readyExit_pstate (s : State) : (s.readyExit).pstate = s.pstate := rfl
@[simp] theorem State.readyExit_fb (s : State) : (s.readyExit).fb = s.fb := rfl
@[simp] theorem State.readyExit_rxIdx (s : State) : (s.readyExit).rxIdx = s.rxIdx := rfl
@[simp] theorem State.readyExit_curOp (s : State) : (s.readyExit).curOp = s.curOp := rfl
@[simp] theorem State.readyExit_bwActive (s : State) : (s.readyExit).bwActive = false := rfl
@[simp] theorem State.readyExit_polls (s : State) : (s.readyExit).polls = s.polls := rfl
@[simp] theorem State.readyExit_timedOut (s : State) : (s.readyExit).timedOut = false := rfl
@[simp] theorem State.readyExit_wdtArmed (s : State) : (s.readyExit).wdtArmed = s.wdtArmed := rfl
@[simp] theorem State.readyExit_lineCs (s : State) : (s.readyExit).lineCs = s.lineCs := rfl
@[simp] theorem State.readyExit_lineDc (s : State) : (s.readyExit).lineDc = s.lineDc := rfl
@[simp] theorem State.readyExit_lineRst (s : State) : (s.readyExit).lineRst = s.lineRst := rfl
@[simp] theorem State.readyExit_fault (s : State) : (s.readyExit).fault = s.fault := rfl
@[simp] theorem State.readyExit_lastResult (s : State) : (s.readyExit).lastResult = s.lastResult := rfl
@[simp] theorem State.readyExit_resetCause (s : State) : (s.readyExit).resetCause = s.resetCause := rfl
@[simp] theorem State.readyExit_seq (s : State) : (s.readyExit).seq = s.seq := rfl
@[simp] theorem State.readyExit_ctlReq (s : State) : (s.readyExit).ctlReq = s.ctlReq := rfl
@[simp] theorem State.readyExit_rx (s : State) : (s.readyExit).rx = s.rx := rfl
@[simp] theorem State.readyExit_busyIn (s : State) : (s.readyExit).busyIn = s.busyIn := rfl
@[simp] theorem State.readyExit_firstIn (s : State) : (s.readyExit).firstIn = s.firstIn := rfl
@[simp] theorem State.readyExit_env (s : State) : (s.readyExit).env = s.env := rfl
@[simp] theorem State.readyExit_trace (s : State) : (s.readyExit).trace = s.trace := rfl
@[simp] theorem State.readyExit_diag (s : State) : (s.readyExit).diag = s.diag := rfl
@[simp] theorem State.readyExit_diagCalls (s : State) : (s.readyExit).diagCalls = s.diagCalls := rfl
@[simp] theorem State.readyExit_held (s : State) : (s.readyExit).held = s.held := rfl
@[simp] theorem State.readyExit_draws (s : State) : (s.readyExit).draws = s.draws := rfl
@[simp] theorem State.readyExit_cfg (s : State) : (s.readyExit).cfg = s.cfg := rfl

/-! ### `State.ceilingExit` -/

@[simp] theorem State.ceilingExit_dstate (s : State) : (s.ceilingExit).dstate = s.dstate := rfl
@[simp] theorem State.ceilingExit_pstate (s : State) : (s.ceilingExit).pstate = s.pstate := rfl
@[simp] theorem State.ceilingExit_fb (s : State) : (s.ceilingExit).fb = s.fb := rfl
@[simp] theorem State.ceilingExit_rxIdx (s : State) : (s.ceilingExit).rxIdx = s.rxIdx := rfl
@[simp] theorem State.ceilingExit_curOp (s : State) : (s.ceilingExit).curOp = s.curOp := rfl
@[simp] theorem State.ceilingExit_bwActive (s : State) : (s.ceilingExit).bwActive = false := rfl
@[simp] theorem State.ceilingExit_polls (s : State) : (s.ceilingExit).polls = s.polls := rfl
@[simp] theorem State.ceilingExit_timedOut (s : State) : (s.ceilingExit).timedOut = s.timedOut := rfl
@[simp] theorem State.ceilingExit_wdtArmed (s : State) : (s.ceilingExit).wdtArmed = s.wdtArmed := rfl
@[simp] theorem State.ceilingExit_lineCs (s : State) : (s.ceilingExit).lineCs = s.lineCs := rfl
@[simp] theorem State.ceilingExit_lineDc (s : State) : (s.ceilingExit).lineDc = s.lineDc := rfl
@[simp] theorem State.ceilingExit_lineRst (s : State) : (s.ceilingExit).lineRst = s.lineRst := rfl
@[simp] theorem State.ceilingExit_fault (s : State) : (s.ceilingExit).fault = s.fault := rfl
@[simp] theorem State.ceilingExit_lastResult (s : State) : (s.ceilingExit).lastResult = s.lastResult := rfl
@[simp] theorem State.ceilingExit_resetCause (s : State) : (s.ceilingExit).resetCause = s.resetCause := rfl
@[simp] theorem State.ceilingExit_seq (s : State) : (s.ceilingExit).seq = s.seq := rfl
@[simp] theorem State.ceilingExit_ctlReq (s : State) : (s.ceilingExit).ctlReq = s.ctlReq := rfl
@[simp] theorem State.ceilingExit_rx (s : State) : (s.ceilingExit).rx = s.rx := rfl
@[simp] theorem State.ceilingExit_busyIn (s : State) : (s.ceilingExit).busyIn = s.busyIn := rfl
@[simp] theorem State.ceilingExit_firstIn (s : State) : (s.ceilingExit).firstIn = s.firstIn := rfl
@[simp] theorem State.ceilingExit_env (s : State) : (s.ceilingExit).env = s.env := rfl
@[simp] theorem State.ceilingExit_trace (s : State) : (s.ceilingExit).trace = s.trace := rfl
@[simp] theorem State.ceilingExit_diag (s : State) : (s.ceilingExit).diag = (s.diagnose (.busyTimeout s.polls)).diag := rfl
@[simp] theorem State.ceilingExit_diagCalls (s : State) : (s.ceilingExit).diagCalls = s.diagCalls + 1 := rfl
@[simp] theorem State.ceilingExit_held (s : State) : (s.ceilingExit).held = s.held := rfl
@[simp] theorem State.ceilingExit_draws (s : State) : (s.ceilingExit).draws = s.draws := rfl
@[simp] theorem State.ceilingExit_cfg (s : State) : (s.ceilingExit).cfg = s.cfg := rfl

/-! ### `State.afterChoice` -/

@[simp] theorem State.afterChoice_dstate (s : State) : (s.afterChoice).dstate = s.dstate := by
  unfold State.afterChoice; cases s.firstIn <;> simp
@[simp] theorem State.afterChoice_pstate (s : State) : (s.afterChoice).pstate = s.pstate := by
  unfold State.afterChoice; cases s.firstIn <;> simp
@[simp] theorem State.afterChoice_fb (s : State) : (s.afterChoice).fb = s.fb := by
  unfold State.afterChoice; cases s.firstIn <;> simp
@[simp] theorem State.afterChoice_rxIdx (s : State) : (s.afterChoice).rxIdx = s.rxIdx := by
  unfold State.afterChoice; cases s.firstIn <;> simp
@[simp] theorem State.afterChoice_curOp (s : State) : (s.afterChoice).curOp = s.curOp := by
  unfold State.afterChoice; cases s.firstIn <;> simp
@[simp] theorem State.afterChoice_bwActive (s : State) : (s.afterChoice).bwActive = s.bwActive := by
  unfold State.afterChoice; cases s.firstIn <;> simp
@[simp] theorem State.afterChoice_polls (s : State) : (s.afterChoice).polls = s.polls := by
  unfold State.afterChoice; cases s.firstIn <;> simp
@[simp] theorem State.afterChoice_timedOut (s : State) : (s.afterChoice).timedOut = s.timedOut := by
  unfold State.afterChoice; cases s.firstIn <;> simp
@[simp] theorem State.afterChoice_wdtArmed (s : State) : (s.afterChoice).wdtArmed = s.wdtArmed := by
  unfold State.afterChoice; cases s.firstIn <;> simp
@[simp] theorem State.afterChoice_lineCs (s : State) : (s.afterChoice).lineCs = s.lineCs := by
  unfold State.afterChoice; cases s.firstIn <;> simp
@[simp] theorem State.afterChoice_lineDc (s : State) : (s.afterChoice).lineDc = s.lineDc := by
  unfold State.afterChoice; cases s.firstIn <;> simp
@[simp] theorem State.afterChoice_lineRst (s : State) : (s.afterChoice).lineRst = s.lineRst := by
  unfold State.afterChoice; cases s.firstIn <;> simp
@[simp] theorem State.afterChoice_fault (s : State) : (s.afterChoice).fault = s.fault := by
  unfold State.afterChoice; cases s.firstIn <;> simp
@[simp] theorem State.afterChoice_lastResult (s : State) : (s.afterChoice).lastResult = s.lastResult := by
  unfold State.afterChoice; cases s.firstIn <;> simp
@[simp] theorem State.afterChoice_resetCause (s : State) : (s.afterChoice).resetCause = s.resetCause := by
  unfold State.afterChoice; cases s.firstIn <;> simp
@[simp] theorem State.afterChoice_seq (s : State) : (s.afterChoice).seq = s.seq := by
  unfold State.afterChoice; cases s.firstIn <;> simp
@[simp] theorem State.afterChoice_ctlReq (s : State) : (s.afterChoice).ctlReq = s.ctlReq := by
  unfold State.afterChoice; cases s.firstIn <;> simp
@[simp] theorem State.afterChoice_rx (s : State) : (s.afterChoice).rx = s.rx := by
  unfold State.afterChoice; cases s.firstIn <;> simp
@[simp] theorem State.afterChoice_busyIn (s : State) : (s.afterChoice).busyIn = s.busyIn := by
  unfold State.afterChoice; cases s.firstIn <;> simp
@[simp] theorem State.afterChoice_firstIn (s : State) : (s.afterChoice).firstIn = s.firstIn.tail := by
  unfold State.afterChoice; cases s.firstIn <;> simp
@[simp] theorem State.afterChoice_env (s : State) : (s.afterChoice).env = s.env := by
  unfold State.afterChoice; cases s.firstIn <;> simp
@[simp] theorem State.afterChoice_trace (s : State) : (s.afterChoice).trace = s.trace := by
  unfold State.afterChoice; cases s.firstIn <;> simp
@[simp] theorem State.afterChoice_diag (s : State) : (s.afterChoice).diag = s.diag := by
  unfold State.afterChoice; cases s.firstIn <;> simp
@[simp] theorem State.afterChoice_diagCalls (s : State) : (s.afterChoice).diagCalls = s.diagCalls := by
  unfold State.afterChoice; cases s.firstIn <;> simp
@[simp] theorem State.afterChoice_held (s : State) : (s.afterChoice).held = s.held := by
  unfold State.afterChoice; cases s.firstIn <;> simp
@[simp] theorem State.afterChoice_draws (s : State) : (s.afterChoice).draws = s.draws + (1 - s.firstIn.length) := by
  unfold State.afterChoice; cases s.firstIn <;> simp
@[simp] theorem State.afterChoice_cfg (s : State) : (s.afterChoice).cfg = s.cfg := by
  unfold State.afterChoice; cases s.firstIn <;> simp

end Sys2Proof.Machine
end

