-- ==== Sys2Proof/Laws/Store.lean ====
section
/-! SUPPORT. The laws of the framebuffer store (20_memory.md R61, R65, R72): a read sees the last write to its cell, a
write leaves every other cell, and every write keeps the canonical form. -/

namespace Sys2Proof.Machine

@[simp] theorem Store.read_nil (i : Nat) : Store.read [] i = none := rfl

theorem Store.read_write_same (fb : Store) (i : Nat) (b : Byte) :
    Store.read (Store.write fb i b) i = some b := by
  induction fb with
  | nil => simp [Store.write, Store.read]
  | cons c rest ih =>
    obtain ⟨j, d⟩ := c
    simp only [Store.write]
    split
    · simp [Store.read]
    · split
      · simp [Store.read]
      · next h => simp [Store.read, h, ih]

theorem Store.read_write_other (fb : Store) (i k : Nat) (b : Byte) (h : k ≠ i) :
    Store.read (Store.write fb i b) k = Store.read fb k := by
  induction fb with
  | nil => simp [Store.write, Store.read, h]
  | cons c rest ih =>
    obtain ⟨j, d⟩ := c
    simp only [Store.write]
    split
    · simp [Store.read, h]
    · split
      · next hij => subst hij; simp [Store.read, h]
      · simp [Store.read, ih]

/-- One equation for both cases. -/
theorem Store.read_write (fb : Store) (i k : Nat) (b : Byte) :
    Store.read (Store.write fb i b) k = if k = i then some b else Store.read fb k := by
  split
  · next h => subst h; exact Store.read_write_same fb k b
  · next h => exact Store.read_write_other fb i k b h

theorem Store.risesFrom_mono {fb : Store} {m n : Nat} (h : Store.risesFrom n fb = true) (hmn : m ≤ n) :
    Store.risesFrom m fb = true := by
  cases fb with
  | nil => rfl
  | cons c rest =>
    obtain ⟨j, d⟩ := c
    simp only [Store.risesFrom, Bool.and_eq_true, decide_eq_true_eq] at h ⊢
    exact ⟨by omega, h.2⟩

theorem Store.write_risesFrom (fb : Store) (n i : Nat) (b : Byte) (h : Store.risesFrom n fb = true)
    (hi : n ≤ i) : Store.risesFrom n (Store.write fb i b) = true := by
  induction fb generalizing n with
  | nil => simp [Store.write, Store.risesFrom, hi]
  | cons c rest ih =>
    obtain ⟨j, d⟩ := c
    simp only [Store.risesFrom, Bool.and_eq_true, decide_eq_true_eq] at h
    simp only [Store.write]
    split
    · simp only [Store.risesFrom, Bool.and_eq_true, decide_eq_true_eq]
      exact ⟨hi, by omega, h.2⟩
    · split
      · next hij => subst hij; simpa [Store.risesFrom] using h
      · simp only [Store.risesFrom, Bool.and_eq_true, decide_eq_true_eq]
        exact ⟨h.1, ih (j + 1) h.2 (by omega)⟩

/-- A write keeps the canonical form. -/
theorem Memory.wf_write (fb : Store) (i : Nat) (b : Byte) (h : Memory.wf fb = true) :
    Memory.wf (Store.write fb i b) = true :=
  Store.write_risesFrom fb 0 i b h (Nat.zero_le i)

@[simp] theorem Memory.wf_nil : Memory.wf [] = true := rfl

@[simp] theorem Store.within_nil (n : Nat) : Store.within [] n = true := rfl

/-- A write to a cell keeps the listed cells inside the store. -/
theorem Store.within_write (fb : Store) (n i : Nat) (b : Byte) (h : Store.within fb n = true) (hi : i < n) :
    Store.within (Store.write fb i b) n = true := by
  induction fb with
  | nil => simp [Store.write, Store.within, hi]
  | cons c rest ih =>
    obtain ⟨j, d⟩ := c
    simp only [Store.within, List.all_cons, Bool.and_eq_true, decide_eq_true_eq] at h ih
    simp only [Store.write]
    split
    · simp [Store.within, hi, h.1]; simpa using h.2
    · split
      · simp [Store.within, hi]; simpa using h.2
      · simp only [Store.within, List.all_cons, Bool.and_eq_true, decide_eq_true_eq]
        exact ⟨h.1, ih h.2⟩

/-- A cell outside the listed range reads as `UNWRITTEN`. -/
theorem Store.read_of_not_within {fb : Store} {n i : Nat} (h : Store.within fb n = true) (hi : n ≤ i) :
    Store.read fb i = none := by
  induction fb with
  | nil => rfl
  | cons c rest ih =>
    obtain ⟨j, d⟩ := c
    simp only [Store.within, List.all_cons, Bool.and_eq_true, decide_eq_true_eq] at h ih
    have : i ≠ j := by omega
    simp [Store.read, this, ih h.2]

/-- Two canonical stores that read alike are the same data. -/
theorem Store.read_low {fb : Store} {n i : Nat} (h : Store.risesFrom n fb = true) (hi : i < n) :
    Store.read fb i = none := by
  induction fb generalizing n with
  | nil => rfl
  | cons c rest ih =>
    obtain ⟨j, d⟩ := c
    simp only [Store.risesFrom, Bool.and_eq_true, decide_eq_true_eq] at h
    have : i ≠ j := by omega
    simp [Store.read, this, ih h.2 (by omega)]

theorem Store.ext_of_read {a b : Store} {n : Nat} (ha : Store.risesFrom n a = true)
    (hb : Store.risesFrom n b = true) (h : ∀ i, Store.read a i = Store.read b i) : a = b := by
  induction a generalizing b n with
  | nil =>
    cases b with
    | nil => rfl
    | cons c rest => have := h c.1; simp [Store.read] at this
  | cons c rest ih =>
    obtain ⟨j, d⟩ := c
    simp only [Store.risesFrom, Bool.and_eq_true, decide_eq_true_eq] at ha
    cases b with
    | nil => have := h j; simp [Store.read] at this
    | cons c' rest' =>
      obtain ⟨j', d'⟩ := c'
      simp only [Store.risesFrom, Bool.and_eq_true, decide_eq_true_eq] at hb
      have hj : j = j' := by
        rcases Nat.lt_trichotomy j j' with hlt | heq | hgt
        · have := h j
          simp [Store.read, Nat.ne_of_lt hlt, Store.read_low hb.2 (by omega : j < j' + 1)] at this
        · exact heq
        · have := h j'
          simp [Store.read, Nat.ne_of_lt hgt, Store.read_low ha.2 (by omega : j' < j + 1)] at this
      subst hj
      have hd : d = d' := by have := h j; simpa [Store.read] using this
      subst hd
      congr 1
      refine ih ha.2 hb.2 fun i => ?_
      by_cases hi : i = j
      · subst hi
        rw [Store.read_low ha.2 (by omega), Store.read_low hb.2 (by omega)]
      · have := h i
        simpa [Store.read, hi] using this

end Sys2Proof.Machine
end

