-- ==== Sys2Proof/Laws/Run.lean ====
section
/-! SUPPORT. What running a sequence of elementary steps does: how a sequence splits, and what the lowest operations
leave while the environment is quiet. Later proofs cite these and unfold no `walk`. -/

namespace Sys2Proof.Machine

/-- The environment has nothing scheduled. -/
theorem State.moment_of_quiet {s : State} (h : s.env = []) : s.moment = .pass s := by
  unfold State.moment; rw [h]

theorem State.primitive_of_quiet {s : State} (h : s.env = []) (f : State → Flow) :
    s.primitive f = f s := by
  unfold State.primitive; rw [State.moment_of_quiet h]

/-- The rest of a sequence runs from where its beginning got to. -/
theorem walk_append (p : Seq) (a b : List Micro) (s : State) :
    walk p (a ++ b) s =
      match walk p a s with
      | .done t => walk (placeAll a p s) b t
      | .held q t => .held q t
      | .gone t => .gone t
      | .fault r => .fault r := by
  induction a generalizing p s with
  | nil => simp [walk, placeAll]
  | cons m ms ih =>
    simp only [List.cons_append, walk]
    cases hx : m.exec s with
    | go t => simp only [ih, placeAll, hx]
    | hold t => rfl
    | gone t => rfl
    | fault r => rfl

theorem walk_append_done {p : Seq} {a b : List Micro} {s t : State} (h : walk p a s = .done t) :
    walk p (a ++ b) s = walk (placeAll a p s) b t := by
  rw [walk_append, h]

theorem walk_cons_go {p : Seq} {m : Micro} {ms : List Micro} {s t : State} (h : m.exec s = .go t) :
    walk p (m :: ms) s = walk (m.place s p) ms t := by
  simp [walk, h]

theorem run_done {p : Seq} {ms : List Micro} {s t : State} (h : walk p ms s = .done t) :
    run p ms s = .next { t with seq := Seq.main } := by
  simp [run, h]

theorem walk_call (p : Seq) (op : Operation) (ms : List Micro) (s : State) :
    walk p (.call op :: ms) s = walk (p.enter op) ms s := rfl

/-- A call does what its operation does. -/
theorem walk_callCode {p : Seq} {op : Operation} {ms : List Micro} {s t : State}
    (h : walk (p.enter op) ms s = .done t) : walk p (callCode op ms) s = .done t := by
  rw [callCode, List.cons_append, walk_call, walk_append_done h]
  rfl

/-! ### The elementary steps that are no primitives -/

theorem walk_setPState (n : Seq) (p : PState) (ms : List Micro) (s : State) :
    walk n (.setPState p :: ms) s = walk n ms { s with pstate := p } := rfl

theorem walk_setDState (n : Seq) (d : DState) (ms : List Micro) (s : State) :
    walk n (.setDState d :: ms) s = walk n ms { s with dstate := d } := rfl

theorem walk_setCurOp (n : Seq) (o : CurOp) (ms : List Micro) (s : State) :
    walk n (.setCurOp o :: ms) s = walk n ms { s with curOp := o } := rfl

theorem walk_setResult (n : Seq) (r : DisplayResult) (ms : List Micro) (s : State) :
    walk n (.setResult r :: ms) s = walk n ms { s with lastResult := r } := rfl

theorem walk_startPayload (n : Seq) (ms : List Micro) (s : State) :
    walk n (.startPayload :: ms) s = walk n ms { s with rxIdx := 0 } := rfl

theorem walk_takeRequest (n : Seq) (ms : List Micro) (s : State) :
    walk n (.takeRequest :: ms) s = walk n ms { s with ctlReq := none } := rfl

theorem walk_openSession (n : Seq) (ms : List Micro) (s : State) :
    walk n (.openSession :: ms) s = walk n ms s.openSession := rfl

theorem walk_closeSession (n : Seq) (ms : List Micro) (s : State) :
    walk n (.closeSession :: ms) s = walk n ms s.closeSession := rfl

theorem walk_enter_valid {op : PanelOp} {s : State} (h : validIn op s.pstate = true) (n : Seq)
    (ms : List Micro) : walk n (.enter op :: ms) s = walk n ms s := by
  simp only [walk, Micro.exec, h]
  rfl

theorem walk_enter_invalid {op : PanelOp} {s : State} (hq : s.env = []) (h : validIn op s.pstate = false) (n : Seq)
    (ms : List Micro) :
    walk n (.enter op :: ms) s = .held n (s.takeFault (invalidPanelState op s.pstate)) := by
  simp [walk, Micro.exec, h, State.primitive_of_quiet hq]

/-! ### The lowest operations while the environment is quiet -/

/-- The state after a framed byte: DC at its level, CS back at 1, the four events recorded (R100, R101). -/
def State.afterByte (s : State) (dc : Bit) (b : Byte) : State :=
  (((s.setLine .dc dc).setLine .cs 0).spiWrite b).setLine .cs 1

theorem State.afterByte_eq (s : State) (dc : Bit) (b : Byte) :
    s.afterByte dc b =
      { s with
        lineDc := .driven dc
        lineCs := .driven 1
        trace := .line .cs 1 :: .spi b :: .line .cs 0 :: .line .dc dc :: s.trace } := by
  simp [State.afterByte, State.setLine, State.emit, State.spiWrite]

theorem walk_cmd {s : State} (h : s.env = []) (n : Seq) (b : Byte) :
    walk n (cmdCode b) s = .done (s.afterByte 0 b) := by
  simp [cmdCode, walk, Micro.exec, State.primitive_of_quiet, h, State.afterByte]

theorem walk_data {s : State} (h : s.env = []) (n : Seq) (b : Byte) :
    walk n (dataCode b) s = .done (s.afterByte 1 b) := by
  simp [dataCode, walk, Micro.exec, State.primitive_of_quiet, h, State.afterByte]

/-- The state after a run of framed data bytes: nothing for none (R103). -/
def State.afterData (s : State) (ds : List Byte) : State :=
  { s with
    lineDc := if ds = [] then s.lineDc else .driven 1
    lineCs := if ds = [] then s.lineCs else .driven 1
    trace := (ds.flatMap evD).reverse ++ s.trace }

@[simp] theorem State.afterData_nil (s : State) : s.afterData [] = s := rfl

theorem State.afterData_cons (s : State) (b : Byte) (ds : List Byte) :
    s.afterData (b :: ds) = (s.afterByte 1 b).afterData ds := by
  cases ds <;> simp [State.afterData, State.afterByte_eq, evD]

theorem walk_dataRun {s : State} (h : s.env = []) (n : Seq) (ds : List Byte) :
    walk n (ds.flatMap fun b => callCode .data (dataCode b)) s = .done (s.afterData ds) := by
  induction ds generalizing n s with
  | nil => simp [walk]
  | cons b ds ih =>
    rw [List.flatMap_cons, walk_append_done (walk_callCode (walk_data h _ b)), ih (by simpa [State.afterByte_eq] using h),
      State.afterData_cons]

theorem State.sent_eq (s : State) (command : Byte) (ds : List Byte) :
    s.sent command ds = (s.afterByte 0 command).afterData ds := by
  by_cases hd : ds = [] <;> simp [State.sent, State.afterData, State.afterByte_eq, evSend, evC, hd]

theorem walk_send {s : State} (h : s.env = []) (n : Seq) (command : Byte) (ds : List Byte) :
    walk n (sendCode command ds) s = .done (s.sent command ds) := by
  rw [sendCode, walk_append_done (walk_callCode (walk_cmd h _ command)), walk_dataRun (by simpa [State.afterByte_eq] using h),
    State.sent_eq]

theorem State.afterByte_command (s : State) (command : Byte) :
    s.afterByte 0 command = s.sent command [] := by
  simp [State.sent_eq]

theorem walk_wait {s : State} (h : s.env = []) (n : Seq) (ms : Nat) :
    walk n (waitCode ms) s = .done (s.record (evWait ms)) := by
  simp [waitCode, callCode, walk, Micro.exec, State.primitive_of_quiet, h, State.record, evWait, State.feedWatchdog,
    State.wait, State.emit]

theorem walk_pulse {s : State} (h : s.env = []) (n : Seq) (c : Cfg) :
    walk n (pulseCode c) s = .done { s.record (evPulse c) with lineRst := .driven 1 } := by
  simp [pulseCode, waitCode, callCode, walk, Micro.exec, State.primitive_of_quiet, h, State.record, evPulse, evWait,
    State.feedWatchdog, State.wait, State.emit, State.setLine]

theorem walk_planeConst {s : State} (h : s.env = []) (n : Seq) (c : Cfg) (p : Plane) (b : Byte) :
    walk n (planeCode c p (.const b)) s =
      .done (s.sent (planeCommand c p) (List.replicate c.planeSize b)) :=
  walk_send h n (planeCommand c p) (List.replicate c.planeSize b)

/-! ### Plane writes from the store -/

/-- The state after the data bytes of the cells listed. -/
def State.afterCells (s : State) (is : List Nat) : State :=
  { s.afterData (cellBytes s.fb s.draws is) with
    held := ((cellBytes s.fb s.draws is).getLast?).getD s.held
    draws := s.draws + unwrittenIn s.fb is }

theorem cellBytes_length (fb : Store) (draws : Nat) (is : List Nat) :
    (cellBytes fb draws is).length = is.length := by
  induction is generalizing draws with
  | nil => rfl
  | cons i is ih =>
    simp only [cellBytes]
    split <;> simp [ih]

theorem walk_cell {s : State} (h : s.env = []) (n : Seq) (i : Nat) (hi : i < s.cfg.payloadLen) :
    walk n (cellCode i) s = .done ((s.memRead i).afterByte 1 (s.memRead i).held) := by
  have h1 : (s.memRead i).env = [] := by simp [h]
  simp [cellCode, callCode, walk, Micro.exec, State.primitive_of_quiet, h, readCell, hi, State.afterByte]

theorem State.afterCells_cons (s : State) (i : Nat) (is : List Nat) :
    s.afterCells (i :: is) = ((s.memRead i).afterByte 1 (s.memRead i).held).afterCells is := by
  cases hr : Store.read s.fb i with
  | none =>
    simp [State.afterCells, State.memRead, hr, cellBytes, unwrittenIn, State.afterData, State.afterByte_eq, evD,
      List.getLast?_cons, Nat.add_assoc, Nat.add_comm 1]
  | some b =>
    simp [State.afterCells, State.memRead, hr, cellBytes, unwrittenIn, State.afterData, State.afterByte_eq, evD,
      List.getLast?_cons]

theorem walk_cells {s : State} (h : s.env = []) (n : Seq) (is : List Nat)
    (hi : ∀ i ∈ is, i < s.cfg.payloadLen) : walk n (is.flatMap cellCode) s = .done (s.afterCells is) := by
  induction is generalizing n s with
  | nil => simp [walk, State.afterCells, cellBytes, unwrittenIn]
  | cons i is ih =>
    rw [List.flatMap_cons, walk_append_done (walk_cell h n i (hi i (by simp))), State.afterCells_cons]
    exact ih (by simpa [State.afterByte_eq] using h) _
      fun j hj => by simpa [State.afterByte_eq] using hi j (by simp [hj])

/-! ### The busy wait -/

theorem State.sampleAt_zero (s : State) : s.sampleAt 0 = s.nextBusy := by
  unfold State.sampleAt State.nextBusy
  cases s.busyIn <;> simp

/-- The samples after the first are those of the state that has taken it. -/
theorem State.sampleAt_succ (s t : State) (j : Nat) (hb : t.busyIn = s.busyIn.tail)
    (hd : t.draws = s.draws + (1 - s.busyIn.length)) : t.sampleAt j = s.sampleAt (j + 1) := by
  unfold State.sampleAt
  rw [hb, hd]
  cases hs : s.busyIn with
  | nil => simp [Nat.add_comm 1, Nat.add_assoc]
  | cons v vs => simp

/-- With the session over, the rest of the poll loop is skipped (R153: "ends the loop at once"). -/
theorem walk_polls_closed {s : State} (hb : s.bwActive = false) (n : Seq) (k : Nat) :
    walk n (List.replicate k pollCode).flatten s = .done s := by
  induction k generalizing n with
  | zero => simp [walk]
  | succ k ih =>
    rw [List.replicate_succ, List.flatten_cons]
    have h3 : walk n pollCode s = .done s := by
      simp [pollCode, walk, Micro.exec, State.polling, State.atCeiling, hb]
    rw [walk_append_done h3, ih]

/-- The state one poll of an open session leaves when the loop goes on (R152). -/
def State.polledOn (s : State) : State :=
  { s with
    polls := s.polls + 1
    busyIn := s.busyIn.tail
    draws := s.draws + (1 - s.busyIn.length)
    trace := .delay s.cfg.pollMs :: .busy s.nextBusy :: .feed :: s.trace }

/-- The diagnostic trace after the calls of `Diag` listed, from `old` after `n` calls (R215). -/
def linesFrom (n : Nat) (old : List Diag) : List Diag → List Diag
  | [] => old
  | d :: ds => linesFrom (n + 1) (if Config.lineEmitted n then d :: old else old) ds

@[simp] theorem linesFrom_nil (n : Nat) (old : List Diag) : linesFrom n old [] = old := rfl

theorem linesFrom_append (n : Nat) (old : List Diag) (a b : List Diag) :
    linesFrom n old (a ++ b) = linesFrom (n + a.length) (linesFrom n old a) b := by
  induction a generalizing n old with
  | nil => rfl
  | cons d a ih => simp only [List.cons_append, linesFrom, ih, List.length_cons, Nat.add_assoc, Nat.add_comm 1]

/-- Calls of `Diag` change the diagnostic trace and the count of calls alone. -/
theorem State.said_eq (s : State) (ds : List Diag) :
    s.said ds = { s with diag := linesFrom s.diagCalls s.diag ds, diagCalls := s.diagCalls + ds.length } := by
  induction ds generalizing s with
  | nil => rfl
  | cons d ds ih =>
    rw [State.said_cons, ih]
    simp [State.diagnose, linesFrom, Nat.add_assoc, Nat.add_comm 1]

/-- The state the last poll of a session leaves (R153, R154). -/
def State.polledOut (s : State) (late : Bool) : State :=
  { s.said (diagOfWait (s.polls + 1) late) with
    polls := s.polls + 1
    bwActive := false
    timedOut := late
    busyIn := s.busyIn.tail
    draws := s.draws + (1 - s.busyIn.length)
    trace := .busy s.nextBusy :: .feed :: s.trace }

theorem State.sampleBusy_eq (s : State) :
    s.sampleBusy =
      { s with
        busyIn := s.busyIn.tail
        draws := s.draws + (1 - s.busyIn.length)
        trace := .busy s.nextBusy :: s.trace } := by
  unfold State.sampleBusy State.nextBusy
  cases h : s.busyIn <;> simp

theorem walk_poll_on {s : State} (h : s.env = []) (hb : s.bwActive = true)
    (hv : s.nextBusy = s.cfg.busyActive) (hp : s.polls + 1 < s.cfg.busyMaxPolls) (n : Seq) :
    walk n pollCode s = .done s.polledOn := by
  have hn : s.feedWatchdog.nextBusy = s.nextBusy := rfl
  have h1 : s.polls < s.cfg.busyMaxPolls := by omega
  have h2 : s.polls + 1 ≠ s.cfg.busyMaxPolls := by omega
  simp [pollCode, walk, Micro.exec, State.primitive_of_quiet, h, hb, State.polling, State.atCeiling, h1, hp, h2,
    State.poll, State.sampleBusy_eq, hn, hv, State.polledOn, State.wait, State.emit]

theorem walk_poll_ready {s : State} (h : s.env = []) (hb : s.bwActive = true)
    (hv : s.nextBusy ≠ s.cfg.busyActive) (hp : s.polls < s.cfg.busyMaxPolls) (n : Seq) :
    walk n pollCode s = .done (s.polledOut false) := by
  have hn : s.feedWatchdog.nextBusy = s.nextBusy := rfl
  simp [pollCode, walk, Micro.exec, State.primitive_of_quiet, h, hb, State.polling, State.atCeiling, hp, State.poll,
    State.sampleBusy_eq, hn, hv, State.polledOut, State.readyExit, diagOfWait]

theorem walk_poll_late {s : State} (h : s.env = []) (hb : s.bwActive = true)
    (hv : s.nextBusy = s.cfg.busyActive) (hp : s.polls + 1 = s.cfg.busyMaxPolls) (n : Seq) :
    walk n pollCode s = .done (s.polledOut true) := by
  have hn : s.feedWatchdog.nextBusy = s.nextBusy := rfl
  have h1 : s.polls < s.cfg.busyMaxPolls := by omega
  simp [pollCode, walk, Micro.exec, State.primitive_of_quiet, h, hb, State.polling, State.atCeiling, h1, State.poll,
    State.sampleBusy_eq, hn, hv, hp, State.polledOut, State.ceilingExit, diagOfWait, State.diagnose]

/-- The state a poll loop of `k` samples leaves (R150 to R154). -/
def State.afterPolls (s : State) (k : Nat) (late : Bool) : State :=
  { s.said (diagOfWait (s.polls + k) late) with
    polls := s.polls + k
    bwActive := false
    timedOut := late
    busyIn := s.busyIn.drop k
    draws := s.draws + (k - s.busyIn.length)
    trace := ((List.replicate (k - 1) s.cfg.busyActive).flatMap (evPoll s.cfg)
      ++ [Event.feed, Event.busy (s.sampleAt (k - 1))]).reverse ++ s.trace }

theorem State.afterPolls_one (s : State) (late : Bool) : s.afterPolls 1 late = s.polledOut late := by
  simp [State.afterPolls, State.polledOut, State.sampleAt_zero]

theorem State.afterPolls_succ (s : State) (k : Nat) (late : Bool) (hk : 1 ≤ k)
    (hv : s.nextBusy = s.cfg.busyActive) : s.polledOn.afterPolls k late = s.afterPolls (k + 1) late := by
  obtain ⟨k, rfl⟩ : ∃ m, k = m + 1 := ⟨k - 1, by omega⟩
  have hs : s.polledOn.sampleAt k = s.sampleAt (k + 1) := State.sampleAt_succ s _ k rfl rfl
  have hd : s.draws + (1 - s.busyIn.length) + (k + 1 - (s.busyIn.length - 1))
      = s.draws + (k + 1 + 1 - s.busyIn.length) := by omega
  simp only [State.afterPolls, State.said_eq, Nat.add_sub_cancel, hs]
  simp [State.polledOn, hv, hd, List.replicate_succ, evPoll, Nat.add_assoc, Nat.add_comm 1]

/-- The poll loop of an open session with `p` polls behind it and `k` to come, of `m` written out (R158). -/
theorem walk_polls {s : State} (h : s.env = []) (hb : s.bwActive = true) {k m : Nat} {late : Bool}
    (hk : 1 ≤ k) (hm : k ≤ m) (hp : s.polls + k ≤ s.cfg.busyMaxPolls)
    (hon : ∀ j, j < k - 1 → s.sampleAt j = s.cfg.busyActive)
    (hend : if late then s.polls + k = s.cfg.busyMaxPolls ∧ s.sampleAt (k - 1) = s.cfg.busyActive
      else s.sampleAt (k - 1) ≠ s.cfg.busyActive) (n : Seq) :
    walk n (List.replicate m pollCode).flatten s = .done (s.afterPolls k late) := by
  induction k generalizing s n m with
  | zero => omega
  | succ k ih =>
    obtain ⟨m, rfl⟩ : ∃ l, m = l + 1 := ⟨m - 1, by omega⟩
    rw [List.replicate_succ, List.flatten_cons]
    by_cases hk0 : k = 0
    · subst hk0
      simp only [Nat.add_sub_cancel, State.sampleAt_zero] at hend
      have h1 : walk n pollCode s = .done (s.polledOut late) := by
        cases late with
        | false => exact walk_poll_ready h hb (by simpa using hend) (by omega) n
        | true =>
          have hend : s.polls + 1 = s.cfg.busyMaxPolls ∧ s.nextBusy = s.cfg.busyActive := by simpa using hend
          exact walk_poll_late h hb hend.2 hend.1 n
      rw [walk_append_done h1, walk_polls_closed rfl, State.afterPolls_one]
    · have hv : s.nextBusy = s.cfg.busyActive := by
        rw [← State.sampleAt_zero]; exact hon 0 (by omega)
      have h1 := walk_poll_on h hb hv (by omega) n
      have hs : ∀ j, s.polledOn.sampleAt j = s.sampleAt (j + 1) := fun j => State.sampleAt_succ s _ j rfl rfl
      rw [walk_append_done h1, ih (s := s.polledOn) h hb (by omega) (by omega)
        (by simp only [State.polledOn]; omega)
        (fun j hj => by rw [hs]; exact hon (j + 1) (by omega))
        (by
          rw [hs, show k - 1 + 1 = k + 1 - 1 by omega]
          cases late with
          | false => simpa [State.polledOn] using hend
          | true =>
            have hend : s.polls + (k + 1) = s.cfg.busyMaxPolls ∧ s.sampleAt (k + 1 - 1) = s.cfg.busyActive := by
              simpa using hend
            simp only [State.polledOn, if_true]
            exact ⟨by omega, hend.2⟩),
        State.afterPolls_succ s k late (by omega) hv]

/-- The state a busy wait leaves (R150): what `State.waited` says, the lines as CMD leaves them, and its trace. -/
def State.afterBusyWait (s : State) (k : Nat) (late : Bool) : State :=
  { s.waited k late with
    lineDc := .driven 0
    lineCs := .driven 1
    trace := (evWaitOf s k).reverse ++ s.trace }

theorem State.sampleAt_congr (s t : State) (j : Nat) (hb : t.busyIn = s.busyIn) (hd : t.draws = s.draws) :
    t.sampleAt j = s.sampleAt j := by
  unfold State.sampleAt; rw [hb, hd]

/-- BusyWait's sequence, from a panel state it is valid in (R150). -/
theorem walk_busyWait {s : State} (h : s.env = []) (hv : validIn .busyWait s.pstate = true) {k : Nat} {late : Bool}
    (he : BusyEnds s k late) (n : Seq) :
    walk n (busyWaitCode s.cfg) s = .done (s.afterBusyWait k late) := by
  obtain ⟨h1, h2, h3, h4⟩ := he
  have hs : ∀ j, (s.afterByte 0 s.cfg.cmdFlg).openSession.sampleAt j = s.sampleAt j :=
    fun j => State.sampleAt_congr _ _ j (by simp [State.afterByte_eq]) (by simp [State.afterByte_eq])
  have hp : ∀ n : Seq, walk n (List.replicate s.cfg.busyMaxPolls pollCode).flatten
      (s.afterByte 0 s.cfg.cmdFlg).openSession = .done ((s.afterByte 0 s.cfg.cmdFlg).openSession.afterPolls k late) := by
    refine walk_polls (by simpa [State.afterByte_eq] using h) (by simp) h1 h2
      (by simpa [State.afterByte_eq] using h2) (fun j hj => ?_) ?_
    · rw [hs, h3 j hj]; simp [State.afterByte_eq]
    · rw [hs]; simpa [State.afterByte_eq] using h4
  have he : Micro.exec (.enter .busyWait) s = .go s := by simp [Micro.exec, hv]
  have hq : ((s.afterByte 0 s.cfg.cmdFlg).openSession.afterPolls k late).closeSession.env = [] := by
    simpa [State.afterPolls, State.afterByte_eq] using h
  rw [busyWaitCode]
  simp only [List.cons_append, List.append_assoc]
  rw [walk_cons_go he, flgCode, walk_append_done (walk_callCode (walk_cmd h _ _))]
  rw [walk_cons_go (t := (s.afterByte 0 s.cfg.cmdFlg).openSession) (by simp only [Micro.exec]), walk_append_done (hp _),
    walk_cons_go (m := .pollExit) rfl, walk_cons_go (t := ((s.afterByte 0 s.cfg.cmdFlg).openSession.afterPolls k late).closeSession)
      (by simp only [Micro.exec]), walk_wait hq]
  simp [State.afterPolls, State.afterBusyWait, State.waited, State.record, State.said_eq, evWaitOf, evBusyWait,
    State.closeSession, State.openSession, State.afterByte_eq, evC]
  exact State.sampleAt_congr _ _ _ rfl rfl

end Sys2Proof.Machine
end

