-- ==== Sys2Proof/Laws/Operations.lean ====
section
/-! SUPPORT. Where the sequence of each panel operation and host command gets to while the environment is quiet: one
lemma per operation, over the state it starts in and, where it waits for the panel, over how that wait ends. -/

namespace Sys2Proof.Machine

/-! ### Refresh (R126) -/

/-- The state Refresh leaves. -/
def State.afterRefresh (s : State) (k : Nat) (late : Bool) : State :=
  { s.waited k late with
    pstate := .idle
    lineDc := .driven 0
    lineCs := .driven 1
    trace := (evC s.cfg.cmdDrf ++ evWaitOf s k).reverse ++ s.trace }

theorem BusyEnds.congr {s t : State} {k : Nat} {late : Bool} (h : BusyEnds s k late) (hb : t.busyIn = s.busyIn)
    (hd : t.draws = s.draws) (hc : t.cfg = s.cfg) : BusyEnds t k late := by
  have hs : ∀ j, t.sampleAt j = s.sampleAt j := fun j => State.sampleAt_congr s t j hb hd
  simpa only [BusyEnds, hs, hc] using h

theorem evWaitOf_congr {s t : State} (k : Nat) (hb : t.busyIn = s.busyIn) (hd : t.draws = s.draws)
    (hc : t.cfg = s.cfg) : evWaitOf t k = evWaitOf s k := by
  simp only [evWaitOf, hc, State.sampleAt_congr s t _ hb hd]

/-- The state in which Refresh's busy wait starts: the command sent, the panel `REFRESHING`. -/
def State.refreshing (s : State) (command : Byte) : State := { s.afterByte 0 command with pstate := .refreshing }

theorem State.refreshing_eq (s : State) (command : Byte) :
    s.refreshing command =
      { s with
        pstate := .refreshing
        lineDc := .driven 0
        lineCs := .driven 1
        trace := (evC command).reverse ++ s.trace } := by
  simp [State.refreshing, State.afterByte_eq, evC]

theorem walk_refresh {s : State} (h : s.env = []) (hp : s.pstate = .writing) {k : Nat} {late : Bool}
    (he : BusyEnds s k late) (n : Seq) :
    walk n (refreshCode s.cfg) s = .done (s.afterRefresh k late) := by
  have hb : (s.refreshing s.cfg.cmdDrf).busyIn = s.busyIn := by simp [State.refreshing_eq]
  have hd : (s.refreshing s.cfg.cmdDrf).draws = s.draws := by simp [State.refreshing_eq]
  have hc : (s.refreshing s.cfg.cmdDrf).cfg = s.cfg := by simp [State.refreshing_eq]
  have hw := fun n => walk_busyWait (s := s.refreshing s.cfg.cmdDrf) (by simpa [State.refreshing_eq] using h)
    (by simp [State.refreshing_eq, validIn]) (he.congr hb hd hc) n
  rw [hc] at hw
  rw [refreshCode]
  simp only [List.cons_append, List.append_assoc]
  rw [walk_enter_valid (by simp [validIn, hp]), drfCode, walk_append_done (walk_callCode (walk_cmd h _ _)),
    walk_setPState, ← State.refreshing, walk_append_done (walk_callCode (hw _)), walk_setPState, walk]
  simp only [State.afterRefresh, State.afterBusyWait, State.waited, State.said_eq, evWaitOf_congr k hb hd hc]
  simp [State.refreshing_eq]

/-! ### Initialize (R121) -/

/-- The state the part of Initialize before its optional wait leaves. -/
def State.poweredOn (s : State) : State :=
  { s with
    pstate := .initializing
    lineRst := .driven 1
    lineDc := .driven 0
    lineCs := .driven 1
    trace := (evPulse s.cfg ++ evSend s.cfg.cmdBtst s.cfg.btstData.toList ++ evC s.cfg.cmdPon).reverse ++ s.trace }

/-- The state the configuration part leaves. -/
def State.configured (s : State) : State :=
  { s with
    pstate := .idle
    lineDc := .driven 1
    lineCs := .driven 1
    trace := (evSetup s.cfg).reverse ++ s.trace }

/-- The part of Initialize after its optional wait. -/
def setupCode (c : Cfg) : List Micro :=
  callCode (.instr .psr) (psrCode c) ++ (callCode (.instr (.cdi c.cdiData)) (cdiCode c c.cdiData) ++
    (callCode (.instr .tres) (tresCode c) ++ [.setPState .idle]))

theorem initPanelCode_eq (c : Cfg) :
    initPanelCode c = .enter .initPanel :: .setPState .initializing :: (pulseCode c ++
      (callCode (.instr .btst) (btstCode c) ++ (callCode (.instr .pon) (ponCode c) ++
        (initWaitCode c ++ setupCode c)))) := by
  simp only [initPanelCode, setupCode, List.cons_append, List.append_assoc]

theorem walk_setup {s : State} {c : Cfg} (h : s.env = []) (hc : s.cfg = c) (n : Seq) :
    walk n (setupCode c) s = .done s.configured := by
  subst hc
  rw [setupCode, psrCode, cdiCode, tresCode, walk_append_done (walk_callCode (walk_send h _ _ _)),
    walk_append_done (walk_callCode (walk_send (by simpa [State.sent] using h) _ _ _)),
    walk_append_done (walk_callCode (walk_send (by simpa [State.sent] using h) _ _ _)), walk_setPState, walk]
  simp [State.configured, State.sent, evSetup, Triple.toList]

theorem walk_powerOn {s : State} (h : s.env = []) (n : Seq) (rest : List Micro) :
    ∃ k, walk n (.enter .initPanel :: .setPState .initializing ::
      (pulseCode s.cfg ++ (callCode (.instr .btst) (btstCode s.cfg) ++
        (callCode (.instr .pon) (ponCode s.cfg) ++ rest)))) s = walk k rest s.poweredOn := by
  rw [walk_enter_valid rfl, walk_setPState, walk_append_done (walk_pulse (by simpa using h) _ _), btstCode,
    walk_append_done (walk_callCode (walk_send (by simpa [State.record] using h) _ _ _)), ponCode,
    walk_append_done (walk_callCode (walk_send (by simpa [State.record, State.sent] using h) _ _ _))]
  refine ⟨_, congrArg _ ?_⟩
  simp [State.poweredOn, State.sent, State.record, evSend]

theorem walk_initPanel {s : State} (h : s.env = []) (hw : s.cfg.initBusyWait = false) (n : Seq) :
    walk n (initPanelCode s.cfg) s = .done s.poweredOn.configured := by
  rw [initPanelCode_eq]
  simp only [initWaitCode, hw, List.nil_append, Bool.false_eq_true, if_false]
  obtain ⟨k, hk⟩ := walk_powerOn h n (setupCode s.cfg)
  rw [hk]
  exact walk_setup (s := s.poweredOn) (by simpa [State.poweredOn] using h) rfl k

theorem walk_initPanel_wait {s : State} (h : s.env = []) (hw : s.cfg.initBusyWait = true) {k : Nat} {late : Bool}
    (he : BusyEnds s k late) (n : Seq) :
    walk n (initPanelCode s.cfg) s = .done (s.poweredOn.afterBusyWait k late).configured := by
  rw [initPanelCode_eq]
  simp only [initWaitCode, hw, if_true]
  obtain ⟨j, hj⟩ := walk_powerOn h n (callCode (.instr .busyWait) (busyWaitCode s.cfg) ++ setupCode s.cfg)
  have hb : ∀ p, walk p (busyWaitCode s.cfg) s.poweredOn = .done (s.poweredOn.afterBusyWait k late) :=
    walk_busyWait (s := s.poweredOn) (by simpa [State.poweredOn] using h) (by simp [State.poweredOn, validIn])
      (he.congr rfl rfl rfl)
  rw [hj, walk_append_done (walk_callCode (hb _))]
  exact walk_setup (s := s.poweredOn.afterBusyWait k late)
    (by simpa [State.poweredOn, State.afterBusyWait, State.waited] using h)
    (by simp [State.poweredOn, State.afterBusyWait, State.waited]) _

/-! ### Clear (R123) -/

/-- The state after the two plane writes of given bytes. -/
def State.planesSent (s : State) (black red : List Byte) : State :=
  { s with
    pstate := .writing
    lineDc := if red = [] then .driven 0 else .driven 1
    lineCs := .driven 1
    trace := (evSend s.cfg.cmdDtm1 black ++ evSend s.cfg.cmdDtm2 red).reverse ++ s.trace }

theorem walk_clear {s : State} (h : s.env = []) (hp : s.pstate = .idle) {k : Nat} {late : Bool}
    (he : BusyEnds s k late) (n : Seq) :
    walk n (clearCode s.cfg) s =
      .done ((s.planesSent (List.replicate s.cfg.planeSize s.cfg.clearByteBlack)
        (List.replicate s.cfg.planeSize s.cfg.clearByteRed)).afterRefresh k late) := by
  have e1 : (({ s with pstate := .writing } : State).sent s.cfg.cmdDtm1
        (List.replicate s.cfg.planeSize s.cfg.clearByteBlack)).sent s.cfg.cmdDtm2
        (List.replicate s.cfg.planeSize s.cfg.clearByteRed) =
      s.planesSent (List.replicate s.cfg.planeSize s.cfg.clearByteBlack)
        (List.replicate s.cfg.planeSize s.cfg.clearByteRed) := by
    simp [State.planesSent, State.sent]
  have hr := fun m => walk_refresh (s := s.planesSent (List.replicate s.cfg.planeSize s.cfg.clearByteBlack)
    (List.replicate s.cfg.planeSize s.cfg.clearByteRed)) (by simpa [State.planesSent] using h) rfl
    (he.congr rfl rfl rfl) m
  simp only [clearCode, List.cons_append, List.append_assoc]
  rw [walk_enter_valid (by simp [validIn, hp]), walk_setPState, dtm1Code,
    walk_append_done (walk_callCode (walk_planeConst (by simpa using h) _ _ _ _)), dtm2Code,
    walk_append_done (walk_callCode (walk_planeConst (by simpa [State.sent] using h) _ _ _ _))]
  simp only [planeCommand]
  rw [e1]
  exact walk_callCode (hr _)

/-! ### Display (R124) -/

theorem cellBytes_append (fb : Store) (draws : Nat) (a b : List Nat) :
    cellBytes fb draws (a ++ b) = cellBytes fb draws a ++ cellBytes fb (draws + unwrittenIn fb a) b := by
  induction a generalizing draws with
  | nil => simp [cellBytes, unwrittenIn]
  | cons i is ih =>
    simp only [List.cons_append, cellBytes]
    cases hr : Store.read fb i with
    | none => simp [ih, unwrittenIn, hr, Nat.add_assoc, Nat.add_comm 1]
    | some v => simp [ih, unwrittenIn, hr]

theorem walk_planeStore {s : State} {c : Cfg} (h : s.env = []) (hc : s.cfg = c) (n : Seq) (p : Plane)
    (hi : planeBase c p + c.planeSize ≤ c.payloadLen) :
    walk n (planeCode c p .store) s =
      .done ((s.afterByte 0 (planeCommand c p)).afterCells (planeCells c p)) := by
  subst hc
  rw [planeCode, walk_append_done (walk_callCode (walk_cmd h _ _))]
  refine walk_cells (by simpa [State.afterByte_eq] using h) _ _ fun i hm => ?_
  have hm := List.mem_range'_1.mp hm
  simp only [State.afterByte_eq]
  omega

/-- The state in which Display refreshes: both planes sent from the store. -/
def State.displayed (s : State) : State :=
  { s.planesSent s.blackBytes s.redBytes with
    lastResult := .ok
    held := ((s.blackBytes ++ s.redBytes).getLast?).getD s.held
    draws := s.draws + s.blackDraws + s.redDraws }

/-- A frame of the right shape lies inside the store (R125). -/
theorem shapeOk_inside {c : Cfg} (h : shapeOk c = true) (p : Plane) :
    planeBase c p + c.planeSize ≤ c.payloadLen := by
  simp only [shapeOk, blackLen, redLen, Bool.and_eq_true, beq_iff_eq] at h
  cases p <;> simp only [planeBase] <;> omega

theorem cellBytes_planeCells_ne_nil {c : Cfg} (fb : Store) (draws : Nat) (p : Plane) :
    (cellBytes fb draws (planeCells c p)).length = c.planeSize := by
  simp [cellBytes_length, planeCells]

theorem walk_display {s : State} (h : s.env = []) (hp : s.pstate = .idle) (hs : shapeOk s.cfg = true) {k : Nat}
    {late : Bool} (he : BusyEnds s.displayed k late) (n : Seq) :
    walk n (displayCode s.cfg) s = .done (s.displayed.afterRefresh k late) := by
  have e1 : (((((({ s with lastResult := .ok, pstate := .writing } : State).afterByte 0 s.cfg.cmdDtm1).afterCells
        (planeCells s.cfg .black))).afterByte 0 s.cfg.cmdDtm2).afterCells (planeCells s.cfg .red)) =
      s.displayed := by
    simp [State.displayed, State.planesSent, State.afterCells, State.afterByte_eq, State.afterData, State.blackBytes,
      State.redBytes, State.blackDraws, State.redDraws, evSend, evC]
    exact if_congr Iff.rfl rfl rfl
  have hr := fun m => walk_refresh (s := s.displayed) (by simpa [State.displayed, State.planesSent] using h) rfl he m
  simp only [displayCode, hs, if_true, List.cons_append, List.append_assoc]
  rw [walk_enter_valid (by simp [validIn, hp]), walk_setResult, walk_setPState, dtm1Code,
    walk_append_done (walk_callCode (walk_planeStore (s := { s with lastResult := .ok, pstate := .writing })
      (by simpa using h) rfl _ _ (shapeOk_inside hs .black))), dtm2Code]
  simp only [planeCommand]
  rw [walk_append_done (walk_callCode (walk_planeStore (s := ((({ s with lastResult := .ok, pstate := .writing } : State).afterByte 0
      s.cfg.cmdDtm1).afterCells (planeCells s.cfg .black)))
      (by simpa [State.afterCells, State.afterData, State.afterByte_eq] using h)
      (by simp [State.afterCells, State.afterData, State.afterByte_eq]) _ .red (shapeOk_inside hs .red)))]
  simp only [planeCommand]
  rw [e1]
  exact walk_callCode (hr _)

theorem walk_display_badShape {s : State} (h : s.env = []) (hp : s.pstate = .idle) (hs : shapeOk s.cfg = false)
    (n : Seq) : walk n (displayCode s.cfg) s = .done { s with lastResult := .invalidFrameSize } := by
  simp only [displayCode, hs, Bool.false_eq_true, if_false]
  rw [walk_enter_valid (by simp [validIn, hp]), walk_setResult]
  simp [walk, Micro.exec, State.primitive_of_quiet, h]

/-! ### Sleep (R127) -/

/-- The state in which Sleep's busy wait starts. -/
def State.poweredOff (s : State) : State := (s.sent s.cfg.cmdCdi [s.cfg.sleepCdiData]).refreshing s.cfg.cmdPof

theorem walk_sleep {s : State} (h : s.env = []) (hp : s.pstate = .idle) {k : Nat} {late : Bool}
    (he : BusyEnds s k late) (n : Seq) :
    walk n (sleepCode s.cfg) s =
      .done { (s.poweredOff.afterBusyWait k late).sent s.cfg.cmdDslp s.cfg.dslpData with
        pstate := .sleeping } := by
  have hw := fun m => walk_busyWait (s := s.poweredOff)
    (by simpa [State.poweredOff, State.refreshing_eq, State.sent] using h)
    (by simp [State.poweredOff, State.refreshing_eq, validIn])
    (he.congr (by simp [State.poweredOff, State.refreshing_eq, State.sent])
      (by simp [State.poweredOff, State.refreshing_eq, State.sent])
      (by simp [State.poweredOff, State.refreshing_eq, State.sent])) m
  have hc : s.poweredOff.cfg = s.cfg := by simp [State.poweredOff, State.refreshing_eq, State.sent]
  rw [hc] at hw
  simp only [sleepCode, List.cons_append, List.append_assoc]
  rw [walk_enter_valid (by simp [validIn, hp]), cdiCode, walk_append_done (walk_callCode (walk_send h _ _ _)), pofCode,
    walk_append_done (walk_callCode (walk_cmd (by simpa [State.sent] using h) _ _)), walk_setPState]
  change walk _ _ s.poweredOff = _
  rw [walk_append_done (walk_callCode (hw _)), dslpCode, walk_append_done (walk_callCode (walk_send
    (by simpa [State.poweredOff, State.refreshing_eq, State.sent, State.afterBusyWait, State.waited] using h)
    _ _ _)), walk_setPState, walk]

/-! ### The payload loop (R172) -/

/-- The store with a run of bytes written from a cell on. -/
def Store.writeRun (fb : Store) (i : Nat) : List Byte → Store
  | [] => fb
  | b :: bs => Store.writeRun (Store.write fb i b) (i + 1) bs

theorem Store.read_writeRun (fb : Store) (i k : Nat) (bs : List Byte) :
    Store.read (Store.writeRun fb i bs) k =
      if i ≤ k then (bs[k - i]?).or (Store.read fb k) else Store.read fb k := by
  induction bs generalizing fb i with
  | nil => simp [Store.writeRun]
  | cons b bs ih =>
    rw [Store.writeRun, ih, Store.read_write]
    by_cases h1 : i + 1 ≤ k
    · have : k - i = k - (i + 1) + 1 := by omega
      simp [h1, show i ≤ k by omega, show k ≠ i by omega, this]
    · by_cases h2 : k = i
      · subst h2; simp
      · simp [h1, h2, show ¬ i ≤ k by omega]

theorem Store.wf_writeRun (fb : Store) (i : Nat) (bs : List Byte) (h : Memory.wf fb = true) :
    Memory.wf (Store.writeRun fb i bs) = true := by
  induction bs generalizing fb i with
  | nil => exact h
  | cons b bs ih => exact ih _ _ (Memory.wf_write fb i b h)

/-- The state after a run of payload bytes has been received and stored. -/
def State.afterPayload (s : State) (bs : List Byte) (rest : List LinkSlot) : State :=
  { s with
    fb := Store.writeRun s.fb s.rxIdx bs
    rxIdx := s.rxIdx + bs.length
    rx := rest
    held := bs.getLast?.getD s.held
    trace := (bs.map Event.rx).reverse ++ s.trace }

theorem walk_payloadByte {s : State} (h : s.env = []) (b : Byte) (rest : List LinkSlot)
    (hr : s.rx = .byte b :: rest) (hi : s.rxIdx < s.cfg.payloadLen) (n : Seq) :
    walk n payloadCode s = .done (s.afterPayload [b] rest) := by
  simp [payloadCode, walk, Micro.exec, hi, State.primitive_of_quiet, h, receivePayload, hr, State.afterPayload,
    Store.writeRun, State.receive, State.memWrite]

theorem walk_payload {s : State} (h : s.env = []) (bs : List Byte) (rest : List LinkSlot)
    (hr : s.rx = bs.map LinkSlot.byte ++ rest) (hi : s.rxIdx + bs.length ≤ s.cfg.payloadLen) (n : Seq) :
    walk n (List.replicate bs.length payloadCode).flatten s = .done (s.afterPayload bs rest) := by
  induction bs generalizing s n with
  | nil =>
    have : s.rx = rest := by simpa using hr
    subst this
    simp [walk, State.afterPayload, Store.writeRun]
  | cons b bs ih =>
    simp only [List.length_cons] at hi ⊢
    rw [List.replicate_succ, List.flatten_cons,
      walk_append_done (walk_payloadByte h b (bs.map LinkSlot.byte ++ rest) (by simpa using hr) (by omega) n),
      ih (by simpa [State.afterPayload] using h) (by simp [State.afterPayload])
        (by simp only [State.afterPayload, List.length_cons, List.length_nil]; omega)]
    simp [State.afterPayload, Store.writeRun, Nat.add_assoc, Nat.add_comm 1, List.getLast?_cons]

/-- With no byte at hand the loop ends the step, having fed once (R107, R180). -/
theorem walk_payload_stalled {s : State} (h : s.env = []) (hr : NoByte s.rx)
    (hi : s.rxIdx < s.cfg.payloadLen) (n : Seq) (ms : List Micro) :
    walk n (.rxPayload :: ms) s = .held n s.linkIdle := by
  have : receivePayload s = .hold s.linkIdle := by
    unfold receivePayload
    split
    · next b rest hb => exact absurd hb (hr b rest)
    · rfl
  simp [walk, Micro.exec, hi, State.primitive_of_quiet, h, this]

end Sys2Proof.Machine
end

