-- ==== Sys2Proof/Laws/Commands.lean ====
section
/-! SUPPORT. The host commands and control requests while the environment is quiet: the acknowledgements, how each
command opens and ends, and that every meaning runs the sequence `instrCode` names. -/

namespace Sys2Proof.Machine

/-- Every meaning runs the sequence of its instruction (R22). -/
theorem exec_eq (i : Instr) (s : State) : exec i s = run (Seq.start (.instr i)) (instrCode s.cfg i) s := by
  cases i <;> rfl

/-! ### Acknowledgements (R176) -/

theorem walk_ackCode {s : State} {c : Cfg} (h : s.env = []) (hc : s.cfg = c) (p : Seq) :
    walk p (ackCode c) s = .done { s with trace := evAck c ++ s.trace } := by
  subst hc
  unfold ackCode evAck
  cases s.cfg.ackMode with
  | ack => simp [walk, Micro.exec, State.primitive_of_quiet h, State.txByte, State.emit]
  | silent => rfl

/-- `Ack()`, called, takes its caller to the step after the call. -/
theorem walk_ack {s : State} {c : Cfg} (h : s.env = []) (hc : s.cfg = c) (p : Seq) (rest : List Micro) :
    walk p (callCode (.instr .ack) (ackCode c) ++ rest) s =
      walk p.next rest { s with trace := evAck c ++ s.trace } := by
  rw [walk_append_done (walk_callCode (walk_ackCode h hc _))]
  subst hc
  unfold ackCode
  cases s.cfg.ackMode <;> simp [callCode, placeAll, Micro.exec, Micro.place, Micro.counts, State.primitive_of_quiet h,
    Seq.enter, Seq.leave, Seq.next]

@[simp] theorem evAck_reverse (c : Cfg) : (evAck c).reverse = evAck c := by
  unfold evAck; cases c.ackMode <;> rfl

/-- What the "done" point leaves (R176). -/
def State.acked (s : State) : State :=
  ({ s with trace := evAck s.cfg ++ s.trace } : State).said (diagAtDone s.cfg s.curOp)

theorem walk_done {s : State} {c : Cfg} (h : s.env = []) (hc : s.cfg = c) (p : Seq) :
    walk p (doneCode c) s = .done s.acked := by
  subst hc
  unfold doneCode State.acked diagAtDone
  cases hm : s.cfg.ackMode with
  | ack => exact walk_callCode (walk_ackCode h rfl _)
  | silent =>
    have hx : Micro.diagDone.exec s = .go (s.diagnose (.done s.curOp)) := by
      simp [Micro.exec, State.primitive_of_quiet h]
    simp only [walk, hx, evAck, hm]
    rfl

/-- The state between two dispatch cycles, as far as the dispatcher's own fields go. -/
def State.ended (s : State) : State := { s with curOp := .none, dstate := .await }

theorem walk_end (p : Seq) (s : State) : walk p endCode s = .done s.ended := rfl

theorem walk_done_end {s : State} {c : Cfg} (h : s.env = []) (hc : s.cfg = c) (p : Seq) :
    walk p (doneCode c ++ endCode) s = .done s.acked.ended := by
  rw [walk_append_done (walk_done h hc p), walk_end]

/-! ### How the commands open -/

/-- A command has been recognised and its "accepted" point passed. -/
def State.accepted (s : State) (o : CurOp) : State :=
  { s with
    curOp := o
    dstate := .exec
    trace := evAck s.cfg ++ s.trace }

theorem walk_open {s : State} (h : s.env = []) (o : CurOp) (p : Seq) (rest : List Micro) :
    walk p (.setCurOp o :: .setDState .exec :: (callCode (.instr .ack) (ackCode s.cfg) ++ rest)) s =
      walk p.next rest (s.accepted o) := by
  rw [walk_setCurOp, walk_setDState, walk_ack (by exact h) (by rfl)]
  rfl

theorem walk_writeScreen_open {s : State} (h : s.env = []) (p : Seq) :
    walk p (writeScreenCode s.cfg) s =
      walk p.next (callCode (.instr .display) (displayCode s.cfg) ++ .diagShape :: (doneCode s.cfg ++ endCode))
        (s.accepted .writeScreen) := by
  simp only [writeScreenCode, List.cons_append, List.append_assoc]
  exact walk_open h _ _ _

theorem walk_clearScreen_open {s : State} (h : s.env = []) (p : Seq) :
    walk p (clearScreenCode s.cfg) s =
      walk p.next (callCode (.instr .clear) (clearCode s.cfg) ++ (doneCode s.cfg ++ endCode))
        (s.accepted .clearScreen) := by
  simp only [clearScreenCode, List.cons_append, List.append_assoc]
  exact walk_open h _ _ _

/-- A control request has been taken: it is no longer pending, and is never acked (R176, R177). -/
def State.requestTaken (s : State) (o : CurOp) : State := { s with ctlReq := none, curOp := o, dstate := .exec }

theorem walk_ctlInit_open (s : State) (p : Seq) :
    walk p (ctlInitCode s.cfg) s =
      walk p (callCode (.instr .initPanel) (initPanelCode s.cfg) ++ endCode) (s.requestTaken .ctlInit) := rfl

theorem walk_ctlSleep_open (s : State) (p : Seq) :
    walk p (ctlSleepCode s.cfg) s =
      walk p (callCode (.instr .sleep) (sleepCode s.cfg) ++ endCode) (s.requestTaken .ctlSleep) := rfl

/-- Send-Buffer has been accepted and its payload loop begins (R172). -/
def State.receiving (s : State) : State :=
  { s with
    curOp := .sendBuffer
    dstate := .recv
    rxIdx := 0
    trace := evAck s.cfg ++ s.trace }

/-- What is left of Send-Buffer from the head of its loop on, with `k` passes written out. -/
def receiveCode (c : Cfg) (k : Nat) : List Micro :=
  (List.replicate k payloadCode).flatten ++ .setDState .exec :: (doneCode c ++ endCode)

theorem walk_sendBuffer_open {s : State} (h : s.env = []) (p : Seq) :
    walk p (sendBufferCode s.cfg) s = walk p.next (receiveCode s.cfg s.cfg.payloadLen) s.receiving := by
  simp only [sendBufferCode, List.cons_append, List.append_assoc]
  rw [walk_setCurOp, walk_ack (by exact h) (by rfl), walk_setDState, walk_startPayload]
  rfl

/-- In the payload loop, from the pass for byte `j` on, the passes before the position are behind it. -/
theorem seek_passes {s : State} {j d k : Nat} (hs : s.seq = Seq.receiving (j + d)) (hd : d < k) (rest : List Micro) :
    seek s (Seq.receiving j) ((List.replicate k payloadCode).flatten ++ rest) =
      (List.replicate (k - d) payloadCode).flatten ++ rest := by
  induction d generalizing j k with
  | zero =>
    obtain ⟨k, rfl⟩ : ∃ m, k = m + 1 := ⟨k - 1, by omega⟩
    simp [List.replicate_succ, payloadCode, seek, Micro.stands, Micro.counts, hs]
  | succ d ih =>
    obtain ⟨k, rfl⟩ : ∃ m, k = m + 1 := ⟨k - 1, by omega⟩
    have h1 : Seq.receiving j ≠ s.seq := by simp [hs, Seq.receiving]
    have h2 : (Seq.receiving j).next ≠ s.seq := by
      simp only [hs, Seq.receiving, Seq.next, ne_eq, Machine.Seq.mk.injEq, not_and]; omega
    have h3 : (Seq.receiving j).next.next = Seq.receiving (j + 1) := by
      simp only [Seq.receiving, Seq.next, Machine.Seq.mk.injEq, and_true, true_and]; omega
    have hp : seek s (Seq.receiving j) (payloadCode ++ ((List.replicate k payloadCode).flatten ++ rest)) =
        seek s (Seq.receiving j).next.next ((List.replicate k payloadCode).flatten ++ rest) := by
      simp [payloadCode, seek, Micro.stands, Micro.counts, Micro.place, h1, h2]
    rw [List.replicate_succ, List.flatten_cons, List.append_assoc, hp, h3,
      ih (by rw [hs, Nat.add_assoc, Nat.add_comm 1]) (by omega), show k + 1 - (d + 1) = k - d by omega]

/-- What is left of Send-Buffer from the `RxByte()` that `n` stored bytes are behind (R22): the passes still to come. -/
theorem sendBuffer_rest {c : Cfg} {s : State} {n : Nat} (hs : s.seq = Seq.receiving n) (hn : n < c.payloadLen) :
    restFrom (.instr .sendBuffer) s (sendBufferCode c) = receiveCode c (c.payloadLen - n) := by
  have h0 : s.seq ≠ Seq.start (.instr .sendBuffer) := by simp [hs, Seq.receiving, Seq.start]
  have h1 : seek s (Seq.start (.instr .sendBuffer)) (sendBufferCode c) =
      seek s (Seq.receiving 0) (receiveCode c c.payloadLen) := by
    unfold sendBufferCode ackCode receiveCode
    cases c.ackMode <;>
      simp [seek, callCode, Micro.stands, Micro.counts, Micro.place, hs, Seq.start, Seq.receiving, Seq.enter, Seq.leave, Seq.next,
        show (0 : Nat) ≠ 1 + 2 * n by omega]
  rw [restFrom, if_neg h0, h1, receiveCode, seek_passes (by rw [hs, Nat.zero_add]) hn, receiveCode]

end Sys2Proof.Machine
end

