-- ==== Sys2Proof/Laws/Keeping.lean ====
section
/-! SUPPORT. What holds through a whole sequence because every elementary step keeps it: the induction over a sequence
once, what the environment can do before a primitive, and which elementary steps the instructions are made of. -/

namespace Sys2Proof.Machine

/-! ### One induction over a sequence -/

/-- What is asked of the outcome of an elementary step: `go` of a state that goes on, `stop` of one the step of the
machine ends in, `cut` of one after a reset; `halt` of a stop of the machine. -/
def Flow.Meets (go stop cut : State → Prop) (halt : Prop) : Flow → Prop
  | .go s => go s
  | .hold s => stop s
  | .gone s => cut s
  | .fault _ => halt

/-- The same of the outcome of a sequence. -/
def Walk.Meets (go stop cut : State → Prop) (halt : Prop) : Walk → Prop
  | .done s => go s
  | .held _ s => stop s
  | .gone s => cut s
  | .fault _ => halt

/-- A sequence whose every elementary step keeps `go` ends as they do. -/
theorem walk_meets {go stop cut : State → Prop} {halt : Prop} {ms : List Micro}
    (hm : ∀ m ∈ ms, ∀ s, go s → (m.exec s).Meets go stop cut halt) {s : State} (hs : go s) (p : Seq) :
    (walk p ms s).Meets go stop cut halt := by
  induction ms generalizing s p with
  | nil => exact hs
  | cons m ms ih =>
    have h1 := hm m (by simp) s hs
    rw [walk]
    cases hx : m.exec s with
    | go t => rw [hx] at h1; exact ih (fun k hk => hm k (by simp [hk])) h1 (m.place s p)
    | hold t => rw [hx] at h1; exact h1
    | gone t => rw [hx] at h1; exact h1
    | fault r => rw [hx] at h1; exact h1

/-- What a run answers, from what its sequence gets to. -/
theorem run_meets {go stop cut : State → Prop} {ms : List Micro} {p : Seq} {s t : State}
    (hw : (walk p ms s).Meets go stop cut True) (ht : run p ms s = .next t) :
    (∃ u, go u ∧ t = { u with seq := Seq.main }) ∨ (∃ u q, stop u ∧ t = { u with seq := q }) ∨ cut t := by
  unfold run at ht
  cases hx : walk p ms s with
  | done u => rw [hx] at hw ht; exact .inl ⟨u, hw, by simpa using ht.symm⟩
  | held q u => rw [hx] at hw ht; exact .inr (.inl ⟨u, q, hw, by simpa using ht.symm⟩)
  | gone u => rw [hx] at hw ht; exact .inr (.inr ((show u = t by simpa using ht) ▸ hw))
  | fault r => rw [hx] at ht; exact absurd ht (by simp)

/-! ### The environment before a primitive -/

/-- What the moment before a primitive can leave: the state with one event less and perhaps a request or optional
lines, a reset of it, or the same state with the step at an end. -/
theorem State.moment_cases (s : State) :
    (s.env = [] ∧ s.moment = .pass s) ∨
    ∃ es, (s.env = .quiet :: es ∧ s.moment = .pass { s with env := es }) ∨
      (s.env = .por :: es ∧ s.moment = .reset ({ s with env := es }.resetTo .por)) ∨
      (s.env = .wdtReset :: es ∧ s.moment = .reset ({ s with env := es }.resetTo .wdt)) ∨
      (s.env = .bothResets :: es ∧ s.moment = .reset ({ s with env := es }.resetTo .por)) ∨
      (∃ q, s.env = .request q :: es ∧ s.moment = .pass ({ s with env := es }.request q)) ∨
      (∃ ls, s.env = .lines ls :: es ∧ s.moment = .pass ({ s with env := es }.chatter ls)) ∨
      (s.env = .pause :: es ∧ s.moment = .hold { s with env := es }) := by
  unfold State.moment
  cases h : s.env with
  | nil => exact .inl ⟨rfl, rfl⟩
  | cons e es =>
    right
    refine ⟨es, ?_⟩
    cases e <;> simp

/-- Optional lines touch the diagnostic trace alone (R215), and a faulted block emits none (R206). -/
theorem State.chatter_eq (s : State) (ls : List Chatter) : ∃ ds, s.chatter ls = { s with diag := ds ++ s.diag } := by
  unfold State.chatter
  split
  · exact ⟨[], rfl⟩
  · exact ⟨_, rfl⟩

theorem State.chatter_faulted {s : State} (h : s.dstate = .faulted) (ls : List Chatter) : s.chatter ls = s := by
  rw [State.chatter, if_pos h]

/-- A primitive keeps what the moment before it and its own effect keep. -/
theorem State.primitive_meets {pre go stop cut : State → Prop} {halt : Prop} {s : State} {f : State → Flow}
    (hs : pre s) (henv : ∀ t es ds, pre t → pre { t with env := es, diag := ds })
    (hreq : ∀ t q, pre t → pre { t with ctlReq := q }) (hstop : ∀ t es, pre t → stop { t with env := es })
    (hcut : ∀ t es cause, pre t → cut ({ t with env := es }.resetTo cause))
    (hf : ∀ t, pre t → (f t).Meets go stop cut halt) : (s.primitive f).Meets go stop cut halt := by
  unfold State.primitive
  obtain ⟨-, hm⟩ | ⟨es, ⟨-, hm⟩ | ⟨-, hm⟩ | ⟨-, hm⟩ | ⟨-, hm⟩ | ⟨q, -, hm⟩ | ⟨ls, -, hm⟩ | ⟨-, hm⟩⟩ := s.moment_cases <;>
    rw [hm]
  · exact hf s hs
  · exact hf _ (henv s es s.diag hs)
  · exact hcut s es .por hs
  · exact hcut s es .wdt hs
  · exact hcut s es .por hs
  · refine hf _ ?_
    simp only [State.request]
    split
    · exact hreq _ _ (henv s es s.diag hs)
    · exact henv s es s.diag hs
  · obtain ⟨ds, hd⟩ := ({ s with env := es } : State).chatter_eq ls
    exact hf _ (hd ▸ henv s es _ hs)
  · exact hstop s es hs

/-- Everything one sample of the poll loop can do (R150, R152 to R154): it is counted and recorded, and the session
is over, has timed out, or is still below the ceiling. -/
theorem State.poll_cases (s : State) :
    ∃ on late, s.poll = { s with
        polls := s.polls + 1
        bwActive := on
        timedOut := late
        busyIn := s.busyIn.tail
        draws := s.draws + (1 - s.busyIn.length)
        trace := .busy s.nextBusy :: s.trace } ∧
      (on = true → s.bwActive = true ∧ (s.polls + 1 = s.cfg.busyMaxPolls → late = true)) := by
  unfold State.poll
  simp only [State.sampleBusy_eq]
  split
  · exact ⟨false, false, rfl, by simp⟩
  · split
    · exact ⟨s.bwActive, true, rfl, fun hb => ⟨hb, fun _ => rfl⟩⟩
    · next h => exact ⟨s.bwActive, s.timedOut, rfl, fun hb => ⟨hb, fun hp => absurd hp h⟩⟩

/-- Wherever a step of the machine can end, by a pause, a wait or a fault, the block stands: no such place is passed over
when the position is sought again (R22). -/
theorem Micro.stands_of_hold {m : Micro} {s t : State} (h : m.exec s = .hold t) : m.stands s = true := by
  cases m <;> simp only [Micro.exec] at h <;> (try split at h) <;>
    simp_all [Micro.stands, Micro.counts, State.polling, State.atCeiling]

/-! ### What the sequences are made of -/

/-- The elementary steps every instruction is made of: none arms the watchdog or sets `FAULTED`, and a cell is read
inside a frame only. -/
def Micro.Plain (c : Cfg) : Micro → Prop
  | .arm => False
  | .setDState d => d ≠ .faulted
  | .memRead i => i < 2 * c.planeSize
  | _ => True

/-- The elementary steps of all instructions but Send-Buffer: besides, none touches the link, the store or `rx_idx`. -/
def Micro.NoLink : Micro → Prop
  | .rxPayload => False
  | .memWrite => False
  | .bumpIdx => False
  | .startPayload => False
  | _ => True

theorem mem_flatten_replicate {m : Micro} {k : Nat} {l : List Micro} (h : m ∈ (List.replicate k l).flatten) :
    m ∈ l := by
  obtain ⟨l', h1, h2⟩ := List.mem_flatten.mp h
  rwa [List.eq_of_mem_replicate h1] at h2

/-- A call is made of its operation. -/
theorem callCode_plain {c : Cfg} {op : Operation} {ms : List Micro} (h : ∀ m ∈ ms, m.Plain c ∧ m.NoLink) :
    ∀ m ∈ callCode op ms, m.Plain c ∧ m.NoLink := by
  intro m hm
  simp only [callCode, List.cons_append, List.mem_cons, List.mem_append, List.not_mem_nil, or_false] at hm
  obtain rfl | h1 | rfl := hm
  · exact ⟨trivial, trivial⟩
  · exact h m h1
  · exact ⟨trivial, trivial⟩

theorem cmdCode_plain (c : Cfg) (b : Byte) : ∀ m ∈ cmdCode b, m.Plain c ∧ m.NoLink := by
  intro m hm
  simp only [cmdCode] at hm
  fin_cases hm <;> exact ⟨trivial, trivial⟩

theorem dataCode_plain (c : Cfg) (b : Byte) : ∀ m ∈ dataCode b, m.Plain c ∧ m.NoLink := by
  intro m hm
  simp only [dataCode] at hm
  fin_cases hm <;> exact ⟨trivial, trivial⟩

theorem sendCode_plain (c : Cfg) (command : Byte) (ds : List Byte) :
    ∀ m ∈ sendCode command ds, m.Plain c ∧ m.NoLink := by
  intro m hm
  simp only [sendCode, List.mem_append, List.mem_flatMap] at hm
  obtain h | ⟨b, -, h⟩ := hm
  · exact callCode_plain (cmdCode_plain c command) m h
  · exact callCode_plain (dataCode_plain c b) m h

theorem waitCode_plain (c : Cfg) (ms : Nat) : ∀ m ∈ waitCode ms, m.Plain c ∧ m.NoLink := by
  refine callCode_plain fun m hm => ?_
  fin_cases hm <;> exact ⟨trivial, trivial⟩

theorem pulseCode_plain (c : Cfg) : ∀ m ∈ pulseCode c, m.Plain c ∧ m.NoLink := by
  refine callCode_plain fun m hm => ?_
  simp only [List.cons_append, List.append_assoc, List.mem_cons, List.mem_append] at hm
  obtain rfl | h | rfl | h | rfl | h := hm
  · exact ⟨trivial, trivial⟩
  · exact waitCode_plain c _ m h
  · exact ⟨trivial, trivial⟩
  · exact waitCode_plain c _ m h
  · exact ⟨trivial, trivial⟩
  · exact waitCode_plain c _ m h

theorem planeCode_plain (c : Cfg) (p : Plane) (src : PlaneSrc) :
    ∀ m ∈ planeCode c p src, m.Plain c ∧ m.NoLink := by
  intro m hm
  cases src with
  | const b => exact sendCode_plain c (planeCommand c p) (List.replicate c.planeSize b) m hm
  | store =>
    simp only [planeCode, List.mem_append, List.mem_flatMap, List.mem_range'_1] at hm
    obtain h | ⟨i, hi, h⟩ := hm
    · exact callCode_plain (cmdCode_plain c _) m h
    · simp only [cellCode, callCode, List.cons_append, List.nil_append] at h
      fin_cases h
      · refine ⟨?_, trivial⟩
        simp only [Micro.Plain]
        cases p <;> simp only [planeBase] at hi <;> omega
      all_goals exact ⟨trivial, trivial⟩

theorem busyWaitCode_plain (c : Cfg) : ∀ m ∈ busyWaitCode c, m.Plain c ∧ m.NoLink := by
  intro m hm
  simp only [busyWaitCode, List.cons_append, List.append_assoc, List.mem_cons, List.mem_append] at hm
  obtain rfl | h | rfl | h | rfl | rfl | h := hm
  · exact ⟨trivial, trivial⟩
  · exact callCode_plain (cmdCode_plain c _) m h
  · exact ⟨trivial, trivial⟩
  · have h := mem_flatten_replicate h
    simp only [pollCode] at h
    fin_cases h <;> exact ⟨trivial, trivial⟩
  · exact ⟨trivial, trivial⟩
  · exact ⟨trivial, trivial⟩
  · exact waitCode_plain c _ m h

theorem refreshCode_plain (c : Cfg) : ∀ m ∈ refreshCode c, m.Plain c ∧ m.NoLink := by
  intro m hm
  simp only [refreshCode, List.cons_append, List.append_assoc, List.mem_cons, List.mem_append,
    List.not_mem_nil, or_false] at hm
  obtain rfl | h | rfl | h | rfl := hm
  · exact ⟨trivial, trivial⟩
  · exact callCode_plain (cmdCode_plain c _) m h
  · exact ⟨trivial, trivial⟩
  · exact callCode_plain (busyWaitCode_plain c) m h
  · exact ⟨trivial, trivial⟩

theorem initPanelCode_plain (c : Cfg) : ∀ m ∈ initPanelCode c, m.Plain c ∧ m.NoLink := by
  intro m hm
  simp only [initPanelCode, List.cons_append, List.append_assoc, List.mem_cons, List.mem_append,
    List.not_mem_nil, or_false] at hm
  obtain rfl | rfl | h | h | h | h | h | h | h | rfl := hm
  · exact ⟨trivial, trivial⟩
  · exact ⟨trivial, trivial⟩
  · exact pulseCode_plain c m h
  · exact callCode_plain (sendCode_plain _ _ _) m h
  · exact callCode_plain (sendCode_plain _ _ _) m h
  · unfold initWaitCode at h
    split at h
    · exact callCode_plain (busyWaitCode_plain c) m h
    · simp at h
  · exact callCode_plain (sendCode_plain _ _ _) m h
  · exact callCode_plain (sendCode_plain _ _ _) m h
  · exact callCode_plain (sendCode_plain _ _ _) m h
  · exact ⟨trivial, trivial⟩

theorem clearCode_plain (c : Cfg) : ∀ m ∈ clearCode c, m.Plain c ∧ m.NoLink := by
  intro m hm
  simp only [clearCode, List.cons_append, List.append_assoc, List.mem_cons, List.mem_append] at hm
  obtain rfl | rfl | h | h | h := hm
  · exact ⟨trivial, trivial⟩
  · exact ⟨trivial, trivial⟩
  · exact callCode_plain (planeCode_plain _ _ _) m h
  · exact callCode_plain (planeCode_plain _ _ _) m h
  · exact callCode_plain (refreshCode_plain c) m h

theorem displayCode_plain (c : Cfg) : ∀ m ∈ displayCode c, m.Plain c ∧ m.NoLink := by
  intro m hm
  unfold displayCode at hm
  split at hm
  · simp only [List.cons_append, List.append_assoc, List.mem_cons, List.mem_append] at hm
    obtain rfl | rfl | rfl | h | h | h := hm
    · exact ⟨trivial, trivial⟩
    · exact ⟨trivial, trivial⟩
    · exact ⟨trivial, trivial⟩
    · exact callCode_plain (planeCode_plain _ _ _) m h
    · exact callCode_plain (planeCode_plain _ _ _) m h
    · exact callCode_plain (refreshCode_plain c) m h
  · fin_cases hm <;> exact ⟨trivial, trivial⟩

theorem sleepCode_plain (c : Cfg) : ∀ m ∈ sleepCode c, m.Plain c ∧ m.NoLink := by
  intro m hm
  simp only [sleepCode, List.cons_append, List.append_assoc, List.mem_cons, List.mem_append, List.not_mem_nil,
    or_false] at hm
  obtain rfl | h | h | rfl | h | h | rfl := hm
  · exact ⟨trivial, trivial⟩
  · exact callCode_plain (sendCode_plain _ _ _) m h
  · exact callCode_plain (cmdCode_plain c _) m h
  · exact ⟨trivial, trivial⟩
  · exact callCode_plain (busyWaitCode_plain c) m h
  · exact callCode_plain (sendCode_plain _ _ _) m h
  · exact ⟨trivial, trivial⟩

theorem ackCode_plain (c : Cfg) : ∀ m ∈ ackCode c, m.Plain c ∧ m.NoLink := by
  intro m hm
  unfold ackCode at hm
  cases h : c.ackMode <;> rw [h] at hm <;> fin_cases hm
  exact ⟨trivial, trivial⟩

theorem doneCode_plain (c : Cfg) : ∀ m ∈ doneCode c, m.Plain c ∧ m.NoLink := by
  intro m hm
  unfold doneCode at hm
  cases h : c.ackMode <;> rw [h] at hm
  · exact callCode_plain (ackCode_plain c) m hm
  · fin_cases hm
    exact ⟨trivial, trivial⟩

theorem endCode_plain (c : Cfg) : ∀ m ∈ endCode, m.Plain c ∧ m.NoLink := by
  intro m hm
  unfold endCode at hm
  fin_cases hm
  · exact ⟨trivial, trivial⟩
  · exact ⟨by simp [Micro.Plain], trivial⟩

theorem sendBufferCode_plain (c : Cfg) : ∀ m ∈ sendBufferCode c, m.Plain c := by
  intro m hm
  simp only [sendBufferCode, List.cons_append, List.append_assoc, List.mem_cons, List.mem_append] at hm
  obtain rfl | h | rfl | rfl | h | rfl | h | h := hm
  · trivial
  · exact (callCode_plain (ackCode_plain c) m h).1
  · simp [Micro.Plain]
  · trivial
  · have h := mem_flatten_replicate h
    simp only [payloadCode] at h
    fin_cases h <;> trivial
  · simp [Micro.Plain]
  · exact (doneCode_plain c m h).1
  · exact (endCode_plain c m h).1

/-- Every instruction but Send-Buffer. -/
theorem instrCode_noLink (c : Cfg) (i : Instr) (hi : i ≠ .sendBuffer) :
    ∀ m ∈ instrCode c i, m.Plain c ∧ m.NoLink := by
  intro m hm
  have hexec : (Micro.setDState .exec).Plain c ∧ (Micro.setDState .exec).NoLink := ⟨by simp [Micro.Plain], trivial⟩
  cases i with
  | sendBuffer => exact absurd rfl hi
  | writeScreen =>
    simp only [instrCode, writeScreenCode, List.cons_append, List.append_assoc, List.mem_cons, List.mem_append] at hm
    obtain rfl | rfl | h | h | rfl | h | h := hm
    · exact ⟨trivial, trivial⟩
    · exact hexec
    · exact callCode_plain (ackCode_plain c) m h
    · exact callCode_plain (displayCode_plain c) m h
    · exact ⟨trivial, trivial⟩
    · exact doneCode_plain c m h
    · exact endCode_plain c m h
  | clearScreen =>
    simp only [instrCode, clearScreenCode, List.cons_append, List.append_assoc, List.mem_cons, List.mem_append] at hm
    obtain rfl | rfl | h | h | h | h := hm
    · exact ⟨trivial, trivial⟩
    · exact hexec
    · exact callCode_plain (ackCode_plain c) m h
    · exact callCode_plain (clearCode_plain c) m h
    · exact doneCode_plain c m h
    · exact endCode_plain c m h
  | unknown op =>
    simp only [instrCode, unknownCode] at hm
    fin_cases hm
    exact ⟨trivial, trivial⟩
  | ack => exact ackCode_plain c m hm
  | ctlInit =>
    simp only [instrCode, ctlInitCode, List.cons_append, List.mem_cons, List.mem_append] at hm
    obtain rfl | rfl | rfl | h | h := hm
    · exact ⟨trivial, trivial⟩
    · exact ⟨trivial, trivial⟩
    · exact hexec
    · exact callCode_plain (initPanelCode_plain c) m h
    · exact endCode_plain c m h
  | ctlSleep =>
    simp only [instrCode, ctlSleepCode, List.cons_append, List.mem_cons, List.mem_append] at hm
    obtain rfl | rfl | rfl | h | h := hm
    · exact ⟨trivial, trivial⟩
    · exact ⟨trivial, trivial⟩
    · exact hexec
    · exact callCode_plain (sleepCode_plain c) m h
    · exact endCode_plain c m h
  | btst => exact sendCode_plain _ _ _ m hm
  | pon => exact sendCode_plain _ _ _ m hm
  | psr => exact sendCode_plain _ _ _ m hm
  | cdi b => exact sendCode_plain _ _ _ m hm
  | tres => exact sendCode_plain _ _ _ m hm
  | dtm1 src => exact planeCode_plain _ _ _ m hm
  | dtm2 src => exact planeCode_plain _ _ _ m hm
  | drf => exact cmdCode_plain c _ m hm
  | flg => exact cmdCode_plain c _ m hm
  | pof => exact cmdCode_plain c _ m hm
  | dslp => exact sendCode_plain _ _ _ m hm
  | data b => exact dataCode_plain c b m hm
  | initPanel => exact initPanelCode_plain c m hm
  | clear => exact clearCode_plain c m hm
  | display => exact displayCode_plain c m hm
  | refresh => exact refreshCode_plain c m hm
  | sleep => exact sleepCode_plain c m hm
  | busyWait => exact busyWaitCode_plain c m hm

/-- Every instruction. -/
theorem instrCode_plain (c : Cfg) (i : Instr) : ∀ m ∈ instrCode c i, m.Plain c := by
  intro m hm
  by_cases hi : i = .sendBuffer
  · subst hi; exact sendBufferCode_plain c m hm
  · exact (instrCode_noLink c i hi m hm).1

/-- The boot sequence after its first elementary step, the `Arm()`. -/
theorem bootCode_plain (c : Cfg) : ∀ m ∈ (bootCode c).tail, m.Plain c := by
  intro m hm
  simp only [bootCode, List.cons_append, List.tail_cons, List.mem_append, List.mem_singleton] at hm
  obtain h | rfl := hm
  · exact (callCode_plain (initPanelCode_plain c) m h).1
  · simp [Micro.Plain]

/-! ### The step of a built machine -/

theorem firstBroken_of_wf {c : Cfg} (h : c.wf = true) : c.firstBroken = none := by
  simp only [Cfg.wf, List.all_eq_true] at h
  simp only [Cfg.firstBroken, List.find?_eq_none]
  intro k hk
  simp [h k hk]

/-- A machine is built for a configuration that passes every check (R6). -/
theorem step_eq {s : State} (h : s.cfg.wf = true) : step s = stepBuilt s := by
  rw [step, firstBroken_of_wf h]

theorem step_faulted {s : State} (h : s.cfg.wf = true) (hd : s.dstate = .faulted) : step s = idleFaulted s := by
  rw [step_eq h, stepBuilt, if_pos hd]

theorem step_main {s : State} (h : s.cfg.wf = true) (hd : s.dstate ≠ .faulted) (hq : s.seq.op = .main) :
    step s = processOne s := by
  rw [step_eq h, stepBuilt, if_neg hd, continueAt, hq]

theorem step_instr {s : State} (h : s.cfg.wf = true) (hd : s.dstate ≠ .faulted) {i : Instr}
    (hq : s.seq.op = .instr i) : step s = run s.seq (restFrom (.instr i) s (instrCode s.cfg i)) s := by
  rw [step_eq h, stepBuilt, if_neg hd, continueAt, hq]
  rfl

theorem step_boot {s : State} (h : s.cfg.wf = true) (hd : s.dstate ≠ .faulted) (hq : s.seq.op = .boot) :
    step s = run s.seq (restFrom .boot s (bootCode s.cfg)) s := by
  rw [step_eq h, stepBuilt, if_neg hd, continueAt, hq]
  rfl

/-- The two sizes a built machine's store has to do with (R5, R6). -/
theorem payloadLen_of_wf {c : Cfg} (h : c.wf = true) : c.payloadLen = 2 * c.planeSize := by
  simp only [Cfg.wf, List.all_eq_true] at h
  simpa [Cfg.passes] using h .payload (by simp [CfgCheck.all])

theorem shapeOk_of_wf {c : Cfg} (h : c.wf = true) : shapeOk c = true := by
  have := payloadLen_of_wf h
  simp only [shapeOk, blackLen, redLen, Bool.and_eq_true, beq_iff_eq, true_and]
  omega

end Sys2Proof.Machine
end

