-- ==== Sys2Proof/Laws/PerInstr.lean ====
section
/-! SUPPORT. Facts about every instruction as syntax, one lemma per constructor: the words of an instruction are all
of its own format (30_encoding.md R80), and the rows without an encoding are those of format "internal". -/

namespace Sys2Proof

/-- Every word of a command with its data bytes is a panel word (R87). -/
theorem panelWords_format (command : Byte) (ds : List Byte) :
    ∀ w ∈ panelWords command ds, w.format = .panelWord := by
  simp [panelWords, Wire.format]

namespace Laws.EncodedFormat

/-- The words of `i` are of its format, and it has words unless it is internal. -/
def Statement (i : Instr) : Prop :=
  ∀ c : Cfg, (∀ w ∈ encode c i, w.format = i.format) ∧ (encode c i = [] ↔ i.format = .internal)

/-- The panel rows. -/
theorem of_panelWords {i : Instr} (hf : i.format = .panelWord)
    (he : ∀ c, ∃ command ds, encode c i = panelWords command ds) : Statement i := by
  intro c
  obtain ⟨command, ds, h⟩ := he c
  rw [h, hf]
  exact ⟨panelWords_format command ds, by simp [panelWords]⟩

/-- The rows of one word. -/
theorem of_word {i : Instr} (hn : i.format ≠ .internal)
    (he : ∀ c, ∃ w, encode c i = [w] ∧ w.format = i.format) : Statement i := by
  intro c
  obtain ⟨w, h, hf⟩ := he c
  simp [h, hf, hn]

/-- The rows without an encoding. -/
theorem of_noWord {i : Instr} (hi : i.format = .internal) (he : ∀ c, encode c i = []) : Statement i := by
  intro c
  simp [he c, hi]

theorem sendBuffer : Statement .sendBuffer := of_word (by decide) fun _ => ⟨_, rfl, rfl⟩
theorem writeScreen : Statement .writeScreen := of_word (by decide) fun _ => ⟨_, rfl, rfl⟩
theorem clearScreen : Statement .clearScreen := of_word (by decide) fun _ => ⟨_, rfl, rfl⟩
theorem unknown (op : Byte) : Statement (.unknown op) := of_word (nofun) fun _ => ⟨_, rfl, rfl⟩
theorem ack : Statement .ack := of_word (by decide) fun _ => ⟨_, rfl, rfl⟩
theorem ctlInit : Statement .ctlInit := of_word (by decide) fun _ => ⟨_, rfl, rfl⟩
theorem ctlSleep : Statement .ctlSleep := of_word (by decide) fun _ => ⟨_, rfl, rfl⟩
theorem btst : Statement .btst := of_panelWords rfl fun _ => ⟨_, _, rfl⟩
theorem pon : Statement .pon := of_panelWords rfl fun _ => ⟨_, _, rfl⟩
theorem psr : Statement .psr := of_panelWords rfl fun _ => ⟨_, _, rfl⟩
theorem cdi (b : Byte) : Statement (.cdi b) := of_panelWords rfl fun _ => ⟨_, _, rfl⟩
theorem tres : Statement .tres := of_panelWords rfl fun _ => ⟨_, _, rfl⟩
theorem dtm1 (src : PlaneSrc) : Statement (.dtm1 src) := of_panelWords rfl fun _ => ⟨_, _, rfl⟩
theorem dtm2 (src : PlaneSrc) : Statement (.dtm2 src) := of_panelWords rfl fun _ => ⟨_, _, rfl⟩
theorem drf : Statement .drf := of_panelWords rfl fun _ => ⟨_, _, rfl⟩
theorem flg : Statement .flg := of_panelWords rfl fun _ => ⟨_, _, rfl⟩
theorem pof : Statement .pof := of_panelWords rfl fun _ => ⟨_, _, rfl⟩
theorem dslp : Statement .dslp := of_panelWords rfl fun _ => ⟨_, _, rfl⟩
theorem data (b : Byte) : Statement (.data b) := of_word (nofun) fun _ => ⟨_, rfl, rfl⟩
theorem initPanel : Statement .initPanel := of_noWord rfl fun _ => rfl
theorem clear : Statement .clear := of_noWord rfl fun _ => rfl
theorem display : Statement .display := of_noWord rfl fun _ => rfl
theorem refresh : Statement .refresh := of_noWord rfl fun _ => rfl
theorem sleep : Statement .sleep := of_noWord rfl fun _ => rfl
theorem busyWait : Statement .busyWait := of_noWord rfl fun _ => rfl

end Laws.EncodedFormat

end Sys2Proof
end

