-- ==== Sys2Proof/Laws/TraceForms.lean ====
section
/-! SUPPORT. The small lemmas of what an observer reads off a trace: how each splits over two traces one after the
other. -/

namespace Sys2Proof.Machine

/-- Framing splits where a frame is complete. -/
theorem framed_append : ∀ a b : List Event, framed a = true → framed (a ++ b) = framed b
  | [], _, _ => rfl
  | .line .cs v :: es, b, h => by
    cases es with
    | nil => simp [framed] at h
    | cons e es =>
      cases e with
      | spi x =>
        cases es with
        | nil => simp [framed] at h
        | cons e es =>
          cases e with
          | line l u =>
            cases l with
            | cs =>
              simp only [framed, Bool.and_eq_true] at h
              simp only [List.cons_append, framed]
              rw [framed_append es b h.2.2, h.1, h.2.1]
              rfl
            | dc => simp [framed] at h
            | rst => simp [framed] at h
          | _ => simp [framed] at h
      | _ => simp [framed] at h
  | .line .dc _ :: es, b, h => by simp only [framed, List.cons_append] at h ⊢; exact framed_append es b h
  | .line .rst _ :: es, b, h => by simp only [framed, List.cons_append] at h ⊢; exact framed_append es b h
  | .spi _ :: _, _, h => by simp [framed] at h
  | .busy _ :: es, b, h => by simp only [framed, List.cons_append] at h ⊢; exact framed_append es b h
  | .arm :: es, b, h => by simp only [framed, List.cons_append] at h ⊢; exact framed_append es b h
  | .feed :: es, b, h => by simp only [framed, List.cons_append] at h ⊢; exact framed_append es b h
  | .delay _ :: es, b, h => by simp only [framed, List.cons_append] at h ⊢; exact framed_append es b h
  | .rx _ :: es, b, h => by simp only [framed, List.cons_append] at h ⊢; exact framed_append es b h
  | .tx _ :: es, b, h => by simp only [framed, List.cons_append] at h ⊢; exact framed_append es b h

/-- A feed behind the trace never hurts. -/
theorem fedPolls_mono {b : List Event} (h : fedPolls false b = true) (f : Bool) : fedPolls f b = true := by
  cases f with
  | false => exact h
  | true =>
    cases b with
    | nil => rfl
    | cons e es => cases e <;> simp_all [fedPolls]

theorem fedPolls_append {a b : List Event} {f : Bool} (ha : fedPolls f a = true) (hb : fedPolls false b = true) :
    fedPolls f (a ++ b) = true := by
  induction a generalizing f with
  | nil => exact fedPolls_mono hb f
  | cons e es ih => cases e <;> simp_all [fedPolls]

theorem fedDelays_mono {b : List Event} (h : fedDelays false b = true) (f : Bool) : fedDelays f b = true := by
  cases f with
  | false => exact h
  | true =>
    induction b with
    | nil => rfl
    | cons e es ih => cases e <;> simp_all [fedDelays]

theorem fedDelays_append {a b : List Event} {f : Bool} (ha : fedDelays f a = true)
    (hb : fedDelays false b = true) : fedDelays f (a ++ b) = true := by
  induction a generalizing f with
  | nil => exact fedDelays_mono hb f
  | cons e es ih => cases e <;> cases f <;> simp_all [fedDelays]

@[simp] theorem hostTx_append (a b : List Event) : hostTx (a ++ b) = hostTx a ++ hostTx b :=
  List.filterMap_append

@[simp] theorem hostRx_append (a b : List Event) : hostRx (a ++ b) = hostRx a ++ hostRx b :=
  List.filterMap_append

@[simp] theorem busySamples_append (a b : List Event) : busySamples (a ++ b) = busySamples a ++ busySamples b :=
  List.filterMap_append

@[simp] theorem pstateWrites_append (a b : List Micro) : pstateWrites (a ++ b) = pstateWrites a ++ pstateWrites b :=
  List.filterMap_append

/-- What a framed command with its data puts on the panel stream (R60, R87). -/
theorem panelStream_evSend (dc : Level) (command : Byte) (ds : List Byte) (es : List Event) :
    panelStream dc (evSend command ds ++ es) =
      (.driven 0, command) :: ds.map (fun b => (.driven 1, b)) ++
        panelStream (if ds = [] then .driven 0 else .driven 1) es := by
  have hd : ∀ (ds : List Byte) (l : Level), panelStream l (ds.flatMap evD ++ es) =
      ds.map (fun b => (.driven 1, b)) ++ panelStream (if ds = [] then l else .driven 1) es := by
    intro ds
    induction ds with
    | nil => intro l; simp
    | cons b ds ih => intro l; simp [evD, panelStream, ih]
  simp only [evSend, evC, List.cons_append, List.nil_append, panelStream]
  rw [hd]

end Sys2Proof.Machine
end

