-- ==== Sys2Proof/Tests/Slice0.lean ====
section
/-! SUPPORT. The model's own tests: ill-formed terms refused, words of spec/30_encoding.md decoded, one-step tests whose
expected events are those of spec/95_test_vectors.md on a small panel, and for every obligation with hypotheses a
concrete state that meets them. -/

namespace Sys2Proof.Machine.Tests

open Sys2Proof Sys2Proof.Machine

/-! ## A small build: the test binding of 95_test_vectors.md on an 8 × 1 panel, at most three polls -/

def tiny : Cfg :=
  { Cfg.build with
    width := 8
    height := 1
    payloadLen := 2
    busyMaxPolls := 3
    profile := .p1
    psrDataP1 := 0x8F
    psrDataP2 := 0x83
    cdiDataP1 := 0x77
    cdiDataP2 := 0x78
    clearByteRed := 0x00
    tresData := ⟨0x08, 0x00, 0x01⟩ }

/-- Between two dispatch cycles, with the panel in `p`, the busy line giving `samples`. -/
def ready (p : PState) (samples : List Bit) : State :=
  { State.reset with
    cfg := tiny
    dstate := .await
    seq := Seq.main
    wdtArmed := true
    pstate := p
    busyIn := samples }

/-- The same with bytes on the link. -/
def linked (p : PState) (samples : List Bit) (bytes : List Byte) : State :=
  { ready p samples with rx := bytes.map LinkSlot.byte }

/-- The state an outcome holds. -/
def stateOf : Host.Outcome State Fault Refusal → Option State
  | .next t => some t
  | .fault _ => none
  | .refused _ => none

/-- The events an outcome has recorded, in the order they happened. -/
def events (o : Host.Outcome State Fault Refusal) : Option (List Event) := (stateOf o).map fun t => t.trace.reverse

/-- `C(b)` and `D(b)` of R12, written out. -/
def c (b : Byte) : List Event := [.line .dc 0, .line .cs 0, .spi b, .line .cs 1]

def d (b : Byte) : List Event := [.line .dc 1, .line .cs 0, .spi b, .line .cs 1]

/-- The trace `Ib` of 95_test_vectors.md, with this build's bytes. -/
def ib : List Event :=
  [.line .rst 1, .feed, .delay 100, .line .rst 0, .feed, .delay 2, .line .rst 1, .feed, .delay 10]
    ++ c 0x06 ++ d 0x17 ++ d 0x17 ++ d 0x17 ++ c 0x04 ++ c 0x00 ++ d 0x8F ++ c 0x50 ++ d 0x77
    ++ c 0x61 ++ d 0x08 ++ d 0x00 ++ d 0x01

/-- V-B1's wait. -/
def readyWait : List Event := c 0x71 ++ [.feed, .busy 0, .feed, .delay 200]

/-! ## Well-formedness (00_scope.md R6) -/

theorem test_tiny_wf : tiny.wf = true := by decide

theorem test_build_wf : Cfg.build.wf = true := by decide

theorem test_geometry_refused : ({ tiny with width := 0 } : Cfg).firstBroken = some .geometry := by decide

theorem test_payload_refused : ({ tiny with payloadLen := 1 } : Cfg).firstBroken = some .payload := by decide

theorem test_opcodes_refused :
    ({ tiny with opClearScreen := 0x01 } : Cfg).firstBroken = some .opcodesDistinct := by decide

theorem test_ceiling_refused : ({ tiny with busyMaxPolls := 0 } : Cfg).firstBroken = some .ceiling := by decide

theorem test_resetMinimums_refused :
    ({ tiny with rstLowMs := 1 } : Cfg).firstBroken = some .resetMinimums := by decide

theorem test_watchdog_refused : ({ tiny with wdtTimeout := 200 } : Cfg).firstBroken = some .watchdog := by decide

theorem test_tres_refused :
    ({ tiny with width := 256, payloadLen := 64, tresData := ⟨0x00, 0x00, 0x01⟩ } : Cfg).firstBroken = some .tres := by
  decide

theorem test_unknown_opcode_ill_formed : Instr.wf tiny (.unknown 0x03) = false := by decide

theorem test_cdi_ill_formed : Instr.wf tiny (.cdi 0x00) = false := by decide

/-! ## Decoding: a word of every row that has an encoding, written out from R82, R86 and R88 -/

theorem test_decode_sendBuffer : decode tiny [.host 0x01, .host 0xAA] = .ok .sendBuffer [.host 0xAA] := by decide

theorem test_decode_writeScreen : decode tiny [.host 0x02] = .ok .writeScreen [] := by decide

theorem test_decode_clearScreen : decode tiny [.host 0x03] = .ok .clearScreen [] := by decide

theorem test_decode_unknown : decode tiny [.host 0x06] = .ok (.unknown 0x06) [] := by decide

theorem test_decode_ack : decode tiny [.tx 0x06] = .ok .ack [] := by decide

theorem test_decode_ctlInit : decode tiny [.ctl .init] = .ok .ctlInit [] := by decide

theorem test_decode_ctlSleep : decode tiny [.ctl .sleep] = .ok .ctlSleep [] := by decide

theorem test_decode_btst :
    decode tiny [.command 0x06, .data 0x17, .data 0x17, .data 0x17, .command 0x04] = .ok .btst [.command 0x04] := by
  decide

theorem test_decode_pon : decode tiny [.command 0x04] = .ok .pon [] := by decide

theorem test_decode_psr : decode tiny [.command 0x00, .data 0x8F] = .ok .psr [] := by decide

theorem test_decode_cdi : decode tiny [.command 0x50, .data 0x77] = .ok (.cdi 0x77) [] := by decide

theorem test_decode_tres :
    decode tiny [.command 0x61, .data 0x08, .data 0x00, .data 0x01] = .ok .tres [] := by decide

theorem test_decode_dtm1 : decode tiny [.command 0x10, .data 0xFF] = .ok (.dtm1 (.const 0xFF)) [] := by decide

theorem test_decode_dtm2 : decode tiny [.command 0x13] = .ok (.dtm2 .store) [] := by decide

theorem test_decode_drf : decode tiny [.command 0x12] = .ok .drf [] := by decide

theorem test_decode_flg : decode tiny [.command 0x71] = .ok .flg [] := by decide

theorem test_decode_pof : decode tiny [.command 0x02] = .ok .pof [] := by decide

theorem test_decode_dslp : decode tiny [.command 0x07, .data 0xA5] = .ok .dslp [] := by decide

theorem test_decode_data : decode tiny [.data 0xA5] = .ok (.data 0xA5) [] := by decide

theorem test_decode_rejects :
    decode tiny [] = .rejected .noWord ∧ decode tiny [.tx 0x15] = .rejected (.notAnAck 0x15) ∧
    decode tiny [.command 0x99] = .rejected (.notACommand 0x99) ∧
    decode tiny [.command 0x07] = .rejected (.wrongData 0x07) ∧
    decode tiny [.command 0x10, .data 0x00, .data 0x01] = .rejected (.notAPlane 0x10) := by decide

/-- The table's numbers under the test binding: WRITE_SCREEN and POF share 0x02, and the panel row is read
(log entry 16). -/
theorem test_decodeTableWord :
    decodeTableWord 8 0x01 = some .sendBuffer ∧ decodeTableWord 8 0x03 = some .clearScreen ∧
    decodeTableWord 8 0x7E = some (.unknown 0x7E) ∧ decodeTableWord 8 0x12 = some .drf := by decide

/-! ## Geometry (V-G1, V-G5, V-G12, V-G15) -/

theorem test_geometry : Cfg.build.bpr = 13 ∧ Cfg.build.planeSize = 2756 ∧
    ({ tiny with width := 9, height := 2 } : Cfg).planeSize = 4 := by decide

theorem test_pixel_places : byteIndex Cfg.build .black 50 100 = 1306 ∧ pixelBit 50 = 5 ∧
    byteIndex Cfg.build .red 103 211 = 5511 ∧ pixelBit 103 = 0 := by decide

/-! ## Panel rows (V-F1 to V-F8) -/

theorem test_pon : events (exec .pon (ready .idle [])) = some (c 0x04) := by decide

theorem test_data : events (exec (.data 0xFF) (ready .idle [])) = some (d 0xFF) := by decide

theorem test_btst : events (exec .btst (ready .idle [])) = some (c 0x06 ++ d 0x17 ++ d 0x17 ++ d 0x17) := by decide

theorem test_psr : events (exec .psr (ready .idle [])) = some (c 0x00 ++ d 0x8F) := by decide

theorem test_cdi : events (exec (.cdi 0xF7) (ready .idle [])) = some (c 0x50 ++ d 0xF7) := by decide

theorem test_tres : events (exec .tres (ready .idle [])) = some (c 0x61 ++ d 0x08 ++ d 0x00 ++ d 0x01) := by decide

theorem test_dtm1_const : events (exec (.dtm1 (.const 0xFF)) (ready .idle [])) = some (c 0x10 ++ d 0xFF) := by decide

theorem test_dtm1_store :
    events (exec (.dtm1 .store) { ready .idle [] with fb := [(0, 0x5A), (1, 0xA5)] }) = some (c 0x10 ++ d 0x5A) := by
  decide

theorem test_dtm2_store :
    events (exec (.dtm2 .store) { ready .idle [] with fb := [(0, 0x5A), (1, 0xA5)] }) = some (c 0x13 ++ d 0xA5) := by
  decide

theorem test_dtm2_outside_the_store :
    exec (.dtm2 .store) { ready .idle [] with cfg := { tiny with payloadLen := 1 } } =
      .fault (.noSuchCell 1) := rfl

theorem test_drf : events (exec .drf (ready .idle [])) = some (c 0x12) := by decide

theorem test_flg : events (exec .flg (ready .idle [])) = some (c 0x71) := by decide

theorem test_pof : events (exec .pof (ready .idle [])) = some (c 0x02) := by decide

theorem test_dslp :
    (stateOf (exec .dslp (ready .idle []))).map (fun t => (t.trace.reverse, t.lineDc, t.lineCs)) =
      some (c 0x07 ++ d 0xA5, .driven 1, .driven 1) := by decide

/-! ## The busy wait and the panel operations (V-B1 to V-B8, V-P1 to V-P12) -/

theorem test_busyWait_ready_second :
    (stateOf (exec .busyWait (ready .refreshing [1, 0, 1]))).map
        (fun t => (t.trace.reverse, t.polls, t.timedOut, t.busyIn)) =
      some (c 0x71 ++ [.feed, .busy 1, .delay 10, .feed, .busy 0, .feed, .delay 200], 2, false, [1]) := by decide

theorem test_busyWait_ceiling :
    (stateOf (exec .busyWait (ready .refreshing [1, 1, 1, 1]))).map
        (fun t => (t.polls, t.timedOut, t.bwActive, t.busyIn, t.diagCalls)) =
      some (3, true, false, [1], 1) := by decide

/-- The line of the ceiling, emitted or dropped. -/
theorem test_busyWait_ceiling_line :
    (stateOf (exec .busyWait (ready .refreshing [1, 1, 1, 1]))).map State.diag =
      some ((ready .refreshing []).said [.busyTimeout 3]).diag := rfl

/-- R22, R154: between the last sample and its diagnostic, after FLG and two primitives of the third pass, the session
is still open. -/
theorem test_position_between_sample_and_diag :
    (stateOf (exec .busyWait { ready .refreshing [1, 1, 1] with env := List.replicate 12 .quiet ++ [.pause] })).map
        (fun t => (t.seq, t.polls, t.timedOut, t.bwActive, t.diagCalls)) =
      some (⟨.instr .busyWait, 3, []⟩, 3, true, true, 0) := by decide

/-- R22: before the third DATA's `SpiWrite` of BTST, in Initialize as boot calls it. -/
theorem test_position_nested :
    (stateOf (step { State.reset with cfg := tiny, env := List.replicate 24 .quiet ++ [.pause] })).map
        (fun t => (t.seq.stack, t.trace.head?)) =
      some ([⟨.data, 2⟩, ⟨.instr .btst, 3⟩, ⟨.instr .initPanel, 1⟩, ⟨.boot, 1⟩], some (.line .cs 0)) := by decide

theorem test_initPanel :
    (stateOf (exec .initPanel (ready .sleeping []))).map (fun t => (t.trace.reverse, t.pstate)) = some (ib, .idle) := by
  decide

theorem test_clear :
    (stateOf (exec .clear (ready .idle [0]))).map (fun t => (t.trace.reverse, t.pstate, t.fb)) =
      some (c 0x10 ++ d 0xFF ++ c 0x13 ++ d 0x00 ++ c 0x12 ++ readyWait, .idle, []) := by decide

theorem test_clear_while_sleeping :
    (stateOf (exec .clear (ready .sleeping []))).map (fun t => (t.trace, t.fault, t.dstate)) =
      some ([], some ⟨0x04, .clear, .sleeping⟩, .faulted) := by decide

theorem test_display :
    events (exec .display { ready .idle [0] with fb := [(0, 0x5A), (1, 0xA5)] }) =
      some (c 0x10 ++ d 0x5A ++ c 0x13 ++ d 0xA5 ++ c 0x12 ++ readyWait) := by decide

theorem test_display_bad_shape :
    (stateOf (exec .display { ready .idle [] with cfg := { tiny with payloadLen := 1 } })).map
        (fun t => (t.trace, t.lastResult, t.pstate)) = some ([], .invalidFrameSize, .idle) := by decide

theorem test_refresh :
    (stateOf (exec .refresh (ready .writing [0]))).map (fun t => (t.trace.reverse, t.pstate)) =
      some (c 0x12 ++ readyWait, .idle) := by decide

theorem test_sleep :
    (stateOf (exec .sleep (ready .idle [0]))).map (fun t => (t.trace.reverse, t.pstate)) =
      some (c 0x50 ++ d 0xF7 ++ c 0x02 ++ readyWait ++ c 0x07 ++ d 0xA5, .sleeping) := by decide

/-! ## The dispatcher (V-D1 to V-D13) -/

theorem test_step_sendBuffer :
    (stateOf (step (linked .sleeping [] [0x01, 0xAA, 0x03]))).map
        (fun t => (t.trace.reverse, t.fb, t.dstate, t.pstate)) =
      some ([.rx 0x01, .tx 0x06, .rx 0xAA, .rx 0x03, .tx 0x06], [(0, 0xAA), (1, 0x03)], .await, .sleeping) := by decide

theorem test_step_sendBuffer_short :
    (stateOf (step (linked .idle [] [0x01, 0xAA]))).map (fun t => (t.trace.reverse, t.dstate, t.rxIdx, t.fault)) =
      some ([.rx 0x01, .tx 0x06, .rx 0xAA, .feed], .recv, 1, none) := by decide

theorem test_step_writeScreen_while_sleeping :
    (stateOf (step (linked .sleeping [] [0x02]))).map (fun t => (t.trace.reverse, t.fault, t.dstate)) =
      some ([.rx 0x02, .tx 0x06], some ⟨0x04, .display, .sleeping⟩, .faulted) := by decide

theorem test_step_clearScreen :
    events (step (linked .idle [0] [0x03])) =
      some ([.rx 0x03, .tx 0x06] ++ c 0x10 ++ d 0xFF ++ c 0x13 ++ d 0x00 ++ c 0x12 ++ readyWait ++ [.tx 0x06]) := by
  decide

theorem test_step_clearScreen_silent :
    (stateOf (step { linked .idle [0] [0x03] with cfg := { tiny with ackMode := .silent } })).map
        (fun t => (hostTx t.trace, t.diagCalls)) = some ([], 1) := by decide

theorem test_step_unknown :
    (stateOf (step (linked .idle [] [0x06, 0x03]))).map (fun t => (t.trace.reverse, t.diag, t.rx, t.dstate)) =
      some ([.rx 0x06], ((ready .idle []).said [.unknownOpcode 0x06]).diag, [.byte 0x03], .await) := rfl

theorem test_ack : events (exec .ack (ready .idle [])) = some [.tx 0x06] := by decide

theorem test_ack_silent :
    events (exec .ack { ready .idle [] with cfg := { tiny with ackMode := .silent } }) = some [] := by decide

theorem test_step_ctlInit :
    (stateOf (step { ready .sleeping [] with ctlReq := some .init })).map
        (fun t => (t.trace.reverse, t.pstate, t.ctlReq)) = some (ib, .idle, none) := by decide

theorem test_step_ctlSleep :
    (stateOf (step { ready .idle [0] with ctlReq := some .sleep })).map (fun t => (t.pstate, t.curOp, hostTx t.trace)) =
      some (.sleeping, .none, []) := by decide

/-! ## Reset and boot (V-R1, V-R4, R49) -/

theorem test_boot :
    (stateOf (step { State.reset with cfg := tiny })).map (fun t => (t.trace.reverse, t.dstate, t.pstate, t.wdtArmed)) =
      some (.arm :: ib, .await, .idle, true) := by decide

theorem test_reset_is_power_on : State.reset.resetTo .por = State.reset := rfl

/-- V-R2: a watchdog reset at the ninth primitive of a Clear-Screen. -/
theorem test_reset_inside_clearScreen :
    (stateOf (step { linked .idle [1] [0x03] with env := List.replicate 9 .quiet ++ [.wdtReset] })).map
        (fun t => (t.dstate, t.resetCause, t.pstate, t.wdtArmed, t.seq)) =
      some (.boot, .wdt, .unpowered, false, Seq.start .boot) := by decide

theorem test_withFetchWord :
    events (step (State.reset.withFetchWord 8 0x12)) = some (c 0x12) ∧
    (events (step (State.reset.withFetchWord 8 0x7E))) = some [.rx 0x7E] := by decide

/-! ## A state that meets the hypotheses of each obligation

Each theorem names the obligation it is about, and gives for every clause with hypotheses a state, and operands, that
meet them all; boundary values where a clause has a range. -/

/-- A state a build has between two cycles meets the invariant. -/
theorem ready_inv (p : PState) (samples : List Bit) : (ready p samples).Inv := by
  refine ⟨test_tiny_wf, ⟨rfl, rfl⟩, ⟨Nat.zero_le _, Nat.zero_le _, ?_⟩, ?_, ?_, ?_⟩
  · simp [ready, State.reset]
  · simp [State.FaultOk, ready, State.reset]
  · simp [State.ArmOk, ready, Seq.main, Seq.start]
  · simp [State.RecordOk, ready, State.reset]

/-- The samples of `ready p [0]` end its wait at once, and three busy samples end it at the ceiling. -/
theorem ready_ends (p : PState) : BusyEnds (ready p [0]) 1 false ∧ BusyEnds (ready p [1, 1, 1]) 3 true := by
  have h3 : ∀ j, j < 3 - 1 → (ready p [1, 1, 1]).sampleAt j = (ready p [1, 1, 1]).cfg.busyActive := by
    intro j hj
    have : j = 0 ∨ j = 1 := by omega
    obtain rfl | rfl := this <;> rfl
  exact ⟨⟨by simp, by simp [ready, tiny], fun j hj => absurd hj (by omega), by simp [ready, State.sampleAt, tiny, Cfg.build]⟩,
    ⟨by simp, by simp [ready, tiny], h3, by simp [ready, State.sampleAt, tiny, Cfg.build]⟩⟩

theorem witness_FirstByteDecidesFrame :
    tiny.wf = true ∧ (0x01 : Byte) = tiny.opSendBuffer ∧ (0x02 : Byte) = tiny.opWriteScreen ∧
    (0x03 : Byte) = tiny.opClearScreen ∧ (0x7E : Byte) ≠ tiny.opSendBuffer ∧ (0x7E : Byte) ≠ tiny.opWriteScreen ∧
    (0x7E : Byte) ≠ tiny.opClearScreen := by decide

theorem witness_UnknownClassHas253Bytes : tiny.wf = true := test_tiny_wf

theorem witness_DecodeEncodeRoundTrip :
    tiny.wf = true ∧ tiny.PanelDistinct ∧ Instr.wf tiny (.cdi 0xF7) = true ∧ encode tiny (.cdi 0xF7) ≠ [] ∧
    (∀ b ws, [Wire.command 0x02] ≠ .data b :: ws) :=
  ⟨test_tiny_wf, by decide, by decide, by decide, by simp⟩

theorem witness_DecodedWordsAreTheInstructions :
    decode tiny [.command 0x10, .data 0xFF, .host 0x02] = .ok (.dtm1 (.const 0xFF)) [.host 0x02] := by decide

theorem witness_StepRunsTheByteReceived :
    (linked .idle [] [0x7E, 0x01]).cfg.wf = true ∧ (linked .idle [] [0x7E, 0x01]).dstate ≠ .faulted ∧
    (linked .idle [] [0x7E, 0x01]).seq.op = .main ∧ (linked .idle [] [0x7E, 0x01]).Quiet ∧
    (linked .idle [] [0x7E, 0x01]).ctlReq = none ∧
    (linked .idle [] [0x7E, 0x01]).rx = .byte 0x7E :: [.byte 0x01] := ⟨test_tiny_wf, by decide, rfl, rfl, rfl, rfl⟩

/-- A request pending, and one that comes; the link empty in the one state and idle in the other. -/
theorem witness_StepTakesTheRequest :
    (({ ready .idle [] with ctlReq := some .sleep } : State).Quiet ∧
      NoByte ({ ready .idle [] with ctlReq := some .sleep } : State).rx) ∧
    (({ ready .idle [] with env := [.request .init], rx := [.idle] } : State).env = .request .init :: [] ∧
      ({ ready .idle [] with env := [.request .init], rx := [.idle] } : State).ctlReq = none ∧
      NoByte ({ ready .idle [] with env := [.request .init], rx := [.idle] } : State).rx) ∧
    tiny.wf = true ∧ (ready .idle []).dstate ≠ .faulted ∧ (ready .idle []).seq.op = .main :=
  ⟨⟨rfl, by simp [NoByte, ready, State.reset]⟩, ⟨rfl, rfl, by simp [NoByte]⟩, test_tiny_wf, by decide, rfl⟩

/-- V-D12: a request pending and a byte at hand, with the choice listed either way and not at all. -/
theorem witness_StepAdmitsBothOrders (choice : List Bool) :
    ({ linked .idle [] [0x03] with ctlReq := some .sleep, firstIn := choice } : State).Quiet ∧
    ({ linked .idle [] [0x03] with ctlReq := some .sleep, firstIn := choice } : State).ctlReq = some .sleep ∧
    ({ linked .idle [] [0x03] with ctlReq := some .sleep, firstIn := choice } : State).rx = .byte 0x03 :: [] ∧
    ({ linked .idle [] [0x03] with ctlReq := some .sleep, firstIn := choice } : State).firstIn = choice ∧
    tiny.wf = true ∧ (ready .idle []).dstate ≠ .faulted ∧ (ready .idle []).seq.op = .main :=
  ⟨rfl, rfl, rfl, rfl, test_tiny_wf, by decide, rfl⟩

theorem witness_StepWaitsByFeeding :
    (ready .idle []).cfg.wf = true ∧ (ready .idle []).dstate ≠ .faulted ∧ (ready .idle []).seq.op = .main ∧
    (ready .idle []).Quiet ∧ (ready .idle []).ctlReq = none ∧ NoByte (ready .idle []).rx :=
  ⟨test_tiny_wf, by decide, rfl, rfl, rfl, by simp [NoByte, ready, State.reset]⟩

/-- The position of an instruction that has not begun, and one inside it; and Write-Screen stopped before the raise of
Display's entry check, with the panel asleep. -/
theorem witness_StepContinuesAtThePosition (n : Nat) (fs : List Frame) :
    (({ ready .idle [] with seq := ⟨.instr .pon, n, fs⟩ } : State).cfg.wf = true ∧
      ({ ready .idle [] with seq := ⟨.instr .pon, n, fs⟩ } : State).dstate ≠ .faulted ∧
      ({ ready .idle [] with seq := ⟨.instr .pon, n, fs⟩ } : State).seq.op = .instr .pon ∧
      ({ ready .idle [] with seq := ⟨.instr .pon, 0, []⟩ } : State).seq = Seq.start (.instr .pon)) ∧
    ∃ a b u t, opCode tiny (.instr .writeScreen) = a ++ Micro.enter .display :: b ∧
      walk (Seq.start (.instr .writeScreen)) a (ready .sleeping []) = .done u ∧
      (Micro.enter .display).exec { u with env := [.pause] } = .hold t :=
  ⟨⟨test_tiny_wf, by simp [ready], rfl, rfl⟩, (opCode tiny (.instr .writeScreen)).take 6,
    (opCode tiny (.instr .writeScreen)).drop 7, _, _, rfl, rfl, rfl⟩

/-- R22, R205: a pause before the raise of a called operation's entry check loses no fault. -/
theorem test_paused_raise :
    ((stateOf (step { linked .sleeping [] [0x02] with env := [.quiet, .quiet, .pause] })).bind
        fun t => stateOf (step t)).map (fun t => (t.trace.reverse, t.fault, t.dstate)) =
      some ([.rx 0x02, .tx 0x06], some ⟨0x04, .display, .sleeping⟩, .faulted) := by decide

/-- An assignment, a raise passed over and an open diagnostic passed over; a primitive of each loop; a call that
returns; and the poll loop, ready and at the ceiling. -/
theorem witness_PositionAdvancesAndNests :
    ((Micro.enter .display).counts (ready .idle []) = false ∧ Micro.enter .display ≠ .ret ∧
      Micro.enter .display ≠ .pollHead ∧ Micro.enter .display ≠ .pollExit ∧
      (Micro.enter .display).exec (ready .idle []) = .go (ready .idle [])) ∧
    (Micro.diagShape.counts (ready .idle []) = false ∧ Micro.diagShape.exec (ready .idle []) = .go (ready .idle [])) ∧
    (Micro.memWrite.counts (ready .idle []) = true ∧ (∀ op, Micro.memWrite ≠ .call op) ∧
      (ready .idle []).rxIdx < (ready .idle []).cfg.payloadLen ∧
      ∃ t, Micro.memWrite.exec { ready .idle [] with env := [.quiet] } = .go t) ∧
    (Micro.pollFeed.counts (ready .refreshing []).openSession = true ∧
      (ready .refreshing []).openSession.polls < (ready .refreshing []).openSession.cfg.busyMaxPolls ∧
      ∃ t, Micro.pollFeed.exec { (ready .refreshing []).openSession with env := [.quiet] } = .go t) ∧
    (∃ t, walk (Seq.start (.instr .sleep)) (callCode (.instr .pof) (instrCode tiny .pof)) (ready .idle []) = .done t) ∧
    ((ready .refreshing []).openSession.Quiet ∧ (ready .refreshing []).openSession.bwActive = true ∧
      (ready .refreshing []).openSession.polls = 0 ∧ BusyEnds (ready .refreshing [0]).openSession 1 false ∧
      BusyEnds (ready .refreshing [1, 1, 1]).openSession 3 true) :=
  ⟨⟨rfl, by simp, by simp, by simp, rfl⟩, ⟨rfl, rfl⟩, ⟨rfl, by simp, by decide, _, rfl⟩, ⟨rfl, by decide, _, rfl⟩,
    ⟨_, rfl⟩, rfl, rfl, rfl, ready_ends .refreshing⟩

/-- R22, R172: each byte of the payload has steps of its own. -/
theorem test_position_of_second_byte :
    (stateOf (step (linked .idle [] [0x01, 0xAA]))).map State.seq = some ⟨.instr .sendBuffer, 3, []⟩ := by decide

/-- R22, R173: in Write-Screen the FRAME_SIZE diagnostic that is passed over is no step: DONE is the third, step 2. -/
theorem test_position_of_done :
    (stateOf (step { linked .idle [0] [0x02] with
        cfg := { tiny with ackMode := .silent }, env := List.replicate 31 .quiet ++ [.pause] })).map State.seq =
      some ⟨.instr .writeScreen, 2, []⟩ := by decide

theorem witness_StepRunsTheTableWord :
    (ready .idle []).cfg.wf = true ∧
    (tableInstr (ready .idle []).cfg 8 0x12 = some .drf ∧ Instr.drf.format = .panelWord) ∧
    (tableInstr (ready .idle []).cfg 8 0x01 = some .sendBuffer ∧ Instr.sendBuffer.format = .hostCmd) := by decide

theorem witness_IllFormedConfigIsRefused :
    ({ ready .idle [] with cfg := { tiny with rstLowMs := 1 } } : State).cfg.wf = false := by decide

/-- A faulted block, with each of the environment's events of the statement. -/
theorem witness_FaultedBlockOnlyResets (es : List EnvEvent) :
    ({ ready .sleeping [] with dstate := .faulted, env := es } : State).cfg.wf = true ∧
    ({ ready .sleeping [] with dstate := .faulted, env := es } : State).dstate = .faulted ∧
    ({ ready .sleeping [] with dstate := .faulted, env := es } : State).env = es := ⟨test_tiny_wf, rfl, rfl⟩

/-- The hypothesis of CommandByteIsFramed, DataByteIsFramed, CommandIsSentWithItsData, ConstantPlaneIsStreamed,
UnknownOpcodeIsOnlyLogged and AckFollowsTheConvention, in each convention. -/
theorem witness_Quiet (p : PState) :
    (ready p []).Quiet ∧ (ready p []).cfg.ackMode = .ack ∧
    ({ ready p [] with cfg := { tiny with ackMode := .silent } } : State).Quiet ∧
    ({ ready p [] with cfg := { tiny with ackMode := .silent } } : State).cfg.ackMode = .silent :=
  ⟨rfl, rfl, rfl, rfl⟩

/-- Stores that hold both planes exactly, one plane exactly, and neither. -/
theorem witness_StoredPlaneIsStreamed :
    (ready .idle []).Quiet ∧ tiny.planeSize ≤ tiny.payloadLen ∧ 2 * tiny.planeSize ≤ tiny.payloadLen ∧
    ({ tiny with payloadLen := 0 } : Cfg).payloadLen < ({ tiny with payloadLen := 0 } : Cfg).planeSize ∧
    ({ tiny with payloadLen := 1 } : Cfg).payloadLen < 2 * ({ tiny with payloadLen := 1 } : Cfg).planeSize := by decide

theorem witness_EveryBusyWaitEnds :
    (ready .refreshing []).Quiet ∧ (ready .refreshing []).pstate = .refreshing ∧
    (ready .initializing []).pstate = .initializing ∧ 1 ≤ (ready .refreshing []).cfg.busyMaxPolls :=
  ⟨rfl, rfl, rfl, by decide⟩

/-- BusyWait, Refresh, Clear, Sleep, Clear-Screen: a wait that ends ready at its first sample, and one at the
ceiling. -/
theorem witness_wait (p : PState) :
    (ready p [0]).Quiet ∧ (ready p [0]).pstate = p ∧ BusyEnds (ready p [0]) 1 false ∧
    (ready p [1, 1, 1]).Quiet ∧ (ready p [1, 1, 1]).pstate = p ∧ BusyEnds (ready p [1, 1, 1]) 3 true :=
  ⟨rfl, rfl, (ready_ends p).1, rfl, rfl, (ready_ends p).2⟩

/-- Initialize, the INIT request and boot, with and without the wait after power-on. -/
theorem witness_InitializeConfiguresThePanel :
    (ready .unpowered []).Quiet ∧ (ready .unpowered []).cfg.initBusyWait = false ∧
    ({ ready .sleeping [0] with cfg := { tiny with initBusyWait := true } } : State).Quiet ∧
    ({ ready .sleeping [0] with cfg := { tiny with initBusyWait := true } } : State).cfg.initBusyWait = true ∧
    BusyEnds { ready .sleeping [0] with cfg := { tiny with initBusyWait := true } } 1 false :=
  ⟨rfl, rfl, rfl, rfl, by decide, by decide, fun j hj => absurd hj (by omega), by decide⟩

/-- Display and Write-Screen. -/
theorem witness_DisplaySendsTheStoredFrame :
    (ready .idle [0]).Quiet ∧ (ready .idle [0]).pstate = .idle ∧ shapeOk (ready .idle [0]).cfg = true ∧
    BusyEnds (ready .idle [0]).frameRead 1 false :=
  ⟨rfl, rfl, by decide, by decide, by decide, fun j hj => absurd hj (by omega), by decide⟩

theorem witness_BadFrameShapeSendsNothing :
    ({ ready .idle [] with cfg := { tiny with payloadLen := 1 } } : State).pstate = .idle ∧
    shapeOk ({ ready .idle [] with cfg := { tiny with payloadLen := 1 } } : State).cfg = false ∧
    ({ ready .idle [] with cfg := { tiny with payloadLen := 1 } } : State).Quiet := ⟨rfl, by decide, rfl⟩

/-- Each operation with an entry check outside its states, and inside them. -/
theorem witness_EntryCheckFaultsOrPasses :
    validIn .clear (ready .sleeping []).pstate = false ∧ validIn .display (ready .writing []).pstate = false ∧
    validIn .refresh (ready .idle []).pstate = false ∧ validIn .sleep (ready .sleeping []).pstate = false ∧
    validIn .busyWait (ready .idle []).pstate = false ∧ validIn .initPanel (ready .refreshing []).pstate = true := by
  decide

theorem witness_CommandFaultsOutsideIdle : (ready .sleeping []).Quiet ∧ (ready .sleeping []).pstate ≠ .idle :=
  ⟨rfl, by decide⟩

theorem witness_SendBufferStoresThePayload :
    (linked .idle [] [0xAA, 0x55, 0x02]).Quiet ∧
    [(0xAA : Byte), 0x55].length = (linked .idle [] [0xAA, 0x55, 0x02]).cfg.payloadLen ∧
    (linked .idle [] [0xAA, 0x55, 0x02]).rx = [(0xAA : Byte), 0x55].map LinkSlot.byte ++ [.byte 0x02] ∧
    Memory.wf (linked .idle [] [0xAA, 0x55, 0x02]).fb = true := ⟨rfl, rfl, rfl, rfl⟩

/-- One byte of two, and none at all. -/
theorem witness_ShortPayloadLeavesTheBlockReceiving :
    (linked .idle [] [0xAA]).Quiet ∧ [(0xAA : Byte)].length < (linked .idle [] [0xAA]).cfg.payloadLen ∧
    (linked .idle [] [0xAA]).rx = [(0xAA : Byte)].map LinkSlot.byte ++ [] ∧ NoByte [] ∧
    ([] : List Byte).length < (linked .idle [] []).cfg.payloadLen ∧
    (linked .idle [] []).rx = ([] : List Byte).map LinkSlot.byte ++ [] :=
  ⟨rfl, by decide, rfl, by simp [NoByte], by decide, rfl⟩

/-- The last byte for a block in the loop, and none for one there with none, and with one, stored. -/
theorem witness_InterruptedPayloadIsCompleted :
    ({ linked .idle [] [0x55] with seq := Seq.receiving 1, rxIdx := 1, dstate := .recv } : State).cfg.wf = true ∧
    ({ linked .idle [] [0x55] with seq := Seq.receiving 1, rxIdx := 1, dstate := .recv } : State).dstate ≠ .faulted ∧
    ({ linked .idle [] [0x55] with seq := Seq.receiving 1, rxIdx := 1, dstate := .recv } : State).Quiet ∧
    1 + [(0x55 : Byte)].length = tiny.payloadLen ∧
    ({ linked .idle [] [0x55] with seq := Seq.receiving 1, rxIdx := 1, dstate := .recv } : State).rx =
      [(0x55 : Byte)].map LinkSlot.byte ++ [] ∧
    ({ linked .idle [] [0x55] with seq := Seq.receiving 0, dstate := .recv } : State).rxIdx = 0 ∧
    0 + [(0x55 : Byte)].length < tiny.payloadLen ∧ NoByte [] ∧
    ({ linked .idle [] [] with seq := Seq.receiving 1, rxIdx := 1, dstate := .recv } : State).Quiet ∧
    1 + ([] : List Byte).length < tiny.payloadLen ∧
    ({ linked .idle [] [] with seq := Seq.receiving 1, rxIdx := 1, dstate := .recv } : State).rx =
      ([] : List Byte).map LinkSlot.byte ++ [] :=
  ⟨test_tiny_wf, by simp, rfl, rfl, rfl, rfl, by decide, by simp [NoByte], rfl, by decide, rfl⟩

/-- A command that completes, one that waits, and an instruction that is no command, with the events each records. -/
theorem witness_AckBytesPerCommand :
    (∃ t, exec .sendBuffer (linked .idle [] [0xAA, 0x55]) = .next t ∧
      t.trace = [Event.tx 0x06, .rx 0xAA, .rx 0x55, .tx 0x06].reverse ++ (linked .idle [] [0xAA, 0x55]).trace) ∧
    (∃ t, exec .sendBuffer (linked .idle [] []) = .next t ∧
      t.trace = [Event.tx 0x06, .feed].reverse ++ (linked .idle [] []).trace) ∧
    (∃ t, exec .drf (ready .idle []) = .next t ∧ t.trace = (c 0x12).reverse ++ (ready .idle []).trace) ∧
    (ready .idle []).Quiet := ⟨⟨_, rfl, rfl⟩, ⟨_, rfl, rfl⟩, ⟨_, rfl, rfl⟩, rfl⟩

/-- `SEND_BUFFER AA 55; WRITE_SCREEN`, and a wait from the state the first command leaves. -/
theorem witness_StoredFrameIsShownAsReceived :
    (linked .idle [0] [0x01, 0xAA, 0x55, 0x02]).cfg.wf = true ∧
    (linked .idle [0] [0x01, 0xAA, 0x55, 0x02]).dstate ≠ .faulted ∧
    (linked .idle [0] [0x01, 0xAA, 0x55, 0x02]).seq.op = .main ∧ (linked .idle [0] [0x01, 0xAA, 0x55, 0x02]).Quiet ∧
    (linked .idle [0] [0x01, 0xAA, 0x55, 0x02]).ctlReq = none ∧
    (linked .idle [0] [0x01, 0xAA, 0x55, 0x02]).pstate = .idle ∧ [(0xAA : Byte), 0x55].length = tiny.payloadLen ∧
    (linked .idle [0] [0x01, 0xAA, 0x55, 0x02]).rx =
      .byte tiny.opSendBuffer :: ([(0xAA : Byte), 0x55].map LinkSlot.byte ++ .byte tiny.opWriteScreen :: []) ∧
    (∃ t, step (linked .idle [0] [0x01, 0xAA, 0x55, 0x02]) = .next t ∧ BusyEnds t 1 false) :=
  ⟨test_tiny_wf, by decide, rfl, rfl, rfl, rfl, rfl, rfl,
    ⟨_, rfl, by decide, by decide, fun j hj => absurd hj (by omega), by decide⟩⟩

theorem witness_ClearThenDisplayRefreshesTwice :
    (ready .idle [0, 0]).Quiet ∧ (ready .idle [0, 0]).cfg.wf = true ∧ (ready .idle [0, 0]).cfg.PanelDistinct ∧
    (ready .idle [0, 0]).pstate = .idle := ⟨rfl, test_tiny_wf, by decide, rfl⟩

/-- Each operation with the events it records. -/
theorem witness_FramedBytesPerOperation :
    tiny.wf = true ∧ (ready .idle [0]).Quiet ∧
    ((ready .sleeping []).cfg.initBusyWait = false ∧ ∃ t es, exec .initPanel (ready .sleeping []) = .next t ∧
      t.trace = List.reverse es ++ (ready .sleeping []).trace) ∧
    ((ready .idle [0]).pstate = .idle ∧ ∃ t es, exec .clear (ready .idle [0]) = .next t ∧
      t.trace = List.reverse es ++ (ready .idle [0]).trace) ∧
    (∃ t es, exec .display (ready .idle [0]) = .next t ∧ t.trace = List.reverse es ++ (ready .idle [0]).trace) ∧
    ((ready .writing [0]).pstate = .writing ∧ ∃ t es, exec .refresh (ready .writing [0]) = .next t ∧
      t.trace = List.reverse es ++ (ready .writing [0]).trace) ∧
    (∃ t es, exec .sleep (ready .idle [0]) = .next t ∧ t.trace = List.reverse es ++ (ready .idle [0]).trace) := by
  have e : ∀ l : List Event, l = List.reverse (List.reverse l) ++ [] := by simp
  exact ⟨test_tiny_wf, rfl, ⟨rfl, _, _, rfl, e _⟩, ⟨rfl, _, _, rfl, e _⟩, ⟨_, _, rfl, e _⟩, ⟨rfl, _, _, rfl, e _⟩,
    ⟨_, _, rfl, e _⟩⟩

/-- EveryTraceIsFramedAndFed and OnlySendBufferReceivesAndStores. -/
theorem witness_EveryTraceIsFramedAndFed :
    (ready .idle [1, 0]).Quiet ∧ Instr.clear ≠ .sendBuffer ∧ ∃ t, exec .clear (ready .idle [1, 0]) = .next t :=
  ⟨rfl, by decide, _, rfl⟩

/-- A step that goes on, one that writes the panel state, an instruction with an entry check and one without. -/
theorem witness_PanelStateFollowsTheEdges :
    (∃ t, Micro.exec (.setPState .writing) (ready .idle []) = .go t) ∧
    (∃ t, Micro.exec .feed (ready .idle []) = .go t) ∧ (∀ p, Micro.feed ≠ .setPState p) ∧
    (∀ op, entryOp .clear = some op → validIn op .idle = true) ∧
    (∀ op, entryOp .pon = some op → validIn op .unpowered = true) :=
  ⟨⟨_, rfl⟩, ⟨_, rfl⟩, by simp, by simp [entryOp, validIn], by simp [entryOp]⟩

/-- A SLEEP request while the panel sleeps. -/
theorem witness_OnlyInitializeWakesThePanel :
    Instr.ctlSleep ≠ .initPanel ∧ Instr.ctlSleep ≠ .ctlInit ∧ (ready .sleeping []).pstate = .sleeping ∧
    ∃ t, exec .ctlSleep (ready .sleeping []) = .next t := ⟨by simp, by simp, rfl, _, rfl⟩

theorem witness_StepKeepsTheConfiguration : ∃ t, step (linked .idle [] [0x7E]) = .next t := ⟨_, rfl⟩

theorem witness_BuiltMachineAlwaysSteps : (ready .idle []).cfg.wf = true := test_tiny_wf

/-- The three places in a dispatch cycle, and a step from each. -/
theorem witness_DispatchCycleEndsSettled :
    ((linked .idle [] [0x01]).InCycle ∧ ∃ t, step (linked .idle [] [0x01]) = .next t ∧ t.dstate = .recv) ∧
    (({ linked .sleeping [] [0x55] with seq := Seq.receiving 0, dstate := .recv, curOp := .sendBuffer } : State).InCycle ∧
      ∃ t, step { linked .sleeping [] [0x55] with seq := Seq.receiving 0, dstate := .recv, curOp := .sendBuffer } =
        .next t) ∧
    (({ ready .sleeping [] with dstate := .faulted, fault := some ⟨0x04, .display, .sleeping⟩ } : State).InCycle ∧
      ∃ t, step { ready .sleeping [] with dstate := .faulted, fault := some ⟨0x04, .display, .sleeping⟩ } = .next t) ∧
    (∃ t, step (linked .sleeping [] [0x02]) = .next t ∧ t.dstate = .faulted) :=
  ⟨⟨⟨test_tiny_wf, rfl, .inl ⟨rfl, rfl, rfl, rfl, rfl, rfl, .inl rfl⟩⟩, _, rfl, rfl⟩,
    ⟨⟨test_tiny_wf, rfl, .inr (.inl ⟨rfl, by decide, rfl, rfl, rfl, rfl, rfl, .inr rfl⟩)⟩, _, rfl⟩,
    ⟨⟨test_tiny_wf, rfl, .inr (.inr ⟨rfl, rfl, .display, rfl, rfl⟩)⟩, _, rfl⟩, _, rfl, rfl⟩

/-- An instruction; and a SLEEP request in the forever loop with the panel asleep, whose raise two pauses precede. -/
theorem witness_PausedOperationGoesOn :
    ((ready .idle []).cfg.wf = true ∧ (ready .idle []).dstate ≠ .faulted ∧ (ready .idle []).Quiet ∧
      (∃ u, exec .pon (ready .idle []) = .next u) ∧
      ∃ t, exec .pon { ready .idle [] with env := List.replicate 2 .quiet ++ [.pause] } = .next t ∧ t.env = []) ∧
    (({ ready .sleeping [] with ctlReq := some .sleep } : State).Quiet ∧
      ({ ready .sleeping [] with ctlReq := some .sleep } : State).seq.op = .main ∧
      (∃ u, step { ready .sleeping [] with ctlReq := some .sleep } = .next u ∧ u.dstate = .faulted) ∧
      ∃ t, PausedThrough [0, 1] { ready .sleeping [] with ctlReq := some .sleep } t) ∧
    (State.reset.Quiet ∧ State.reset.seq = Seq.start State.reset.seq.op) :=
  ⟨⟨test_tiny_wf, by decide, rfl, ⟨_, rfl⟩, _, rfl, rfl⟩,
    ⟨rfl, rfl, ⟨_, rfl, rfl⟩, _, _, rfl, rfl, _, rfl, rfl, rfl⟩, rfl, rfl⟩

/-- The corners of the default panel. -/
theorem witness_PixelsAreDistinctBits :
    0 < Cfg.build.width ∧ 0 < Cfg.build.height ∧ 103 < Cfg.build.width ∧ 211 < Cfg.build.height := by decide

theorem witness_SecondRequestIsLost :
    ({ ready .idle [] with env := [.request .init] } : State).env = .request .init :: [] ∧
    ({ ready .idle [] with env := [.request .init] } : State).ctlReq = none ∧
    ({ ready .idle [] with env := [.request .init], ctlReq := some .sleep } : State).ctlReq = some .sleep :=
  ⟨rfl, rfl, rfl⟩

/-- A request before the last primitive of an instruction, of what is left of one, and of boot's first steps. -/
theorem witness_RequestNeverInterrupts :
    ((ready .idle []).Quiet ∧ ∃ t, exec .pon (ready .idle []) = .next t ∧
      exec .pon { ready .idle [] with env := List.replicate 4 .quiet } = .next t) ∧
    (({ ready .idle [] with seq := ⟨.instr .pon, 0, [⟨.command, 2⟩]⟩ } : State).seq.op ≠ .main ∧
      ({ ready .idle [] with seq := ⟨.instr .pon, 0, [⟨.command, 2⟩]⟩ } : State).Quiet ∧
      ∃ t, step { ready .idle [] with seq := ⟨.instr .pon, 0, [⟨.command, 2⟩]⟩ } = .next t ∧
        step { ready .idle [] with seq := ⟨.instr .pon, 0, [⟨.command, 2⟩]⟩, env := List.replicate 2 .quiet } =
          .next t) ∧ tiny.wf = true ∧ (ready .idle []).dstate ≠ .faulted :=
  ⟨⟨rfl, _, rfl, rfl⟩, ⟨by simp, rfl, _, rfl, rfl⟩, test_tiny_wf, by decide⟩

theorem witness_NothingReadsTheDiagnostics :
    (∃ t, step (linked .idle [] [0x7E]) = .next t) ∧
    ({ ready .idle [] with env := [.lines [.status, .busyPoll]] } : State).env = .lines [.status, .busyPoll] :: [] :=
  ⟨⟨_, rfl⟩, rfl⟩

/-- V-R2: a watchdog reset in a Clear-Screen. -/
theorem witness_ResetTakesOverAnywhere :
    ({ linked .idle [0] [0x03] with env := List.replicate 9 .quiet ++ [.wdtReset] } : State).cfg.wf = true ∧
    (EnvEvent.wdtReset = .por ∧ ResetCause.wdt = .por ∨ EnvEvent.wdtReset = .wdtReset ∧ ResetCause.wdt = .wdt ∨
      EnvEvent.wdtReset = .bothResets ∧ ResetCause.wdt = .por) ∧
    ({ linked .idle [0] [0x03] with env := List.replicate 9 .quiet ++ [.wdtReset] } : State).env =
      List.replicate 9 .quiet ++ .wdtReset :: [] ∧
    ∃ u, step { linked .idle [0] [0x03] with env := List.replicate 10 .quiet } = .next u ∧ u.env = [] :=
  ⟨test_tiny_wf, by decide, rfl, _, rfl, rfl⟩

/-- In `FAULTED` and in the forever loop, with each reset. -/
theorem witness_ResetIsTakenAtOnceWhileWaiting (es : List EnvEvent) :
    ({ ready .sleeping [] with dstate := .faulted, env := es } : State).dstate = .faulted ∧
    ({ ready .idle [] with env := es } : State).seq.op = .main ∧
    ({ ready .idle [] with env := es } : State).env = es ∧ tiny.wf = true := ⟨rfl, rfl, rfl, test_tiny_wf⟩

/-- After reset, without and with the wait after power-on. -/
theorem witness_BootArmsAndInitializes :
    ({ State.reset with cfg := tiny } : State).cfg.wf = true ∧
    ({ State.reset with cfg := tiny } : State).dstate ≠ .faulted ∧ ({ State.reset with cfg := tiny } : State).Quiet ∧
    ({ State.reset with cfg := tiny } : State).seq = Seq.start .boot ∧
    ({ State.reset with cfg := tiny } : State).cfg.initBusyWait = false ∧
    ({ tiny with initBusyWait := true } : Cfg).wf = true ∧ ({ tiny with initBusyWait := true } : Cfg).initBusyWait = true ∧
    BusyEnds { State.reset with cfg := { tiny with initBusyWait := true }, busyIn := [0] } 1 false :=
  ⟨test_tiny_wf, by decide, rfl, rfl, rfl, by decide, rfl, by decide, by decide, fun j hj => absurd hj (by omega),
    by decide⟩

theorem witness_StepKeepsTheInvariant (p : PState) :
    (ready p []).Inv ∧ ∃ t, step (ready .idle []) = .next t := ⟨ready_inv p [], _, rfl⟩

end Sys2Proof.Machine.Tests
end

section
/-! What a configuration passes and what a step makes of one that passes not all (R6), and that nothing the machine runs
writes CFG (R5). -/

namespace Sys2Proof

/-! ### The checks of R6 -/

theorem CfgCheck.mem_all (k : CfgCheck) : k ∈ CfgCheck.all := by
  cases k <;> decide

/-- A configuration is well formed when it passes every check. -/
theorem Cfg.wf_iff_passes (c : Cfg) : c.wf = true ↔ ∀ k, c.passes k = true := by
  simp [Cfg.wf, CfgCheck.mem_all]

theorem Cfg.passes_geometry_iff (c : Cfg) : c.passes .geometry = true ↔ 1 ≤ c.width ∧ 1 ≤ c.height := by
  simp [Cfg.passes]

theorem Cfg.passes_payload_iff (c : Cfg) : c.passes .payload = true ↔ c.payloadLen = 2 * c.planeSize := by
  simp [Cfg.passes]

theorem Cfg.passes_opcodesDistinct_iff (c : Cfg) : c.passes .opcodesDistinct = true ↔
    c.opSendBuffer ≠ c.opWriteScreen ∧ c.opSendBuffer ≠ c.opClearScreen ∧ c.opWriteScreen ≠ c.opClearScreen := by
  simp [Cfg.passes, and_assoc]

theorem Cfg.passes_ceiling_iff (c : Cfg) : c.passes .ceiling = true ↔ 1 ≤ c.busyMaxPolls := by
  simp [Cfg.passes]

theorem Cfg.passes_resetMinimums_iff (c : Cfg) : c.passes .resetMinimums = true ↔
    100 ≤ c.rstHighMs ∧ 2 ≤ c.rstLowMs ∧ 10 ≤ c.rstSettleMs := by
  simp [Cfg.passes, and_assoc]

theorem Cfg.passes_watchdog_iff (c : Cfg) : c.passes .watchdog = true ↔
    c.pollMs < c.wdtTimeout ∧ c.settleMs < c.wdtTimeout ∧ c.rstHighMs < c.wdtTimeout ∧
      c.rstLowMs < c.wdtTimeout ∧ c.rstSettleMs < c.wdtTimeout := by
  simp [Cfg.passes, and_assoc]

theorem Cfg.passes_tres_iff (c : Cfg) : c.passes .tres = true ↔
    (c.tresData = Cfg.gkTres c.width c.height → c.width ≤ 255 ∧ c.height ≤ 65535) := by
  simp [Cfg.passes, imp_iff_not_or]

/-- The check that is found broken is one the configuration does not pass. -/
theorem Cfg.passes_of_firstBroken {c : Cfg} {k : CfgCheck} (h : c.firstBroken = some k) : c.passes k = false := by
  simpa using List.find?_some h

/-- A check is found broken exactly when the configuration is not well formed. -/
theorem Cfg.firstBroken_eq_none_iff (c : Cfg) : c.firstBroken = none ↔ c.wf = true := by
  simp [Cfg.firstBroken, Cfg.wf]

end Sys2Proof

namespace Sys2Proof.Machine

/-- Settles O13: each check is read off by its own lemma, and the step names the first check found broken. -/
theorem illFormedConfigIsRefused : Obligations.IllFormedConfigIsRefused := by
  unfold Obligations.IllFormedConfigIsRefused
  refine ⟨fun c => ?_, fun s hs => ?_⟩
  · rw [Cfg.wf_iff_passes, ← Cfg.passes_geometry_iff, ← Cfg.passes_payload_iff, ← Cfg.passes_opcodesDistinct_iff,
      ← Cfg.passes_ceiling_iff, ← Cfg.passes_resetMinimums_iff, ← Cfg.passes_watchdog_iff, ← Cfg.gkTres,
      ← Cfg.passes_tres_iff]
    exact ⟨fun h => ⟨h _, h _, h _, h _, h _, h _, h _⟩,
      fun ⟨hg, hp, ho, hc, hr, hw, ht⟩ k => by cases k <;> assumption⟩
  · cases hk : s.cfg.firstBroken with
    | none => simp [(Cfg.firstBroken_eq_none_iff _).mp hk] at hs
    | some k => exact ⟨k, Cfg.passes_of_firstBroken hk, by rw [step, hk]⟩

/-! ### Nothing writes CFG (R5) -/

/-- A step that answers a next state is a step of a machine that was built. -/
theorem wf_of_step {s t : State} (h : step s = .next t) : s.cfg.wf = true := by
  unfold step at h
  split at h
  · simp at h
  · next hn => exact (Cfg.firstBroken_eq_none_iff _).mp hn

/-- An elementary step goes on, holds or is cut off in a state of the configuration `c`. -/
def Flow.HasCfg (c : Cfg) : Flow → Prop := Flow.Meets (·.cfg = c) (·.cfg = c) (·.cfg = c) True

theorem Flow.HasCfg.ite {c : Cfg} {P : Prop} [Decidable P] {a b : Flow} (ha : a.HasCfg c) (hb : b.HasCfg c) :
    (if P then a else b).HasCfg c := by
  split <;> assumption

theorem State.primitive_hasCfg {c : Cfg} {s : State} {f : State → Flow} (h : s.cfg = c)
    (hf : ∀ t, t.cfg = c → (f t).HasCfg c) : (s.primitive f).HasCfg c :=
  State.primitive_meets h (fun _ _ _ ht => ht) (fun _ _ ht => ht) (fun _ _ ht => ht) (fun _ _ _ ht => ht) hf

@[simp] theorem State.poll_cfg (s : State) : s.poll.cfg = s.cfg := by
  obtain ⟨on, late, h, -⟩ := s.poll_cases
  rw [h]

theorem receivePayload_hasCfg (s : State) : (receivePayload s).HasCfg s.cfg := by
  unfold receivePayload
  split
  · exact s.receive_cfg _ _
  · exact s.linkIdle_cfg

theorem readCell_hasCfg (i : Nat) (s : State) : (readCell i s).HasCfg s.cfg :=
  .ite (s.memRead_cfg i) trivial

theorem Micro.exec_hasCfg (m : Micro) {c : Cfg} {s : State} (h : s.cfg = c) : (m.exec s).HasCfg c := by
  cases m with
  | setLine l v => exact s.primitive_hasCfg h fun t ht => (t.setLine_cfg l v).trans ht
  | spiWrite b => exact s.primitive_hasCfg h fun t ht => (t.spiWrite_cfg b).trans ht
  | spiHeld => exact s.primitive_hasCfg h fun t ht => (t.spiWrite_cfg t.held).trans ht
  | arm => exact s.primitive_hasCfg h fun t ht => t.armWatchdog_cfg.trans ht
  | feed => exact s.primitive_hasCfg h fun t ht => t.feedWatchdog_cfg.trans ht
  | delay ms => exact s.primitive_hasCfg h fun t ht => (t.wait_cfg ms).trans ht
  | txByte b => exact s.primitive_hasCfg h fun t ht => (t.txByte_cfg b).trans ht
  | memRead i => exact s.primitive_hasCfg h fun t ht => ht ▸ readCell_hasCfg i t
  | rxPayload => exact .ite (s.primitive_hasCfg h fun t ht => ht ▸ receivePayload_hasCfg t) h
  | memWrite => exact .ite (s.primitive_hasCfg h fun t ht => t.memWrite_cfg.trans ht) h
  | bumpIdx => exact .ite h h
  | pollFeed => exact .ite (s.primitive_hasCfg h fun t ht => t.feedWatchdog_cfg.trans ht) h
  | pollSample => exact .ite (s.primitive_hasCfg h fun t ht => t.poll_cfg.trans ht) h
  | pollDiag => exact .ite (s.primitive_hasCfg h fun t ht => t.ceilingExit_cfg.trans ht) h
  | pollDelay => exact .ite (s.primitive_hasCfg h fun t ht => (t.wait_cfg _).trans ht) h
  | openSession => exact s.openSession_cfg.trans h
  | closeSession => exact s.closeSession_cfg.trans h
  | diag d => exact s.primitive_hasCfg h fun t ht => (t.diagnose_cfg d).trans ht
  | diagDone => exact s.primitive_hasCfg h fun t ht => (t.diagnose_cfg _).trans ht
  | diagShape => exact .ite (s.primitive_hasCfg h fun t ht => (t.diagnose_cfg _).trans ht) h
  | enter op => exact .ite h (s.primitive_hasCfg h fun t ht => (t.takeFault_cfg _).trans ht)
  | raiseFrameSize => exact s.primitive_hasCfg h fun t ht => ht
  | setPState p => exact h
  | setDState d => exact h
  | setCurOp o => exact h
  | startPayload => exact h
  | takeRequest => exact h
  | setResult r => exact h
  | call op => exact h
  | ret => exact h
  | pollHead => exact h
  | pollExit => exact h

/-- Whatever sequence is run, from whatever position. -/
theorem run_keeps_cfg {p : Seq} {ms : List Micro} {s t : State} (h : run p ms s = .next t) : t.cfg = s.cfg := by
  obtain ⟨u, hu, rfl⟩ | ⟨u, q, hu, rfl⟩ | ht :=
    run_meets (walk_meets (fun m _ u hu => m.exec_hasCfg hu) (rfl : s.cfg = s.cfg) p) h
  · exact hu
  · exact hu
  · exact ht

theorem exec_keeps_cfg {i : Instr} {s t : State} (h : exec i s = .next t) : t.cfg = s.cfg :=
  run_keeps_cfg (exec_eq i s ▸ h)

/-- The moment before a primitive, whatever it brings. -/
theorem State.moment_keeps_cfg {s t : State}
    (h : s.moment = .pass t ∨ s.moment = .reset t ∨ s.moment = .hold t) : t.cfg = s.cfg := by
  have hp : (s.primitive .go).HasCfg s.cfg := s.primitive_hasCfg rfl fun u hu => hu
  obtain h | h | h := h <;> (rw [State.primitive, h] at hp; exact hp)

theorem nextInput_cfg (s : State) : (nextInput s).2.cfg = s.cfg := by
  unfold nextInput
  split
  · rfl
  · rfl
  · exact s.afterChoice_cfg
  · rfl

theorem processOne_keeps_cfg {s t : State} (h : processOne s = .next t) : t.cfg = s.cfg := by
  unfold processOne at h
  cases hm : s.moment with
  | reset u => rw [hm] at h; cases h; exact State.moment_keeps_cfg (.inr (.inl hm))
  | hold u => rw [hm] at h; cases h; exact State.moment_keeps_cfg (.inr (.inr hm))
  | pass u =>
    have hu : (nextInput u).2.cfg = s.cfg := (nextInput_cfg u).trans (State.moment_keeps_cfg (.inl hm))
    rw [hm] at h
    rw [← hu]
    rcases hn : nextInput u with ⟨i, v⟩
    cases i with
    | control q => simp only [hn] at h; exact exec_keeps_cfg h
    | byte b rest => simp only [hn] at h; exact (exec_keeps_cfg h).trans (v.receive_cfg b rest)
    | nothing => simp only [hn] at h; cases h; rfl

theorem idleFaulted_keeps_cfg {s t : State} (h : idleFaulted s = .next t) : t.cfg = s.cfg := by
  refine State.moment_keeps_cfg ?_
  unfold idleFaulted at h
  cases hm : s.moment <;> (rw [hm] at h; cases h; simp)

theorem continueAt_keeps_cfg {s t : State} (h : continueAt s = .next t) : t.cfg = s.cfg := by
  unfold continueAt at h
  split at h
  · exact processOne_keeps_cfg h
  · exact run_keeps_cfg h

/-- Settles O46: no elementary step writes CFG, nor does the environment, the choice of the next input or a reset. -/
theorem stepKeepsTheConfiguration : Obligations.StepKeepsTheConfiguration := by
  unfold Obligations.StepKeepsTheConfiguration
  intro s t h
  rw [step_eq (wf_of_step h), stepBuilt] at h
  split at h
  · exact idleFaulted_keeps_cfg h
  · exact continueAt_keeps_cfg h

end Sys2Proof.Machine
end

section
/-! That nothing reads the diagnostic trace (R8, R215): another trace in the state a step begins in is another trace in
the state it answers, and no other difference. -/

namespace Sys2Proof.Machine

/-! ### Another diagnostic trace -/

/-- The same state with another diagnostic trace. -/
def State.withDiag (s : State) (ds : List Diag) : State := { s with diag := ds }

/-- The same in the state a moment leaves. -/
def Moment.withDiag (m : Moment) (ds : List Diag) : Moment :=
  match m with
  | .pass s => .pass (s.withDiag ds)
  | .reset s => .reset (s.withDiag ds)
  | .hold s => .hold (s.withDiag ds)

/-- The same in the state an elementary step leaves. -/
def Flow.withDiag (f : Flow) (ds : List Diag) : Flow :=
  match f with
  | .go s => .go (s.withDiag ds)
  | .hold s => .hold (s.withDiag ds)
  | .gone s => .gone (s.withDiag ds)
  | .fault r => .fault r

/-- The same in the state a sequence gets to. -/
def Walk.withDiag (w : Walk) (ds : List Diag) : Walk :=
  match w with
  | .done s => .done (s.withDiag ds)
  | .held p s => .held p (s.withDiag ds)
  | .gone s => .gone (s.withDiag ds)
  | .fault r => .fault r

/-- The same in the state a step answers. -/
def outcomeWithDiag (o : Host.Outcome State Fault Refusal) (ds : List Diag) : Host.Outcome State Fault Refusal :=
  match o with
  | .next s => .next (s.withDiag ds)
  | .fault r => .fault r
  | .refused r => .refused r

/-- An effect that does not read the diagnostic trace: on another trace it leaves the same but for the trace. -/
def IgnoresDiag (f : State → Flow) : Prop := ∀ s ds, ∃ ds', f (s.withDiag ds) = (f s).withDiag ds'

/-! ### The state's operations -/

theorem State.chatter_withDiag (s : State) (ds : List Diag) (ls : List Chatter) :
    ∃ ds', (s.withDiag ds).chatter ls = (s.chatter ls).withDiag ds' := by
  obtain ⟨a, ha⟩ := (s.withDiag ds).chatter_eq ls
  obtain ⟨b, hb⟩ := s.chatter_eq ls
  exact ⟨a ++ ds, by rw [ha, hb]; rfl⟩

theorem State.request_withDiag (s : State) (ds : List Diag) (q : CtlReq) :
    (s.withDiag ds).request q = (s.request q).withDiag ds := by
  cases h : s.ctlReq <;> simp only [State.request, State.withDiag, h]

theorem State.setLine_withDiag (s : State) (ds : List Diag) (l : Line) (v : Bit) :
    (s.withDiag ds).setLine l v = (s.setLine l v).withDiag ds := by
  cases l <;> rfl

theorem State.memRead_withDiag (s : State) (ds : List Diag) (i : Nat) :
    (s.withDiag ds).memRead i = (s.memRead i).withDiag ds := by
  cases h : Store.read s.fb i <;> simp only [State.memRead, State.withDiag, h]

theorem State.sampleBusy_withDiag (s : State) (ds : List Diag) :
    (s.withDiag ds).sampleBusy = s.sampleBusy.withDiag ds := by
  rw [State.sampleBusy_eq, State.sampleBusy_eq]; rfl

theorem State.poll_withDiag (s : State) (ds : List Diag) : (s.withDiag ds).poll = s.poll.withDiag ds := by
  simp only [State.poll, State.sampleBusy_withDiag, apply_ite (State.withDiag · ds)]
  rfl

theorem State.afterChoice_withDiag (s : State) (ds : List Diag) :
    (s.withDiag ds).afterChoice = s.afterChoice.withDiag ds := by
  cases h : s.firstIn <;> simp only [State.afterChoice, State.withDiag, h]

/-! ### The environment before a primitive -/

theorem State.moment_withDiag (s : State) (ds : List Diag) :
    ∃ ds', (s.withDiag ds).moment = s.moment.withDiag ds' := by
  have henv : (s.withDiag ds).env = s.env := rfl
  unfold State.moment
  rw [henv]
  cases s.env with
  | nil => exact ⟨ds, rfl⟩
  | cons e es =>
    cases e with
    | quiet => exact ⟨ds, rfl⟩
    | por => exact ⟨ds, rfl⟩
    | wdtReset => exact ⟨ds, rfl⟩
    | bothResets => exact ⟨ds, rfl⟩
    | request q => exact ⟨ds, congrArg Moment.pass (State.request_withDiag { s with env := es } ds q)⟩
    | lines ls =>
      obtain ⟨ds', h⟩ := State.chatter_withDiag { s with env := es } ds ls
      exact ⟨ds', congrArg Moment.pass h⟩
    | pause => exact ⟨ds, rfl⟩

/-! ### The elementary steps -/

theorem IgnoresDiag.primitive {f : State → Flow} (hf : IgnoresDiag f) : IgnoresDiag (·.primitive f) := by
  intro s ds
  obtain ⟨ds', h⟩ := s.moment_withDiag ds
  simp only [State.primitive, h]
  cases s.moment with
  | pass t => exact hf t ds'
  | reset t => exact ⟨ds', rfl⟩
  | hold t => exact ⟨ds', rfl⟩

/-- A test that does not look at the diagnostic trace passes or fails with both. -/
theorem IgnoresDiag.ite {P : State → Prop} [DecidablePred P] {f g : State → Flow}
    (hP : ∀ s ds, P (s.withDiag ds) ↔ P s) (hf : IgnoresDiag f) (hg : IgnoresDiag g) :
    IgnoresDiag fun s => if P s then f s else g s := by
  intro s ds
  simp only [hP]
  split
  · exact hf s ds
  · exact hg s ds

/-- An update that keeps the diagnostic trace and takes nothing from it. -/
theorem IgnoresDiag.go {f : State → State} (hf : ∀ s ds, f (s.withDiag ds) = (f s).withDiag ds) :
    IgnoresDiag fun s => .go (f s) :=
  fun s ds => ⟨ds, congrArg Flow.go (hf s ds)⟩

theorem readCell_ignoresDiag (i : Nat) : IgnoresDiag (readCell i) :=
  .ite (fun _ _ => .rfl) (.go fun s ds => s.memRead_withDiag ds i) fun _ ds => ⟨ds, rfl⟩

theorem receivePayload_ignoresDiag : IgnoresDiag receivePayload := by
  intro s ds
  refine ⟨ds, ?_⟩
  have hrx : (s.withDiag ds).rx = s.rx := rfl
  unfold receivePayload
  rw [hrx]
  split <;> rfl

theorem Micro.exec_ignoresDiag (m : Micro) : IgnoresDiag m.exec := by
  have hsame : IgnoresDiag .go := .go fun _ _ => rfl
  cases m with
  | setLine l v => exact .primitive (.go fun s ds => s.setLine_withDiag ds l v)
  | spiWrite b => exact .primitive (.go fun _ _ => rfl)
  | spiHeld => exact .primitive (.go fun _ _ => rfl)
  | arm => exact .primitive (.go fun _ _ => rfl)
  | feed => exact .primitive (.go fun _ _ => rfl)
  | delay ms => exact .primitive (.go fun _ _ => rfl)
  | txByte b => exact .primitive (.go fun _ _ => rfl)
  | memRead i => exact (readCell_ignoresDiag i).primitive
  | rxPayload => exact .ite (fun _ _ => .rfl) receivePayload_ignoresDiag.primitive hsame
  | memWrite => exact .ite (fun _ _ => .rfl) (.primitive (.go fun _ _ => rfl)) hsame
  | bumpIdx => exact .ite (fun _ _ => .rfl) (.go fun _ _ => rfl) hsame
  | pollFeed => exact .ite (fun _ _ => .rfl) (.primitive (.go fun _ _ => rfl)) hsame
  | pollSample => exact .ite (fun _ _ => .rfl) (.primitive (.go State.poll_withDiag)) hsame
  | pollDiag => exact .ite (fun _ _ => .rfl) (.primitive fun _ _ => ⟨_, rfl⟩) hsame
  | pollDelay => exact .ite (fun _ _ => .rfl) (.primitive (.go fun _ _ => rfl)) hsame
  | openSession => exact .go fun _ _ => rfl
  | closeSession => exact .go fun _ _ => rfl
  | diag d => exact .primitive fun _ _ => ⟨_, rfl⟩
  | diagDone => exact .primitive fun _ _ => ⟨_, rfl⟩
  | diagShape => exact .ite (fun _ _ => .rfl) (.primitive fun _ _ => ⟨_, rfl⟩) hsame
  | enter op => exact .ite (fun _ _ => .rfl) hsame (.primitive fun _ ds => ⟨ds, rfl⟩)
  | raiseFrameSize => exact hsame.primitive
  | setPState p => exact .go fun _ _ => rfl
  | setDState d => exact .go fun _ _ => rfl
  | setCurOp o => exact .go fun _ _ => rfl
  | startPayload => exact .go fun _ _ => rfl
  | takeRequest => exact .go fun _ _ => rfl
  | setResult r => exact .go fun _ _ => rfl
  | call op => exact hsame
  | ret => exact hsame
  | pollHead => exact hsame
  | pollExit => exact hsame

/-! ### The sequence position and the sequences -/

theorem Micro.place_withDiag (m : Micro) (s : State) (ds : List Diag) (p : Seq) :
    m.place (s.withDiag ds) p = m.place s p := by
  cases m <;> rfl

theorem Micro.stands_withDiag (m : Micro) (s : State) (ds : List Diag) :
    m.stands (s.withDiag ds) = m.stands s := by
  cases m <;> rfl

theorem seek_withDiag (s : State) (ds : List Diag) (p : Seq) (ms : List Micro) :
    seek (s.withDiag ds) p ms = seek s p ms := by
  induction ms generalizing p with
  | nil => rfl
  | cons m ms ih =>
    simp only [seek, Micro.stands_withDiag, Micro.place_withDiag, ih]
    rfl

theorem restFrom_withDiag (op : Operation) (s : State) (ds : List Diag) (ms : List Micro) :
    restFrom op (s.withDiag ds) ms = restFrom op s ms := by
  simp only [restFrom, seek_withDiag]
  rfl

theorem walk_withDiag (p : Seq) (ms : List Micro) (s : State) (ds : List Diag) :
    ∃ ds', walk p ms (s.withDiag ds) = (walk p ms s).withDiag ds' := by
  induction ms generalizing p s ds with
  | nil => exact ⟨ds, rfl⟩
  | cons m ms ih =>
    obtain ⟨ds', h⟩ := m.exec_ignoresDiag s ds
    simp only [walk, h, Micro.place_withDiag]
    cases m.exec s with
    | go t => exact ih (m.place s p) t ds'
    | hold t => exact ⟨ds', rfl⟩
    | gone t => exact ⟨ds', rfl⟩
    | fault r => exact ⟨ds', rfl⟩

theorem run_withDiag (p : Seq) (ms : List Micro) (s : State) (ds : List Diag) :
    ∃ ds', run p ms (s.withDiag ds) = outcomeWithDiag (run p ms s) ds' := by
  obtain ⟨ds', h⟩ := walk_withDiag p ms s ds
  refine ⟨ds', ?_⟩
  simp only [run, h]
  cases walk p ms s <;> rfl

theorem exec_withDiag (i : Instr) (s : State) (ds : List Diag) :
    ∃ ds', exec i (s.withDiag ds) = outcomeWithDiag (exec i s) ds' := by
  rw [exec_eq, exec_eq]
  exact run_withDiag _ _ s ds

/-! ### The step -/

theorem nextInput_withDiag (s : State) (ds : List Diag) :
    nextInput (s.withDiag ds) = ((nextInput s).1, (nextInput s).2.withDiag ds) := by
  have hreq : (s.withDiag ds).ctlReq = s.ctlReq := rfl
  have hrx : (s.withDiag ds).rx = s.rx := rfl
  unfold nextInput
  rw [hreq, hrx, State.afterChoice_withDiag]
  split <;> rfl

theorem processOne_withDiag (s : State) (ds : List Diag) :
    ∃ ds', processOne (s.withDiag ds) = outcomeWithDiag (processOne s) ds' := by
  obtain ⟨ds', h⟩ := s.moment_withDiag ds
  unfold processOne
  rw [h]
  cases s.moment with
  | reset t => exact ⟨ds', rfl⟩
  | hold t => exact ⟨ds', rfl⟩
  | pass t =>
    simp only [Moment.withDiag, nextInput_withDiag]
    rcases nextInput t with ⟨i, u⟩
    cases i with
    | control q => exact exec_withDiag _ u ds'
    | byte b rest => exact exec_withDiag _ (u.receive b rest) ds'
    | nothing => exact ⟨ds', rfl⟩

theorem idleFaulted_withDiag (s : State) (ds : List Diag) :
    ∃ ds', idleFaulted (s.withDiag ds) = outcomeWithDiag (idleFaulted s) ds' := by
  obtain ⟨ds', h⟩ := s.moment_withDiag ds
  refine ⟨ds', ?_⟩
  unfold idleFaulted
  rw [h]
  cases s.moment <;> rfl

theorem continueAt_withDiag (s : State) (ds : List Diag) :
    ∃ ds', continueAt (s.withDiag ds) = outcomeWithDiag (continueAt s) ds' := by
  have hseq : (s.withDiag ds).seq = s.seq := rfl
  unfold continueAt
  rw [hseq]
  split
  · exact processOne_withDiag s ds
  · rw [restFrom_withDiag]
    exact run_withDiag _ _ s ds

theorem stepBuilt_withDiag (s : State) (ds : List Diag) :
    ∃ ds', stepBuilt (s.withDiag ds) = outcomeWithDiag (stepBuilt s) ds' := by
  have hd : (s.withDiag ds).dstate = s.dstate := rfl
  unfold stepBuilt
  rw [hd]
  split
  · exact idleFaulted_withDiag s ds
  · exact continueAt_withDiag s ds

/-- A step with another diagnostic trace answers, stops or is refused as it is with the first. -/
theorem step_withDiag (s : State) (ds : List Diag) :
    ∃ ds', step (s.withDiag ds) = outcomeWithDiag (step s) ds' := by
  have hc : (s.withDiag ds).cfg = s.cfg := rfl
  unfold step
  rw [hc]
  split
  · exact ⟨ds, rfl⟩
  · exact stepBuilt_withDiag s ds

/-- A call of `Diag` is counted, and its line is put on the trace or dropped. -/
theorem State.diagnose_cases (s : State) (d : Diag) :
    s.diagnose d = { s with diag := d :: s.diag, diagCalls := s.diagCalls + 1 } ∨
      s.diagnose d = { s with diagCalls := s.diagCalls + 1 } := by
  unfold State.diagnose
  split
  · exact .inl rfl
  · exact .inr rfl

theorem State.moment_of_lines {s : State} {ls : List Chatter} {es : List EnvEvent} (h : s.env = .lines ls :: es) :
    s.moment = .pass (({ s with env := es } : State).chatter ls) := by
  unfold State.moment; rw [h]

/-- Settles O53: a step on another diagnostic trace is the same step (`step_withDiag`), a call of `Diag` has two cases,
and optional lines are those of `State.chatter_eq`. -/
theorem nothingReadsTheDiagnostics : Obligations.NothingReadsTheDiagnostics := by
  unfold Obligations.NothingReadsTheDiagnostics
  refine ⟨fun s t ds h => ?_, State.diagnose_cases, fun s ls es h => ?_⟩
  · obtain ⟨ds', hs⟩ := step_withDiag s ds
    exact ⟨ds', hs.trans (by rw [h]; rfl)⟩
  · obtain ⟨ds, hd⟩ := State.chatter_eq { s with env := es } ls
    exact ⟨ds, (State.moment_of_lines h).trans (congrArg Moment.pass hd)⟩

end Sys2Proof.Machine
end

section
/-! What the moment before a primitive and an elementary step can leave, said once for every step: the fields each can
write, and how one ends a step of the machine. The whole-machine proofs cite these and unfold no step. -/

namespace Sys2Proof.Machine

/-! ### The moment before a primitive -/

/-- The state as the environment's move leaves it when the block goes on: other events to come, other diagnostic lines,
another pending request. -/
def State.moved (s : State) (es : List EnvEvent) (ds : List Diag) (q : Option CtlReq) : State :=
  { s with env := es, diag := ds, ctlReq := q }

theorem State.moment_pass {s t : State} (h : s.moment = .pass t) :
    ∃ es ds q, es <:+ s.env ∧ t = s.moved es ds q := by
  obtain ⟨-, hm⟩ | ⟨es, ⟨he, hm⟩ | ⟨-, hm⟩ | ⟨-, hm⟩ | ⟨-, hm⟩ | ⟨q, he, hm⟩ | ⟨ls, he, hm⟩ | ⟨-, hm⟩⟩ :=
    s.moment_cases <;> rw [hm] at h <;> cases h
  · exact ⟨s.env, s.diag, s.ctlReq, List.suffix_rfl, rfl⟩
  · exact ⟨es, s.diag, s.ctlReq, he ▸ List.suffix_cons _ _, rfl⟩
  · refine ⟨es, s.diag, some (s.ctlReq.getD q), he ▸ List.suffix_cons _ _, ?_⟩
    cases hq : s.ctlReq <;> simp [State.request, State.moved]
  · obtain ⟨ds, hd⟩ := ({ s with env := es } : State).chatter_eq ls
    exact ⟨es, ds ++ s.diag, s.ctlReq, he ▸ List.suffix_cons _ _, hd⟩

theorem State.moment_reset {s t : State} (h : s.moment = .reset t) :
    ∃ e es cause, s.env = e :: es ∧ t = ({ s with env := es } : State).resetTo cause := by
  obtain ⟨-, hm⟩ | ⟨es, ⟨-, hm⟩ | ⟨he, hm⟩ | ⟨he, hm⟩ | ⟨he, hm⟩ | ⟨_, -, hm⟩ | ⟨_, -, hm⟩ | ⟨-, hm⟩⟩ :=
    s.moment_cases <;> rw [hm] at h <;> cases h <;> exact ⟨_, es, _, he, rfl⟩

theorem State.moment_hold {s t : State} (h : s.moment = .hold t) :
    ∃ es, s.env = .pause :: es ∧ t = { s with env := es } := by
  obtain ⟨-, hm⟩ | ⟨es, ⟨-, hm⟩ | ⟨-, hm⟩ | ⟨-, hm⟩ | ⟨-, hm⟩ | ⟨_, -, hm⟩ | ⟨_, -, hm⟩ | ⟨he, hm⟩⟩ :=
    s.moment_cases <;> rw [hm] at h <;> cases h
  exact ⟨es, he, rfl⟩

theorem State.primitive_go {s t : State} {f : State → Flow} (h : s.primitive f = .go t) :
    ∃ es ds q, es <:+ s.env ∧ f (s.moved es ds q) = .go t := by
  unfold State.primitive at h
  cases hm : s.moment with
  | pass u =>
    obtain ⟨es, ds, q, hes, rfl⟩ := State.moment_pass hm
    exact ⟨es, ds, q, hes, by simpa [hm] using h⟩
  | reset u => simp [hm] at h
  | hold u => simp [hm] at h

theorem State.primitive_hold {s t : State} {f : State → Flow} (h : s.primitive f = .hold t) :
    (∃ es, s.env = .pause :: es ∧ t = { s with env := es }) ∨
      ∃ es ds q, es <:+ s.env ∧ f (s.moved es ds q) = .hold t := by
  unfold State.primitive at h
  cases hm : s.moment with
  | pass u =>
    obtain ⟨es, ds, q, hes, rfl⟩ := State.moment_pass hm
    exact .inr ⟨es, ds, q, hes, by simpa [hm] using h⟩
  | reset u => simp [hm] at h
  | hold u =>
    obtain ⟨es, he, rfl⟩ := State.moment_hold hm
    exact .inl ⟨es, he, by simpa [hm] using h.symm⟩

/-- An effect never resets the block: only the environment does (R209). -/
theorem State.primitive_gone {s t : State} {f : State → Flow} (hf : ∀ u v, f u ≠ .gone v)
    (h : s.primitive f = .gone t) : ∃ e es cause, s.env = e :: es ∧ t = ({ s with env := es } : State).resetTo cause := by
  unfold State.primitive at h
  cases hm : s.moment with
  | pass u => exact absurd (by simpa [hm] using h) (hf u t)
  | reset u => exact State.moment_reset ((show u = t by simpa [hm] using h) ▸ hm)
  | hold u => simp [hm] at h

theorem receivePayload_go {s t : State} (h : receivePayload s = .go t) :
    ∃ b rest, s.rx = .byte b :: rest ∧ t = s.receive b rest := by
  unfold receivePayload at h
  split at h
  · next b rest hr => exact ⟨b, rest, hr, by simpa using h.symm⟩
  · simp at h

theorem receivePayload_hold {s t : State} (h : receivePayload s = .hold t) : t = s.linkIdle := by
  unfold receivePayload at h
  split at h
  · simp at h
  · simpa using h.symm

theorem receivePayload_ne_gone (s t : State) : receivePayload s ≠ .gone t := by
  unfold receivePayload
  split <;> simp

theorem readCell_go {i : Nat} {s t : State} (h : readCell i s = .go t) : t = s.memRead i := by
  unfold readCell at h
  split at h
  · simpa using h.symm
  · simp at h

theorem readCell_ne_hold (i : Nat) (s t : State) : readCell i s ≠ .hold t := by
  unfold readCell
  split <;> simp

theorem readCell_ne_gone (i : Nat) (s t : State) : readCell i s ≠ .gone t := by
  unfold readCell
  split <;> simp

/-! ### What an elementary step leaves as it was -/

/-- What the elementary step `m` leaves of `s` in `t` when the sequence goes on: each field is kept unless `m` is the
step that writes it, the inputs are only used up and the trace only grows. -/
structure Micro.Frame (m : Micro) (s t : State) : Prop where
  cfg : t.cfg = s.cfg
  pstate : (∀ p, m ≠ .setPState p) → t.pstate = s.pstate
  dstate : (∀ d, m ≠ .setDState d) → t.dstate = s.dstate
  lastResult : (∀ r, m ≠ .setResult r) → t.lastResult = s.lastResult
  fb : m ≠ .memWrite → t.fb = s.fb
  rxIdx : m ≠ .bumpIdx → m ≠ .startPayload → t.rxIdx = s.rxIdx
  polls : m ≠ .openSession → m ≠ .pollSample → t.polls = s.polls
  session : m ≠ .openSession → t.bwActive = true → s.bwActive = true
  timedOut : m ≠ .pollSample → t.timedOut = s.timedOut
  armed : m ≠ .arm → t.wdtArmed = s.wdtArmed
  fault : t.fault = s.fault
  env : t.env <:+ s.env
  rx : t.rx <:+ s.rx
  busyIn : t.busyIn <:+ s.busyIn
  trace : s.trace <:+ t.trace
  sent : (∀ b, m ≠ .txByte b) → hostTx t.trace = hostTx s.trace

theorem Micro.exec_frame {m : Micro} {s t : State} (h : m.exec s = .go t) : m.Frame s t := by
  cases m
  case setPState | setDState | setCurOp | startPayload | takeRequest | setResult | call | ret | pollHead | pollExit |
      openSession | closeSession =>
    cases h
    constructor <;> simp
  case setLine | spiWrite | spiHeld | arm | feed | delay | txByte | diag | diagDone | raiseFrameSize =>
    obtain ⟨es, ds, q, hes, h⟩ := State.primitive_go h
    cases h
    constructor <;> simp [State.moved, hes, hostTx]
  case memRead i =>
    obtain ⟨es, ds, q, hes, h⟩ := State.primitive_go h
    obtain rfl := readCell_go h
    constructor <;> simp [State.moved, hes]
  case rxPayload =>
    simp only [Micro.exec] at h
    split at h
    · obtain ⟨es, ds, q, hes, h⟩ := State.primitive_go h
      obtain ⟨b, rest, hr, rfl⟩ := receivePayload_go h
      have hr : s.rx = .byte b :: rest := hr
      constructor <;> simp [State.moved, hes, hostTx, hr]
    · cases h
      constructor <;> simp
  case enter op =>
    simp only [Micro.exec] at h
    split at h
    · cases h
      constructor <;> simp
    · obtain ⟨es, ds, q, -, h⟩ := State.primitive_go h
      cases h
  case bumpIdx =>
    simp only [Micro.exec] at h
    split at h <;> cases h <;> constructor <;> simp
  case pollSample =>
    simp only [Micro.exec] at h
    split at h
    · obtain ⟨es, ds, q, hes, h⟩ := State.primitive_go h
      cases h
      obtain ⟨on, late, hp, hon⟩ := (s.moved es ds q).poll_cases
      rw [hp]
      have hon : on = true → s.bwActive = true := fun h => (hon h).1
      constructor <;> simp [State.moved, hes, hostTx, List.tail_suffix]
      exact hon
    · cases h
      constructor <;> simp
  case memWrite | pollFeed | pollDiag | pollDelay | diagShape =>
    simp only [Micro.exec] at h
    split at h
    · obtain ⟨es, ds, q, hes, h⟩ := State.primitive_go h
      cases h
      constructor <;> simp [State.moved, hes, hostTx]
    · cases h
      constructor <;> simp

/-! ### How an elementary step ends a step of the machine -/

/-- A step of the machine ends inside a sequence by a pause, by a wait for the host, or by the fault of a failing entry
check, and nothing else (R107, R180, R206). -/
theorem Micro.exec_hold {m : Micro} {s t : State} (h : m.exec s = .hold t) :
    (∃ es, s.env = .pause :: es ∧ t = { s with env := es }) ∨
      ∃ es ds q, es <:+ s.env ∧
        ((m = .rxPayload ∧ t = (s.moved es ds q).linkIdle) ∨
          ∃ op, m = .enter op ∧ validIn op s.pstate = false ∧
            t = (s.moved es ds q).takeFault (invalidPanelState op s.pstate)) := by
  have paused {f : State → State} (h : (s.primitive fun t => .go (f t)) = .hold t) :
      ∃ es, s.env = .pause :: es ∧ t = { s with env := es } := by
    obtain hp | ⟨_, _, _, _, h⟩ := State.primitive_hold h
    · exact hp
    · cases h
  cases m
  case setPState | setDState | setCurOp | startPayload | takeRequest | setResult | call | ret | pollHead | pollExit |
      openSession | closeSession => cases h
  case setLine | spiWrite | spiHeld | arm | feed | delay | txByte | diag | diagDone => exact .inl (paused h)
  case raiseFrameSize => exact .inl (paused (f := id) h)
  case memRead i =>
    obtain hp | ⟨_, _, _, _, h⟩ := State.primitive_hold h
    · exact .inl hp
    · exact absurd h (readCell_ne_hold i _ t)
  case rxPayload =>
    simp only [Micro.exec] at h
    split at h
    · obtain hp | ⟨es, ds, q, hes, h⟩ := State.primitive_hold h
      · exact .inl hp
      · exact .inr ⟨es, ds, q, hes, .inl ⟨rfl, receivePayload_hold h⟩⟩
    · cases h
  case enter op =>
    simp only [Micro.exec] at h
    split at h
    · cases h
    · next hv =>
      obtain hp | ⟨es, ds, q, hes, h⟩ := State.primitive_hold h
      · exact .inl hp
      · cases h
        exact .inr ⟨es, ds, q, hes, .inr ⟨op, rfl, by simpa using hv, rfl⟩⟩
  case bumpIdx => simp only [Micro.exec] at h; split at h <;> cases h
  case memWrite | pollFeed | pollSample | pollDiag | pollDelay | diagShape =>
    simp only [Micro.exec] at h
    split at h
    · exact .inl (paused h)
    · cases h

/-- A sequence is abandoned by a reset of the environment's, and by nothing else (R209). -/
theorem Micro.exec_gone {m : Micro} {s t : State} (h : m.exec s = .gone t) :
    ∃ e es cause, s.env = e :: es ∧ t = ({ s with env := es } : State).resetTo cause := by
  have cut {f : State → State} (h : (s.primitive fun t => .go (f t)) = .gone t) :
      ∃ e es cause, s.env = e :: es ∧ t = ({ s with env := es } : State).resetTo cause :=
    State.primitive_gone (fun _ _ => by simp) h
  cases m
  case setPState | setDState | setCurOp | startPayload | takeRequest | setResult | call | ret | pollHead | pollExit |
      openSession | closeSession => cases h
  case setLine | spiWrite | spiHeld | arm | feed | delay | txByte | diag | diagDone => exact cut h
  case raiseFrameSize => exact cut (f := id) h
  case memRead i => exact State.primitive_gone (readCell_ne_gone i) h
  case rxPayload =>
    simp only [Micro.exec] at h
    split at h
    · exact State.primitive_gone receivePayload_ne_gone h
    · cases h
  case enter op =>
    simp only [Micro.exec] at h
    split at h
    · cases h
    · exact State.primitive_gone (fun _ _ => by simp) h
  case bumpIdx => simp only [Micro.exec] at h; split at h <;> cases h
  case memWrite | pollFeed | pollSample | pollDiag | pollDelay | diagShape =>
    simp only [Micro.exec] at h
    split at h
    · exact cut h
    · cases h

end Sys2Proof.Machine
end

section
/-! The invariant of a built machine (R20, R27, R28, R30, R31, R33, R205): it holds after reset, every elementary step
keeps it, and so does every step of the machine, whatever the environment does. -/

namespace Sys2Proof.Machine

/-! ### A run and its positions -/

/-- What a run answers is where its sequence has got to. -/
theorem run_next {p : Seq} {ms : List Micro} {s t : State} (h : run p ms s = .next t) :
    (∃ u, walk p ms s = .done u ∧ t = { u with seq := Seq.main }) ∨
      (∃ q u, walk p ms s = .held q u ∧ t = { u with seq := q }) ∨ walk p ms s = .gone t := by
  unfold run at h
  cases hw : walk p ms s with
  | done u => rw [hw] at h; exact .inl ⟨u, rfl, by simpa using h.symm⟩
  | held q u => rw [hw] at h; exact .inr (.inl ⟨q, u, rfl, by simpa using h.symm⟩)
  | gone u => rw [hw] at h; exact .inr (.inr (by simpa using h))
  | fault r => simp [hw] at h

theorem run_cons_go {p : Seq} {m : Micro} {ms : List Micro} {s t : State} (h : m.exec s = .go t) :
    run p (m :: ms) s = run (m.place s p) ms t := by
  rw [run, walk_cons_go h, run]

theorem run_cons_hold {p : Seq} {m : Micro} {ms : List Micro} {s t : State} (h : m.exec s = .hold t) :
    run p (m :: ms) s = .next { t with seq := p } := by
  simp [run, walk, h]

theorem run_cons_gone {p : Seq} {m : Micro} {ms : List Micro} {s t : State} (h : m.exec s = .gone t) :
    run p (m :: ms) s = .next t := by
  simp [run, walk, h]

/-- The ways an elementary step can move the position (R22). -/
theorem Micro.place_cases (m : Micro) (s : State) (p : Seq) :
    (∃ op, m = .call op ∧ m.place s p = p.enter op) ∨ (m = .ret ∧ m.place s p = p.leave) ∨
      ((m = .pollHead ∨ m = .pollExit) ∧ ∃ k, 0 < k ∧ m.place s p = p.at k) ∨
      (m.counts s = true ∧ m.place s p = p.next) ∨ (m.counts s = false ∧ m ≠ .ret ∧ m.place s p = p) := by
  cases m
  case call op => exact .inl ⟨op, rfl, rfl⟩
  case ret => exact .inr (.inl ⟨rfl, rfl⟩)
  case pollHead =>
    cases h : s.bwActive
    · exact .inr (.inr (.inr (.inr ⟨rfl, by simp, by simp [Micro.place, h]⟩)))
    · exact .inr (.inr (.inl ⟨.inl rfl, 1, by simp, by simp [Micro.place, h]⟩))
  case pollExit =>
    refine .inr (.inr (.inl ⟨.inr rfl, if s.timedOut then 4 else 3, by split <;> simp, ?_⟩))
    cases h : s.timedOut <;> simp [Micro.place, h]
  all_goals
    simp only [Micro.place]
    split
    · next h => exact .inr (.inr (.inr (.inl ⟨h, rfl⟩)))
    · next h => exact .inr (.inr (.inr (.inr ⟨by simpa using h, by simp, rfl⟩)))

theorem Seq.next_ne_start (p : Seq) (op : Operation) : p.next ≠ Seq.start op := by
  obtain ⟨o, n, fs⟩ := p
  cases fs <;> simp [Seq.next, Seq.start]

theorem Seq.at_ne_start (p : Seq) {k : Nat} (hk : 0 < k) (op : Operation) : p.at k ≠ Seq.start op := by
  obtain ⟨o, n, fs⟩ := p
  cases fs
  · simp only [Seq.at, Seq.start, ne_eq, Machine.Seq.mk.injEq, not_and]
    omega
  · simp [Seq.at, Seq.start]

/-- Once the first step of an operation is behind it, the position never comes back to it. -/
theorem Micro.place_ne_start {p : Seq} {op : Operation} (hp : p ≠ Seq.start op) (m : Micro) (s : State) :
    m.place s p ≠ Seq.start op := by
  obtain ⟨o, -, h⟩ | ⟨-, h⟩ | ⟨-, k, hk, h⟩ | ⟨-, h⟩ | ⟨-, -, h⟩ := m.place_cases s p <;> rw [h]
  · simp [Seq.enter, Seq.start]
  · exact Seq.next_ne_start _ _
  · exact Seq.at_ne_start p hk op
  · exact Seq.next_ne_start _ _
  · exact hp

theorem walk_held_ne_start {p q : Seq} {op : Operation} {ms : List Micro} {s t : State} (hp : p ≠ Seq.start op)
    (h : walk p ms s = .held q t) : q ≠ Seq.start op := by
  induction ms generalizing p s with
  | nil => simp [walk] at h
  | cons m ms ih =>
    rw [walk] at h
    cases hx : m.exec s with
    | go u => rw [hx] at h; exact ih (Micro.place_ne_start hp m s) h
    | hold u =>
      rw [hx] at h
      obtain ⟨rfl, -⟩ : p = q ∧ u = t := by simpa using h
      exact hp
    | gone u => simp [hx] at h
    | fault r => simp [hx] at h

/-- What is left of a sequence is made of its elementary steps. -/
theorem mem_of_mem_seek {s : State} {p : Seq} {ms : List Micro} {m : Micro} (h : m ∈ seek s p ms) : m ∈ ms := by
  induction ms generalizing p with
  | nil => exact h
  | cons k ms ih =>
    rw [seek] at h
    split at h
    · exact h
    · exact List.mem_cons_of_mem k (ih h)

theorem mem_of_mem_restFrom {op : Operation} {s : State} {ms : List Micro} {m : Micro} (h : m ∈ restFrom op s ms) :
    m ∈ ms := by
  unfold restFrom at h
  split at h
  · exact h
  · exact mem_of_mem_seek h

/-- No operation sets `FAULTED` but by the raise of its entry check (R206). -/
theorem opCode_ne_faulted (c : Cfg) (op : Operation) : ∀ m ∈ opCode c op, m ≠ .setDState .faulted := by
  have plain {m : Micro} (h : m.Plain c) : m ≠ .setDState .faulted := by
    rintro rfl
    exact h rfl
  intro m hm
  cases op with
  | boot =>
    obtain rfl | h := List.mem_cons.mp (show m ∈ Micro.arm :: (bootCode c).tail from hm)
    · simp
    · exact plain (bootCode_plain c m h)
  | instr i => exact plain (instrCode_plain c i m hm)
  | main | command | data | wait | pulse => simp [opCode] at hm

/-! ### The invariant but for the position -/

/-- The invariant of a block whose watchdog is armed, as far as it does not look at the position. -/
structure State.Sound (s : State) : Prop where
  cfgOk : s.cfg.wf = true
  storeOk : s.StoreOk
  countersOk : s.CountersOk
  faultOk : s.FaultOk
  recordOk : s.RecordOk
  armed : s.wdtArmed = true

theorem State.Sound.inv {s : State} (h : s.Sound) {q : Seq} (hq : q ≠ Seq.start .boot) :
    ({ s with seq := q } : State).Inv :=
  ⟨h.cfgOk, h.storeOk, h.countersOk, h.faultOk, by simp [State.ArmOk, hq, h.armed], h.recordOk⟩

theorem State.Inv.sound {s : State} (h : s.Inv) (hq : s.seq ≠ Seq.start .boot) : s.Sound :=
  ⟨h.cfgOk, h.storeOk, h.countersOk, h.faultOk, h.recordOk, by simpa using h.armOk.not.mp hq⟩

theorem State.Sound.moved {s : State} (h : s.Sound) (es : List EnvEvent) (ds : List Diag) (q : Option CtlReq) :
    (s.moved es ds q).Sound :=
  ⟨h.cfgOk, h.storeOk, h.countersOk, h.faultOk, h.recordOk, h.armed⟩

theorem State.Sound.linkIdle {s : State} (h : s.Sound) : s.linkIdle.Sound :=
  ⟨h.cfgOk, h.storeOk, h.countersOk, h.faultOk, h.recordOk, h.armed⟩

theorem State.Sound.receive {s : State} (h : s.Sound) (b : Byte) (rest : List LinkSlot) : (s.receive b rest).Sound :=
  ⟨h.cfgOk, h.storeOk, h.countersOk, h.faultOk, h.recordOk, h.armed⟩

theorem State.Sound.afterChoice {s : State} (h : s.Sound) : s.afterChoice.Sound := by
  obtain ⟨hc, hst, hco, hfa, hre, har⟩ := h
  unfold State.afterChoice
  split <;> exact ⟨hc, hst, hco, hfa, hre, har⟩

/-- A reset leaves a state of the invariant, wherever it comes (R49). -/
theorem State.resetTo_inv {s : State} (hc : s.cfg.wf = true) (cause : ResetCause) : (s.resetTo cause).Inv where
  cfgOk := hc
  storeOk := ⟨rfl, rfl⟩
  countersOk := ⟨Nat.zero_le _, Nat.zero_le _, by simp⟩
  faultOk := by simp [State.FaultOk]
  armOk := by simp [State.ArmOk]
  recordOk := by simp [State.RecordOk]

/-! ### The elementary steps keep it -/

theorem Micro.go_storeOk {m : Micro} {s t : State} (hs : s.StoreOk) (h : m.exec s = .go t) : t.StoreOk := by
  have hf := Micro.exec_frame h
  by_cases hm : m = .memWrite
  · subst hm
    simp only [Micro.exec] at h
    split at h
    · next hi =>
      obtain ⟨es, ds, q, -, h⟩ := State.primitive_go h
      cases h
      exact ⟨Memory.wf_write _ _ _ hs.1, Store.within_write _ _ _ _ hs.2 hi⟩
    · cases h
      exact hs
  · simpa only [State.StoreOk, hf.fb hm, hf.cfg] using hs

/-- A sample of the poll loop is taken below the ceiling, and one that reaches it times the session out (R152, R154). -/
theorem State.poll_countersOk {s : State} (hs : s.CountersOk) (hp : s.polls < s.cfg.busyMaxPolls) :
    s.poll.CountersOk := by
  obtain ⟨on, late, h, hon⟩ := s.poll_cases
  rw [h]
  exact ⟨hs.1, hp, fun hb hm => (hon hb).2 hm⟩

theorem Micro.go_countersOk {m : Micro} {s t : State} (hc : s.cfg.wf = true) (hs : s.CountersOk)
    (h : m.exec s = .go t) : t.CountersOk := by
  have hf := Micro.exec_frame h
  obtain ⟨hrx, hpolls, hlate⟩ := hs
  cases m with
  | bumpIdx =>
    simp only [Micro.exec] at h
    split at h
    · next hi => cases h; exact ⟨hi, hpolls, hlate⟩
    · cases h; exact ⟨hrx, hpolls, hlate⟩
  | startPayload => cases h; exact ⟨Nat.zero_le _, hpolls, hlate⟩
  | openSession =>
    cases h
    have hmax : 1 ≤ s.cfg.busyMaxPolls := (Cfg.passes_ceiling_iff _).mp ((Cfg.wf_iff_passes _).mp hc _)
    exact ⟨hrx, Nat.zero_le _, fun _ h0 => absurd h0 (Nat.ne_of_lt hmax)⟩
  | pollSample =>
    simp only [Micro.exec] at h
    split at h
    · next hp =>
      obtain ⟨es, ds, q, -, h⟩ := State.primitive_go h
      cases h
      simp only [State.polling, Bool.and_eq_true, decide_eq_true_eq] at hp
      exact State.poll_countersOk (s := s.moved es ds q) ⟨hrx, hpolls, hlate⟩ hp.2
    · cases h; exact ⟨hrx, hpolls, hlate⟩
  | _ =>
    refine ⟨?_, ?_, fun hb hm => ?_⟩
    · rw [hf.rxIdx (by simp) (by simp), hf.cfg]; exact hrx
    · rw [hf.polls (by simp) (by simp), hf.cfg]; exact hpolls
    · rw [hf.polls (by simp) (by simp), hf.cfg] at hm
      rw [hf.timedOut (by simp)]
      exact hlate (hf.session (by simp) hb) hm

theorem Micro.go_dstate {m : Micro} {s t : State} (hm : m ≠ .setDState .faulted) (hd : s.dstate ≠ .faulted)
    (h : m.exec s = .go t) : t.dstate ≠ .faulted := by
  by_cases hx : ∃ d, m = .setDState d
  · obtain ⟨d, rfl⟩ := hx
    cases h
    exact fun hd => hm (congrArg _ hd)
  · rw [(Micro.exec_frame h).dstate fun d hd => hx ⟨d, hd⟩]
    exact hd

theorem Micro.go_armed {m : Micro} {s t : State} (hs : s.wdtArmed = true) (h : m.exec s = .go t) :
    t.wdtArmed = true := by
  by_cases hm : m = .arm
  · subst hm
    obtain ⟨es, ds, q, -, h⟩ := State.primitive_go h
    cases h
    rfl
  · rw [(Micro.exec_frame h).armed hm, hs]

theorem Micro.go_sound {m : Micro} {s t : State} (hm : m ≠ .setDState .faulted) (hs : s.Sound)
    (hd : s.dstate ≠ .faulted) (h : m.exec s = .go t) : t.Sound where
  cfgOk := by rw [(Micro.exec_frame h).cfg]; exact hs.cfgOk
  storeOk := Micro.go_storeOk hs.storeOk h
  countersOk := Micro.go_countersOk hs.cfgOk hs.countersOk h
  faultOk := by
    have hnone : ¬ s.fault ≠ none := hs.faultOk.not.mp hd
    rw [State.FaultOk, (Micro.exec_frame h).fault]
    exact iff_of_false (Micro.go_dstate hm hd h) hnone
  recordOk := by
    rw [State.RecordOk, (Micro.exec_frame h).fault]
    exact hs.recordOk
  armed := Micro.go_armed hs.armed h

/-- A failing entry check takes the fault with the record of R205. -/
theorem State.Sound.takeFault {s : State} (hs : s.Sound) {op : PanelOp} {p : PState} (hv : validIn op p = false) :
    (s.takeFault (invalidPanelState op p)).Sound where
  cfgOk := hs.cfgOk
  storeOk := hs.storeOk
  countersOk := hs.countersOk
  faultOk := by simp [State.FaultOk]
  recordOk := by
    intro f hf
    obtain rfl : invalidPanelState op p = f := by simpa using hf
    exact ⟨rfl, hv⟩
  armed := hs.armed

theorem Micro.exec_sound {m : Micro} {s : State} (hm : m ≠ .setDState .faulted) (hs : s.Sound)
    (hd : s.dstate ≠ .faulted) :
    (m.exec s).Meets (fun t => t.Sound ∧ t.dstate ≠ .faulted) State.Sound State.Inv True := by
  cases h : m.exec s with
  | go t => exact ⟨Micro.go_sound hm hs hd h, Micro.go_dstate hm hd h⟩
  | hold t =>
    obtain ⟨es, -, rfl⟩ | ⟨es, ds, q, -, ⟨-, rfl⟩ | ⟨op, -, hv, rfl⟩⟩ := Micro.exec_hold h
    · exact hs.moved es s.diag s.ctlReq
    · exact (hs.moved es ds q).linkIdle
    · exact (hs.moved es ds q).takeFault hv
  | gone t =>
    obtain ⟨-, es, cause, -, rfl⟩ := Micro.exec_gone h
    exact State.resetTo_inv (s := { s with env := es }) hs.cfgOk cause
  | fault r => trivial

/-! ### The step of the machine keeps it -/

/-- From any position but the first of boot. -/
theorem run_inv {p : Seq} {ms : List Micro} {s t : State} (hm : ∀ m ∈ ms, m ≠ .setDState .faulted)
    (hp : p ≠ Seq.start .boot) (hs : s.Sound) (hd : s.dstate ≠ .faulted) (h : run p ms s = .next t) : t.Inv := by
  have hw := walk_meets (fun m hmem u hu => Micro.exec_sound (hm m hmem) hu.1 hu.2) ⟨hs, hd⟩ p
  obtain ⟨u, hx, rfl⟩ | ⟨q, u, hx, rfl⟩ | hx := run_next h <;> rw [hx] at hw
  · exact hw.1.inv (by simp [Seq.main, Seq.start])
  · exact State.Sound.inv hw (walk_held_ne_start hp hx)
  · exact hw

theorem exec_inv {i : Instr} {s t : State} (hs : s.Sound) (hd : s.dstate ≠ .faulted) (h : exec i s = .next t) :
    t.Inv := by
  rw [exec_eq] at h
  exact run_inv (opCode_ne_faulted s.cfg (.instr i)) (by simp [Seq.start]) hs hd h

/-- The first step of boot arms the watchdog (R31, R232); what follows it is run by an armed block. -/
theorem boot_inv {s t : State} (hs : s.Inv) (hd : s.dstate ≠ .faulted) (hq : s.seq = Seq.start .boot)
    (h : run (Seq.start .boot) (bootCode s.cfg) s = .next t) : t.Inv := by
  have hcode : bootCode s.cfg = .arm :: (bootCode s.cfg).tail := rfl
  have hmem : ∀ m ∈ (bootCode s.cfg).tail, m ≠ .setDState .faulted :=
    fun m hm => opCode_ne_faulted s.cfg .boot m (List.mem_of_mem_tail hm)
  rw [hcode] at h
  cases hx : Micro.arm.exec s with
  | go u =>
    have hnext : Micro.arm.place s (Seq.start .boot) = (Seq.start .boot).next := rfl
    have hu : u.Sound := by
      obtain ⟨es, ds, q, -, hu⟩ := State.primitive_go hx
      cases hu
      exact ⟨hs.cfgOk, hs.storeOk, hs.countersOk, hs.faultOk, hs.recordOk, rfl⟩
    rw [run_cons_go hx, hnext] at h
    exact run_inv hmem (Seq.next_ne_start _ _) hu (Micro.go_dstate (by simp) hd hx) h
  | hold u =>
    rw [run_cons_hold hx, ← hq] at h
    obtain ⟨es, -, rfl⟩ | ⟨es, ds, q, -, ⟨hm, -⟩ | ⟨op, hm, -⟩⟩ := Micro.exec_hold hx
    · cases h
      exact ⟨hs.cfgOk, hs.storeOk, hs.countersOk, hs.faultOk, hs.armOk, hs.recordOk⟩
    · simp at hm
    · simp at hm
  | gone u =>
    rw [run_cons_gone hx] at h
    obtain ⟨-, es, cause, -, rfl⟩ := Micro.exec_gone hx
    cases h
    exact State.resetTo_inv (s := { s with env := es }) hs.cfgOk cause
  | fault r => simp [run, walk, hx] at h

/-- The environment's moment alone. -/
theorem State.moment_inv {s t : State} (hs : s.Inv)
    (h : s.moment = .pass t ∨ s.moment = .reset t ∨ s.moment = .hold t) : t.Inv := by
  obtain ⟨hc, hst, hco, hfa, har, hre⟩ := hs
  obtain h | h | h := h
  · obtain ⟨es, ds, q, -, rfl⟩ := State.moment_pass h
    exact ⟨hc, hst, hco, hfa, har, hre⟩
  · obtain ⟨-, es, cause, -, rfl⟩ := State.moment_reset h
    exact State.resetTo_inv (s := { s with env := es }) hc cause
  · obtain ⟨es, -, rfl⟩ := State.moment_hold h
    exact ⟨hc, hst, hco, hfa, har, hre⟩

theorem idleFaulted_inv {s t : State} (hs : s.Inv) (h : idleFaulted s = .next t) : t.Inv := by
  refine State.moment_inv hs ?_
  unfold idleFaulted at h
  cases hm : s.moment <;> (rw [hm] at h; cases h; simp)

/-- The choice of the next input leaves the state, or the state with a choice drawn (R178). -/
theorem nextInput_state (s : State) : (nextInput s).2 = s ∨ (nextInput s).2 = s.afterChoice := by
  unfold nextInput
  split <;> simp

theorem processOne_inv {s t : State} (hs : s.Inv) (hd : s.dstate ≠ .faulted) (hq : s.seq.op = .main)
    (h : processOne s = .next t) : t.Inv := by
  have hb : s.seq ≠ Seq.start .boot := fun hb => by rw [hb] at hq; cases hq
  unfold processOne at h
  cases hm : s.moment with
  | reset u => rw [hm] at h; cases h; exact State.moment_inv hs (.inr (.inl hm))
  | hold u => rw [hm] at h; cases h; exact State.moment_inv hs (.inr (.inr hm))
  | pass u =>
    obtain ⟨es, ds, q, -, rfl⟩ := State.moment_pass hm
    have hu := (hs.sound hb).moved es ds q
    have hv : (nextInput (s.moved es ds q)).2.Sound ∧ (nextInput (s.moved es ds q)).2.dstate ≠ .faulted ∧
        (nextInput (s.moved es ds q)).2.seq = s.seq := by
      obtain h | h := nextInput_state (s.moved es ds q) <;> rw [h]
      · exact ⟨hu, hd, rfl⟩
      · exact ⟨hu.afterChoice, by rw [State.afterChoice_dstate]; exact hd, State.afterChoice_seq _⟩
    simp only [hm] at h
    generalize nextInput (s.moved es ds q) = next at h hv
    obtain ⟨i, v⟩ := next
    obtain ⟨hv, hvd, hvq⟩ := hv
    cases i with
    | control q => exact exec_inv hv hvd h
    | byte b rest => exact exec_inv (hv.receive b rest) hvd h
    | nothing =>
      cases h
      exact hv.linkIdle.inv (q := v.seq) (hvq ▸ hb)

theorem continueAt_inv {s t : State} (hs : s.Inv) (hd : s.dstate ≠ .faulted) (h : continueAt s = .next t) :
    t.Inv := by
  unfold continueAt at h
  split at h
  · next hq => exact processOne_inv hs hd hq h
  · by_cases hb : s.seq = Seq.start .boot
    · rw [hb] at h
      simp only [restFrom, Seq.start, hb, if_true] at h
      exact boot_inv hs hd hb h
    · exact run_inv (fun m hm => opCode_ne_faulted s.cfg s.seq.op m (mem_of_mem_restFrom hm)) hb (hs.sound hb) hd h

/-- Settles O59: every elementary step keeps the invariant but for the position (`Micro.exec_sound`), no position but
the first of boot comes back to it, and the first step of boot arms the watchdog. -/
theorem stepKeepsTheInvariant : Obligations.StepKeepsTheInvariant := by
  unfold Obligations.StepKeepsTheInvariant
  intro s t hs h
  rw [step_eq hs.cfgOk, stepBuilt] at h
  split at h
  · exact idleFaulted_inv hs h
  · next hd => exact continueAt_inv hs hd h

/-- Settles O58: the state after reset is a reset of itself. -/
theorem resetMeetsTheInvariant : Obligations.ResetMeetsTheInvariant := by
  unfold Obligations.ResetMeetsTheInvariant
  have hwf : Cfg.build.wf = true := by decide
  exact State.resetTo_inv (s := State.reset) hwf .por

end Sys2Proof.Machine
end

section
/-! Control requests and resets (R46, R49), and what the entry checks (R26) and boot (R232) do while the environment is
quiet. -/

namespace Sys2Proof.Machine

/-! ### Requests and resets -/

/-- Settles O51: a request pends unless another does (`State.request`). -/
theorem secondRequestIsLost : Obligations.SecondRequestIsLost := by
  unfold Obligations.SecondRequestIsLost
  intro s q es he
  have hm : s.moment = .pass (({ s with env := es } : State).request q) := by
    unfold State.moment
    rw [he]
  exact ⟨fun h => by simp only [hm, State.request, h], fun r h => by simp only [hm, State.request, h]⟩

/-- Settles O54: the table of R49, field by field. -/
theorem resetValuesOfEveryField : Obligations.ResetValuesOfEveryField := by
  unfold Obligations.ResetValuesOfEveryField
  exact ⟨fun s cause => ⟨s.resetTo cause, rfl, rfl, rfl, Store.read_nil, rfl, rfl, rfl, rfl, rfl, rfl, rfl, rfl, rfl, rfl,
    rfl, rfl, rfl, rfl⟩, rfl⟩

/-! ### The entry checks (R26, R120) -/

/-- Every panel operation begins with its entry check. -/
theorem instrCode_enters (c : Cfg) (op : PanelOp) : ∃ rest, instrCode c op.instr = .enter op :: rest := by
  cases op <;> exact ⟨_, rfl⟩

/-- Settles O28: a failing entry check is the first step of the operation's sequence (`walk_enter_invalid`). -/
theorem entryCheckFaultsOrPasses : Obligations.EntryCheckFaultsOrPasses := by
  unfold Obligations.EntryCheckFaultsOrPasses
  refine ⟨fun p => ?_, fun op s hq hv => ?_, fun op s => ⟨?_, fun hv => ?_⟩⟩
  · cases p <;> decide
  · obtain ⟨rest, hr⟩ := instrCode_enters s.cfg op
    rw [exec_eq, hr, run, walk_enter_invalid hq hv]
    rfl
  · obtain ⟨rest, hr⟩ := instrCode_enters s.cfg op
    rw [hr]
    rfl
  · simp [Micro.exec, hv]

/-! ### Boot (R232) -/

theorem exec_arm {s : State} (h : s.env = []) : Micro.arm.exec s = .go s.armWatchdog := State.primitive_of_quiet h _

/-- Boot, from how its Initialize ends. -/
theorem step_boot_done {s t : State} (hc : s.cfg.wf = true) (hd : s.dstate ≠ .faulted) (hq : s.env = [])
    (hs : s.seq = Seq.start .boot) (h : ∀ p, walk p (initPanelCode s.cfg) s.armWatchdog = .done t) :
    step s = .next { t with dstate := .await, seq := Seq.main } := by
  rw [step_boot hc hd (by rw [hs]; rfl), restFrom, if_pos hs]
  refine run_done (t := { t with dstate := .await }) ?_
  rw [bootCode, List.cons_append, walk_cons_go (exec_arm hq), walk_append_done (walk_callCode (h _)), walk_setDState, walk]

/-- Settles O57: boot is the `Arm()`, Initialize with or without its wait, and the write of `AWAIT`. -/
theorem bootArmsAndInitializes : Obligations.BootArmsAndInitializes := by
  unfold Obligations.BootArmsAndInitializes
  refine ⟨fun s hc hd hq hs hw => ?_, fun s k late hc hd hq hs hw he => ?_⟩
  · rw [step_boot_done hc hd hq hs (walk_initPanel (s := s.armWatchdog) hq hw)]
    simp [State.poweredOn, State.configured, evInit]
  · rw [step_boot_done hc hd hq hs (walk_initPanel_wait (s := s.armWatchdog) hq hw (he.congr rfl rfl rfl))]
    have hwait : evWaitOf s.armWatchdog.poweredOn k = evWaitOf s k := evWaitOf_congr k rfl rfl rfl
    simp [State.afterBusyWait, State.waited, State.configured, State.said_eq, hwait]
    simp [State.poweredOn, evInit]

end Sys2Proof.Machine
end

section
/-! What the instructions' sequences are made of, and what follows for the panel state (R25) and the host link (R86):
which elementary steps of each sequence write `pstate` or send the host a byte. -/

namespace Sys2Proof.Machine

/-! ### Elementary steps of one kind -/

/-- The elementary steps that the operations of 40_bus_framing.md are made of. -/
def Micro.bus : Micro → Bool
  | .setLine _ _ => true
  | .spiWrite _ => true
  | .spiHeld => true
  | .feed => true
  | .delay _ => true
  | .memRead _ => true
  | .call _ => true
  | .ret => true
  | _ => false

section
variable {f : Micro → Bool} (hf : ∀ m : Micro, m.bus = true → f m = true)
include hf

theorem callCode_all (op : Operation) (ms : List Micro) : (callCode op ms).all f = ms.all f := by
  simp [callCode, hf (.call op) rfl, hf .ret rfl]

theorem cmdCode_all (b : Byte) : (cmdCode b).all f = true := by
  simp [cmdCode, hf (.setLine _ _) rfl, hf (.spiWrite b) rfl]

theorem dataCode_all (b : Byte) : (dataCode b).all f = true := by
  simp [dataCode, hf (.setLine _ _) rfl, hf (.spiWrite b) rfl]

theorem sendCode_all (command : Byte) (ds : List Byte) : (sendCode command ds).all f = true := by
  simp only [sendCode, List.all_append, List.all_flatMap, callCode_all hf, cmdCode_all hf, dataCode_all hf]
  simp

theorem waitCode_all (ms : Nat) : (waitCode ms).all f = true := by
  simp [waitCode, callCode_all hf, hf .feed rfl, hf (.delay ms) rfl]

theorem pulseCode_all (c : Cfg) : (pulseCode c).all f = true := by
  simp [pulseCode, callCode_all hf, waitCode_all hf, hf (.setLine _ _) rfl]

theorem planeCode_all (c : Cfg) (p : Plane) (src : PlaneSrc) : (planeCode c p src).all f = true := by
  cases src with
  | const b => exact sendCode_all hf _ _
  | store =>
    simp [planeCode, callCode_all hf, cmdCode_all hf, cellCode, hf (.memRead _) rfl,
      hf (.setLine _ _) rfl, hf .spiHeld rfl]

end

/-! ### Writes of the panel state -/

/-- No write of `pstate`. -/
def Micro.keepsPState : Micro → Bool
  | .setPState _ => false
  | _ => true

theorem Micro.keepsPState_of_bus (m : Micro) (h : m.bus = true) : m.keepsPState = true := by
  cases m <;> simp_all [Micro.bus, Micro.keepsPState]

theorem pstateWrites_eq_nil {ms : List Micro} (h : ms.all Micro.keepsPState = true) : pstateWrites ms = [] := by
  simp only [List.all_eq_true] at h
  simp only [pstateWrites, List.filterMap_eq_nil_iff]
  intro m hm
  have := h m hm
  cases m <;> simp_all [Micro.keepsPState]

@[simp] theorem pstateWrites_nil : pstateWrites [] = [] := rfl

/-- An elementary step that is no write of `pstate` adds none. -/
@[simp] theorem pstateWrites_cons_other (m : Micro) (ms : List Micro) (h : ∀ p, m ≠ .setPState p) :
    pstateWrites (m :: ms) = pstateWrites ms := by
  cases m
  case setPState p => exact absurd rfl (h p)
  all_goals rfl

@[simp] theorem pstateWrites_setPState (p : PState) (ms : List Micro) :
    pstateWrites (.setPState p :: ms) = p :: pstateWrites ms := rfl

@[simp] theorem pstateWrites_callCode (op : Operation) (ms : List Micro) :
    pstateWrites (callCode op ms) = pstateWrites ms := by
  simp [callCode]

@[simp] theorem pstateWrites_cmdCode (b : Byte) : pstateWrites (cmdCode b) = [] := rfl

@[simp] theorem pstateWrites_dataCode (b : Byte) : pstateWrites (dataCode b) = [] := rfl

@[simp] theorem pstateWrites_sendCode (command : Byte) (ds : List Byte) : pstateWrites (sendCode command ds) = [] :=
  pstateWrites_eq_nil (sendCode_all Micro.keepsPState_of_bus _ _)

@[simp] theorem pstateWrites_waitCode (ms : Nat) : pstateWrites (waitCode ms) = [] := rfl

@[simp] theorem pstateWrites_pulseCode (c : Cfg) : pstateWrites (pulseCode c) = [] := rfl

@[simp] theorem pstateWrites_planeCode (c : Cfg) (p : Plane) (src : PlaneSrc) : pstateWrites (planeCode c p src) = [] :=
  pstateWrites_eq_nil (planeCode_all Micro.keepsPState_of_bus _ _ _)

theorem busyWaitCode_keepsPState (c : Cfg) : (busyWaitCode c).all Micro.keepsPState = true := by
  have hbus := Micro.keepsPState_of_bus
  simp [busyWaitCode, callCode_all hbus, flgCode, cmdCode_all hbus, waitCode_all hbus, pollCode, Micro.keepsPState]

@[simp] theorem pstateWrites_busyWaitCode (c : Cfg) : pstateWrites (busyWaitCode c) = [] :=
  pstateWrites_eq_nil (busyWaitCode_keepsPState c)

@[simp] theorem pstateWrites_ackCode (c : Cfg) : pstateWrites (ackCode c) = [] := by
  unfold ackCode
  cases c.ackMode <;> rfl

@[simp] theorem pstateWrites_doneCode (c : Cfg) : pstateWrites (doneCode c) = [] := by
  unfold doneCode
  cases c.ackMode
  · simp
  · rfl

@[simp] theorem pstateWrites_endCode : pstateWrites endCode = [] := rfl

@[simp] theorem pstateWrites_refreshCode (c : Cfg) : pstateWrites (refreshCode c) = [.refreshing, .idle] := by
  simp [refreshCode, drfCode]

@[simp] theorem pstateWrites_initPanelCode (c : Cfg) : pstateWrites (initPanelCode c) = [.initializing, .idle] := by
  have hwait : pstateWrites (initWaitCode c) = [] := by unfold initWaitCode; split <;> simp
  simp [initPanelCode, hwait, btstCode, ponCode, psrCode, cdiCode, tresCode]

@[simp] theorem pstateWrites_clearCode (c : Cfg) :
    pstateWrites (clearCode c) = [.writing, .refreshing, .idle] := by
  simp [clearCode, dtm1Code, dtm2Code]

@[simp] theorem pstateWrites_displayCode (c : Cfg) :
    pstateWrites (displayCode c) = if shapeOk c then [.writing, .refreshing, .idle] else [] := by
  cases h : shapeOk c <;> simp [displayCode, h, dtm1Code, dtm2Code]

@[simp] theorem pstateWrites_sleepCode (c : Cfg) : pstateWrites (sleepCode c) = [.refreshing, .sleeping] := by
  simp [sleepCode, cdiCode, pofCode, dslpCode]

@[simp] theorem pstateWrites_sendBufferCode (c : Cfg) : pstateWrites (sendBufferCode c) = [] := by
  have hloop : pstateWrites (List.replicate c.payloadLen payloadCode).flatten = [] :=
    pstateWrites_eq_nil (by simp [payloadCode, Micro.keepsPState])
  simp [sendBufferCode, hloop]

theorem pstateWrites_bootCode (c : Cfg) : pstateWrites (bootCode c) = [.initializing, .idle] := by
  simp [bootCode]

/-- An instruction that invokes no panel operation writes no panel state. -/
theorem pstateWrites_of_entryOp_none (c : Cfg) {i : Instr} (h : entryOp i = none) :
    pstateWrites (instrCode c i) = [] := by
  cases i <;> simp only [entryOp, reduceCtorEq] at h
  case sendBuffer => exact pstateWrites_sendBufferCode c
  case unknown op => rfl
  case ack => exact pstateWrites_ackCode c
  case btst | pon | psr | cdi | tres | dslp => exact pstateWrites_sendCode _ _
  case dtm1 | dtm2 => exact pstateWrites_planeCode _ _ _
  case drf | flg | pof => exact pstateWrites_cmdCode _
  case data b => exact pstateWrites_dataCode b

/-- The writes of an instruction that invokes a panel operation are those of the operation (R173, R174, R177). -/
theorem pstateWrites_of_entryOp (c : Cfg) {i : Instr} {op : PanelOp} (h : entryOp i = some op) :
    pstateWrites (instrCode c i) = pstateWrites (instrCode c op.instr) := by
  cases i <;> simp only [entryOp, reduceCtorEq, Option.some.injEq] at h <;> subst h
  case writeScreen => simp [instrCode, PanelOp.instr, writeScreenCode]
  case clearScreen => simp [instrCode, PanelOp.instr, clearScreenCode]
  case ctlInit => simp [instrCode, PanelOp.instr, ctlInitCode]
  case ctlSleep => simp [instrCode, PanelOp.instr, ctlSleepCode]
  all_goals rfl

/-- From a panel state its entry check passes, each panel operation follows the edges of R25. -/
theorem panelOp_edges (c : Cfg) (op : PanelOp) (p : PState) (h : validIn op p = true) :
    edgesFrom p (pstateWrites (instrCode c op.instr)) = true := by
  cases op <;> simp only [PanelOp.instr, instrCode, pstateWrites_initPanelCode, pstateWrites_clearCode,
    pstateWrites_displayCode, pstateWrites_refreshCode, pstateWrites_sleepCode, pstateWrites_busyWaitCode]
  case display => revert h; split <;> cases p <;> decide
  all_goals revert h; cases p <;> decide

/-- Settles O44: a step but `setPState` keeps the panel state (`Micro.exec_frame`), and the writes of each sequence are
listed above. -/
theorem panelStateFollowsTheEdges : Obligations.PanelStateFollowsTheEdges := by
  unfold Obligations.PanelStateFollowsTheEdges
  refine ⟨fun m s t h => ⟨?_, (Micro.exec_frame h).pstate⟩, fun c i p hv => ?_, fun c p => ?_⟩
  · rintro p rfl
    cases h
    rfl
  · cases he : entryOp i with
    | none => rw [pstateWrites_of_entryOp_none c he]; rfl
    | some op => rw [pstateWrites_of_entryOp c he]; exact panelOp_edges c op p (hv op he)
  · rw [pstateWrites_bootCode]
    cases p <;> decide

/-! ### While the panel sleeps (R25, R104) -/

/-- What the beginning of a sequence leaves, and then the rest from there. -/
theorem walk_append_meets {mid go stop cut : State → Prop} {halt : Prop} {p : Seq} {a b : List Micro} {s : State}
    (ha : (walk p a s).Meets mid stop cut halt) (hb : ∀ q u, mid u → (walk q b u).Meets go stop cut halt) :
    (walk p (a ++ b) s).Meets go stop cut halt := by
  rw [walk_append]
  cases hw : walk p a s with
  | done t => rw [hw] at ha; exact hb _ t ha
  | held q t => rw [hw] at ha; exact ha
  | gone t => rw [hw] at ha; exact ha
  | fault r => rw [hw] at ha; exact ha

/-- A reset has abandoned what the block was doing. -/
def State.IsReset (t : State) : Prop := ∃ (u : State) (cause : ResetCause), t = u.resetTo cause

theorem Micro.exec_keepsPState {m : Micro} (hm : m.keepsPState = true) {p : PState} {s : State} (hs : s.pstate = p) :
    (m.exec s).Meets (·.pstate = p) (·.pstate = p) State.IsReset True := by
  cases h : m.exec s with
  | go t => exact ((Micro.exec_frame h).pstate (by rintro q rfl; cases hm)).trans hs
  | hold t => obtain ⟨es, -, rfl⟩ | ⟨es, ds, q, -, ⟨-, rfl⟩ | ⟨op, -, -, rfl⟩⟩ := Micro.exec_hold h <;> exact hs
  | gone t => obtain ⟨-, es, cause, -, rfl⟩ := Micro.exec_gone h; exact ⟨_, cause, rfl⟩
  | fault r => trivial

/-- A failing entry check ends the sequence it stands in, whatever follows it. -/
theorem walk_enter_stops {go : State → Prop} {op : PanelOp} {s : State} (hv : validIn op s.pstate = false) (p : Seq)
    (ms : List Micro) : (walk p (.enter op :: ms) s).Meets go (·.pstate = s.pstate) State.IsReset True := by
  have hx := Micro.exec_keepsPState (m := .enter op) rfl (rfl : s.pstate = s.pstate)
  rw [walk]
  cases h : (Micro.enter op).exec s with
  | go t =>
    simp only [Micro.exec, hv, Bool.false_eq_true, if_false] at h
    obtain ⟨_, _, _, -, h⟩ := State.primitive_go h
    cases h
  | hold t => rw [h] at hx; exact hx
  | gone t => rw [h] at hx; exact hx
  | fault r => trivial

theorem validIn_sleeping {op : PanelOp} (h : op ≠ .initPanel) : validIn op .sleeping = false := by
  cases op
  case initPanel => exact absurd rfl h
  all_goals rfl

theorem entryOp_initPanel {i : Instr} (h : entryOp i = some .initPanel) : i = .initPanel ∨ i = .ctlInit := by
  cases i <;> simp_all [entryOp]

/-- Before the entry check of the panel operation it invokes, an instruction writes no panel state. -/
theorem instrCode_entry (c : Cfg) {i : Instr} {op : PanelOp} (h : entryOp i = some op) :
    ∃ a b, instrCode c i = a ++ .enter op :: b ∧ a.all Micro.keepsPState = true := by
  have hack : (ackCode c).all Micro.keepsPState = true := by
    unfold ackCode
    cases c.ackMode <;> rfl
  cases i <;> simp only [entryOp, reduceCtorEq, Option.some.injEq] at h <;> subst h
  case writeScreen =>
    refine ⟨.setCurOp .writeScreen :: .setDState .exec :: callCode (.instr .ack) (ackCode c) ++ [.call (.instr .display)],
      _, by simp [instrCode, writeScreenCode, callCode, displayCode]; rfl, ?_⟩
    simp [callCode_all Micro.keepsPState_of_bus, hack, Micro.keepsPState]
  case clearScreen =>
    refine ⟨.setCurOp .clearScreen :: .setDState .exec :: callCode (.instr .ack) (ackCode c) ++ [.call (.instr .clear)],
      _, by simp [instrCode, clearScreenCode, callCode, clearCode]; rfl, ?_⟩
    simp [callCode_all Micro.keepsPState_of_bus, hack, Micro.keepsPState]
  case ctlInit =>
    exact ⟨[.takeRequest, .setCurOp .ctlInit, .setDState .exec, .call (.instr .initPanel)], _, rfl, rfl⟩
  case ctlSleep =>
    exact ⟨[.takeRequest, .setCurOp .ctlSleep, .setDState .exec, .call (.instr .sleep)], _, rfl, rfl⟩
  all_goals exact ⟨[], _, rfl, rfl⟩

theorem all_keepsPState_of_writes {ms : List Micro} (h : pstateWrites ms = []) : ms.all Micro.keepsPState = true := by
  simp only [pstateWrites, List.filterMap_eq_nil_iff] at h
  simp only [List.all_eq_true]
  intro m hm
  have := h m hm
  cases m <;> simp_all [Micro.keepsPState]

/-- Settles O45: an instruction that invokes no panel operation writes no panel state, and one that invokes another than
Initialize stops at its entry check. -/
theorem onlyInitializeWakesThePanel : Obligations.OnlyInitializeWakesThePanel := by
  unfold Obligations.OnlyInitializeWakesThePanel
  intro i s t hinit hctl hs ht
  have keeps {ms : List Micro} (hms : ms.all Micro.keepsPState = true) (p : Seq) :
      (walk p ms s).Meets (·.pstate = .sleeping) (·.pstate = .sleeping) State.IsReset True :=
    walk_meets (fun m hm u hu => Micro.exec_keepsPState (List.all_eq_true.mp hms m hm) hu) hs p
  have hw : (walk (Seq.start (.instr i)) (instrCode s.cfg i) s).Meets (·.pstate = .sleeping) (·.pstate = .sleeping)
      State.IsReset True := by
    cases he : entryOp i with
    | none => exact keeps (all_keepsPState_of_writes (pstateWrites_of_entryOp_none s.cfg he)) _
    | some op =>
      have hv : validIn op .sleeping = false := by
        refine validIn_sleeping ?_
        rintro rfl
        exact (entryOp_initPanel he).elim hinit hctl
      obtain ⟨a, b, hcode, ha⟩ := instrCode_entry s.cfg he
      rw [hcode]
      exact walk_append_meets (keeps ha _) fun q u hu => hu ▸ walk_enter_stops (hu ▸ hv) q b
  rw [exec_eq] at ht
  obtain ⟨u, hu, rfl⟩ | ⟨u, q, hu, rfl⟩ | hu := run_meets hw ht
  · exact .inl hu
  · exact .inl hu
  · exact .inr hu

end Sys2Proof.Machine
end

section
/-! What the instructions send to the host (R42, R86, R176): the acknowledgements of the commands, once or twice, and
nothing else. -/

namespace Sys2Proof.Machine

/-! ### Elementary steps that send nothing to the host -/

/-- No byte to the host. -/
def Micro.sendsNothing : Micro → Bool
  | .txByte _ => false
  | _ => true

theorem Micro.sendsNothing_of_bus (m : Micro) (h : m.bus = true) : m.sendsNothing = true := by
  cases m <;> simp_all [Micro.bus, Micro.sendsNothing]

/-- The block is left alone, of the configuration `c`, and has sent the host `x`, the newest first. -/
def State.HasSent (c : Cfg) (x : List Byte) (s : State) : Prop := s.env = [] ∧ s.cfg = c ∧ hostTx s.trace = x

theorem Micro.exec_sendsNothing {m : Micro} (hm : m.sendsNothing = true) {c : Cfg} {x : List Byte} {s : State}
    (hs : s.HasSent c x) : (m.exec s).Meets (State.HasSent c x) (hostTx ·.trace = x) (fun _ => False) True := by
  obtain ⟨hq, hc, hx⟩ := hs
  cases h : m.exec s with
  | go t =>
    have hf := Micro.exec_frame h
    exact ⟨List.suffix_nil.mp (hq ▸ hf.env), hf.cfg.trans hc, (hf.sent (by rintro b rfl; cases hm)).trans hx⟩
  | hold t =>
    obtain ⟨es, he, -⟩ | ⟨es, ds, q, -, ⟨-, rfl⟩ | ⟨op, -, -, rfl⟩⟩ := Micro.exec_hold h
    · simp [hq] at he
    · exact hx
    · exact hx
  | gone t =>
    obtain ⟨e, es, cause, he, -⟩ := Micro.exec_gone h
    simp [hq] at he
  | fault r => trivial

theorem walk_sendsNothing {ms : List Micro} (hm : ms.all Micro.sendsNothing = true) {c : Cfg} {x : List Byte} {s : State}
    (hs : s.HasSent c x) (p : Seq) :
    (walk p ms s).Meets (State.HasSent c x) (hostTx ·.trace = x) (fun _ => False) True :=
  walk_meets (fun m hmem _ hu => Micro.exec_sendsNothing (List.all_eq_true.mp hm m hmem) hu) hs p

/-! ### The sequences that send nothing to the host -/

theorem busyWaitCode_sendsNothing (c : Cfg) : (busyWaitCode c).all Micro.sendsNothing = true := by
  have hbus := Micro.sendsNothing_of_bus
  simp [busyWaitCode, callCode_all hbus, flgCode, cmdCode_all hbus, waitCode_all hbus, pollCode, Micro.sendsNothing]

theorem refreshCode_sendsNothing (c : Cfg) : (refreshCode c).all Micro.sendsNothing = true := by
  have hbus := Micro.sendsNothing_of_bus
  simp [refreshCode, callCode_all hbus, drfCode, cmdCode_all hbus, busyWaitCode_sendsNothing, Micro.sendsNothing]

theorem initPanelCode_sendsNothing (c : Cfg) : (initPanelCode c).all Micro.sendsNothing = true := by
  have hbus := Micro.sendsNothing_of_bus
  have hwait : (initWaitCode c).all Micro.sendsNothing = true := by
    unfold initWaitCode
    split
    · simp [callCode_all hbus, busyWaitCode_sendsNothing]
    · rfl
  simp [initPanelCode, callCode_all hbus, pulseCode_all hbus, btstCode, ponCode, psrCode, cdiCode, tresCode,
    sendCode_all hbus, hwait, Micro.sendsNothing]

theorem clearCode_sendsNothing (c : Cfg) : (clearCode c).all Micro.sendsNothing = true := by
  have hbus := Micro.sendsNothing_of_bus
  simp [clearCode, callCode_all hbus, dtm1Code, dtm2Code, planeCode_all hbus, refreshCode_sendsNothing,
    Micro.sendsNothing]

theorem displayCode_sendsNothing (c : Cfg) : (displayCode c).all Micro.sendsNothing = true := by
  have hbus := Micro.sendsNothing_of_bus
  cases h : shapeOk c <;>
    simp [displayCode, h, callCode_all hbus, dtm1Code, dtm2Code, planeCode_all hbus, refreshCode_sendsNothing,
      Micro.sendsNothing]

theorem sleepCode_sendsNothing (c : Cfg) : (sleepCode c).all Micro.sendsNothing = true := by
  have hbus := Micro.sendsNothing_of_bus
  simp [sleepCode, callCode_all hbus, cdiCode, pofCode, dslpCode, sendCode_all hbus, cmdCode_all hbus,
    busyWaitCode_sendsNothing, Micro.sendsNothing]

theorem instrCode_sendsNothing (c : Cfg) {i : Instr} (h1 : i ≠ .sendBuffer) (h2 : i ≠ .writeScreen)
    (h3 : i ≠ .clearScreen) (h4 : i ≠ .ack) : (instrCode c i).all Micro.sendsNothing = true := by
  have hbus := Micro.sendsNothing_of_bus
  cases i
  case sendBuffer => exact absurd rfl h1
  case writeScreen => exact absurd rfl h2
  case clearScreen => exact absurd rfl h3
  case ack => exact absurd rfl h4
  case unknown op => rfl
  case ctlInit =>
    simp [instrCode, ctlInitCode, callCode_all hbus, initPanelCode_sendsNothing, endCode, Micro.sendsNothing]
  case ctlSleep =>
    simp [instrCode, ctlSleepCode, callCode_all hbus, sleepCode_sendsNothing, endCode, Micro.sendsNothing]
  case btst | pon | psr | cdi | tres | dslp => exact sendCode_all hbus _ _
  case dtm1 | dtm2 => exact planeCode_all hbus _ _ _
  case drf | flg | pof => exact cmdCode_all hbus _
  case data b => exact dataCode_all hbus b
  case initPanel => exact initPanelCode_sendsNothing c
  case clear => exact clearCode_sendsNothing c
  case display => exact displayCode_sendsNothing c
  case refresh => exact refreshCode_sendsNothing c
  case sleep => exact sleepCode_sendsNothing c
  case busyWait => exact busyWaitCode_sendsNothing c

/-! ### The commands -/

/-- The operation a position is in stays, whatever its callees do. -/
theorem Micro.place_op (m : Micro) (s : State) (p : Seq) : (m.place s p).op = p.op := by
  have next (p : Seq) : p.next.op = p.op := by unfold Seq.next; split <;> rfl
  obtain ⟨o, -, h⟩ | ⟨-, h⟩ | ⟨-, k, -, h⟩ | ⟨-, h⟩ | ⟨-, -, h⟩ := m.place_cases s p <;> rw [h]
  · rfl
  · exact next _
  · unfold Seq.at; split <;> rfl
  · exact next p

theorem walk_held_op {p q : Seq} {ms : List Micro} {s t : State} (h : walk p ms s = .held q t) : q.op = p.op := by
  induction ms generalizing p s with
  | nil => simp [walk] at h
  | cons m ms ih =>
    rw [walk] at h
    cases hx : m.exec s with
    | go u => rw [hx] at h; exact (ih h).trans (Micro.place_op m s p)
    | hold u =>
      rw [hx] at h
      obtain ⟨rfl, -⟩ : p = q ∧ u = t := by simpa using h
      rfl
    | gone u => simp [hx] at h
    | fault r => simp [hx] at h

/-- The bytes of an acknowledgement (R176). -/
theorem hostTx_evAck (c : Cfg) : hostTx (evAck c) = if c.ackMode = .silent then [] else [c.ackByte] := by
  unfold evAck
  cases c.ackMode <;> rfl

theorem hostTx_reverse (es : List Event) : hostTx es.reverse = (hostTx es).reverse := by
  simp [hostTx, List.filterMap_reverse]

/-- What is left of a command after its "accepted" point sends the ack of its "done" point if the command completes,
and nothing if it does not. -/
theorem run_done_hostTx {c : Cfg} {b : List Micro} (hb : b.all Micro.sendsNothing = true) {p : Seq}
    (hp : p.op ≠ .main) {s t : State} (hq : s.env = []) (hc : s.cfg = c)
    (h : run p (b ++ (doneCode c ++ endCode)) s = .next t) :
    hostTx t.trace = (if t.seq = Seq.main then hostTx (evAck c) else []) ++ hostTx s.trace := by
  have hw := walk_sendsNothing hb ⟨hq, hc, rfl⟩ p
  unfold run at h
  rw [walk_append] at h
  cases hx : walk p b s with
  | done u =>
    obtain ⟨huq, huc, hut⟩ : u.HasSent c (hostTx s.trace) := by rw [hx] at hw; exact hw
    simp only [hx, walk_done_end huq huc] at h
    cases h
    simp [State.ended, State.acked, huc, hut]
  | held q u =>
    have hut : hostTx u.trace = hostTx s.trace := by rw [hx] at hw; exact hw
    have hqop : q ≠ Seq.main := fun hm => hp ((walk_held_op hx).symm.trans (by rw [hm]; rfl))
    simp only [hx] at h
    cases h
    simp [hqop, hut]
  | gone u => rw [hx] at hw; exact hw.elim
  | fault r => simp [hx] at h

/-- A command that has opened with its "accepted" point. -/
theorem command_hostTx {i : Instr} {s u t : State} {b : List Micro} (hb : b.all Micro.sendsNothing = true)
    (hopen : walk (Seq.start (.instr i)) (instrCode s.cfg i) s =
      walk (Seq.start (.instr i)).next (b ++ (doneCode s.cfg ++ endCode)) u)
    (hq : u.env = []) (hc : u.cfg = s.cfg) (hu : u.trace = evAck s.cfg ++ s.trace) (h : exec i s = .next t) :
    hostTx t.trace = (if t.seq = Seq.main then hostTx (evAck s.cfg) else []) ++ hostTx (evAck s.cfg) ++ hostTx s.trace := by
  rw [exec_eq, run, hopen, ← run] at h
  rw [run_done_hostTx hb (by simp [Seq.start, Seq.next]) hq hc h, hu, hostTx_append, List.append_assoc]

theorem commands_hostTx {i : Instr} {s t : State} (hi : i = .sendBuffer ∨ i = .writeScreen ∨ i = .clearScreen)
    (hq : s.env = []) (h : exec i s = .next t) :
    hostTx t.trace = (if t.seq = Seq.main then hostTx (evAck s.cfg) else []) ++ hostTx (evAck s.cfg) ++ hostTx s.trace := by
  have hbus := Micro.sendsNothing_of_bus
  obtain rfl | rfl | rfl := hi
  · refine command_hostTx (u := s.receiving)
      (b := (List.replicate s.cfg.payloadLen payloadCode).flatten ++ [.setDState .exec]) ?_ ?_ hq rfl rfl h
    · simp [payloadCode, Micro.sendsNothing]
    · simp only [List.append_assoc, List.cons_append, List.nil_append]
      exact walk_sendBuffer_open hq _
  · refine command_hostTx (u := s.accepted .writeScreen)
      (b := callCode (.instr .display) (displayCode s.cfg) ++ [.diagShape]) ?_ ?_ hq rfl rfl h
    · simp [callCode_all hbus, displayCode_sendsNothing, Micro.sendsNothing]
    · simp only [List.append_assoc, List.cons_append, List.nil_append]
      exact walk_writeScreen_open hq _
  · refine command_hostTx (u := s.accepted .clearScreen) (b := callCode (.instr .clear) (clearCode s.cfg)) ?_
      (walk_clearScreen_open hq _) hq rfl rfl h
    simp [callCode_all hbus, clearCode_sendsNothing]

/-- Settles O38: a command sends the ack of its "accepted" point and, where it completes, that of its "done" point
(`commands_hostTx`); the other sequences hold no `TxByte` but ACK's. -/
theorem ackBytesPerCommand : Obligations.AckBytesPerCommand := by
  unfold Obligations.AckBytesPerCommand
  intro i s t es hq h htrace
  have htx : hostTx t.trace = (hostTx es).reverse ++ hostTx s.trace := by
    rw [htrace, hostTx_append, hostTx_reverse]
  refine ⟨fun hi => ?_, fun h1 h2 h3 h4 => ?_⟩
  · have hsent := commands_hostTx hi hq h
    rw [htx, List.append_left_inj, ← List.reverse_inj, List.reverse_reverse, hostTx_evAck] at hsent
    rw [hsent]
    split <;> split <;> simp_all
  · have hw := walk_sendsNothing (instrCode_sendsNothing s.cfg h1 h2 h3 h4) ⟨hq, rfl, rfl⟩ (Seq.start (.instr i))
    rw [exec_eq] at h
    have hsame : hostTx t.trace = hostTx s.trace := by
      obtain ⟨u, hx, rfl⟩ | ⟨q, u, hx, rfl⟩ | hx := run_next h <;> rw [hx] at hw
      · obtain ⟨-, -, hsent⟩ := hw
        exact hsent
      · exact hw
      · exact hw.elim
    simpa [htx] using hsame

end Sys2Proof.Machine
end

section
/-! Where the environment can act (R209, R212): before which elementary steps its moment comes, what each event does
there, and that nothing else an elementary step does depends on the schedule or on the sequence position. -/

namespace Sys2Proof.Machine

/-- The same state with another schedule and another position. -/
def State.placed (s : State) (es : List EnvEvent) (q : Seq) : State := { s with env := es, seq := q }

/-- The same in the state an elementary step leaves; a reset has its own position. -/
def Flow.placed (f : Flow) (es : List EnvEvent) (q : Seq) : Flow :=
  match f with
  | .go s => .go (s.placed es q)
  | .hold s => .hold (s.placed es q)
  | .gone s => .gone s
  | .fault r => .fault r

/-- Another position alone. -/
def Flow.reseat (f : Flow) (q : Seq) : Flow :=
  match f with
  | .go s => .go { s with seq := q }
  | .hold s => .hold { s with seq := q }
  | .gone s => .gone s
  | .fault r => .fault r

/-- An effect that reads neither the schedule nor the position. -/
def Unplaced (f : State → Flow) : Prop := ∀ s es q, f (s.placed es q) = (f s).placed es q

/-! ### The effects -/

theorem Unplaced.go {f : State → State} (h : ∀ s es q, f (s.placed es q) = (f s).placed es q) :
    Unplaced fun s => .go (f s) :=
  fun s es q => congrArg Flow.go (h s es q)

theorem State.setLine_placed (s : State) (es : List EnvEvent) (q : Seq) (l : Line) (v : Bit) :
    (s.placed es q).setLine l v = (s.setLine l v).placed es q := by
  cases l <;> rfl

theorem State.memRead_placed (s : State) (es : List EnvEvent) (q : Seq) (i : Nat) :
    (s.placed es q).memRead i = (s.memRead i).placed es q := by
  cases h : Store.read s.fb i <;> simp only [State.memRead, State.placed, h]

theorem State.poll_placed (s : State) (es : List EnvEvent) (q : Seq) :
    (s.placed es q).poll = s.poll.placed es q := by
  simp only [State.poll, State.sampleBusy_eq, apply_ite (State.placed · es q)]
  rfl

theorem readCell_unplaced (i : Nat) : Unplaced (readCell i) := by
  intro s es q
  have hc : (s.placed es q).cfg = s.cfg := rfl
  unfold readCell
  rw [hc, State.memRead_placed]
  split <;> rfl

theorem receivePayload_unplaced : Unplaced receivePayload := by
  intro s es q
  have hrx : (s.placed es q).rx = s.rx := rfl
  unfold receivePayload
  rw [hrx]
  split <;> rfl

/-! ### The elementary steps the moment comes before -/

/-- Whether an elementary step, in `s`, is a primitive that the tests before it reach: the environment has its moment
before it. -/
def Micro.reached (m : Micro) (s : State) : Bool :=
  match m with
  | .setLine _ _ => true
  | .spiWrite _ => true
  | .spiHeld => true
  | .arm => true
  | .feed => true
  | .delay _ => true
  | .txByte _ => true
  | .memRead _ => true
  | .diag _ => true
  | .diagDone => true
  | .raiseFrameSize => true
  | .rxPayload => decide (s.rxIdx < s.cfg.payloadLen)
  | .memWrite => decide (s.rxIdx < s.cfg.payloadLen)
  | .pollFeed => s.polling
  | .pollSample => s.polling
  | .pollDiag => s.atCeiling
  | .pollDelay => s.polling
  | .diagShape => s.lastResult == .invalidFrameSize
  | .enter op => !validIn op s.pstate
  | _ => false

/-- Such a step is a primitive whose effect reads neither the schedule nor the position. -/
theorem Micro.exec_of_reached {m : Micro} {s : State} (h : m.reached s = true) :
    ∃ f, Unplaced f ∧ ∀ es q, m.exec (s.placed es q) = (s.placed es q).primitive f := by
  have mine {f : State → State} (hf : ∀ s es q, f (s.placed es q) = (f s).placed es q)
      (hm : ∀ es q, m.exec (s.placed es q) = (s.placed es q).primitive fun t => .go (f t)) :
      ∃ f, Unplaced f ∧ ∀ es q, m.exec (s.placed es q) = (s.placed es q).primitive f := ⟨_, .go hf, hm⟩
  cases m <;> simp only [Micro.reached, reduceCtorEq, Bool.not_eq_eq_eq_not, Bool.not_true, decide_eq_true_eq,
    beq_iff_eq] at h
  case setLine l v => exact mine (fun s es q => s.setLine_placed es q l v) fun _ _ => rfl
  case memRead i => exact ⟨_, readCell_unplaced i, fun _ _ => rfl⟩
  case raiseFrameSize => exact mine (f := id) (fun _ _ _ => rfl) fun _ _ => rfl
  case rxPayload => exact ⟨_, receivePayload_unplaced, fun _ _ => if_pos h⟩
  case memWrite => exact mine (fun _ _ _ => rfl) fun _ _ => if_pos h
  case pollFeed => exact mine (fun _ _ _ => rfl) fun _ _ => if_pos h
  case pollSample => exact mine State.poll_placed fun _ _ => if_pos h
  case pollDiag => exact mine (fun _ _ _ => rfl) fun _ _ => if_pos h
  case pollDelay => exact mine (fun _ _ _ => rfl) fun _ _ => if_pos h
  case diagShape => exact mine (fun _ _ _ => rfl) fun _ _ => if_pos h
  case enter op => exact ⟨_, fun _ _ _ => rfl, fun _ _ => if_neg (Bool.eq_false_iff.mp h)⟩
  all_goals exact mine (fun _ _ _ => rfl) fun _ _ => rfl

/-- Every other step goes on at once, and as it does with any schedule and position. -/
theorem Micro.exec_of_not_reached {m : Micro} {s : State} (h : m.reached s = false) :
    ∃ t : State, ∀ es q, m.exec (s.placed es q) = .go (t.placed es q) := by
  cases m
  case bumpIdx =>
    by_cases hi : s.rxIdx < s.cfg.payloadLen
    · exact ⟨{ s with rxIdx := s.rxIdx + 1 }, fun _ _ => if_pos hi⟩
    · exact ⟨s, fun _ _ => if_neg hi⟩
  case rxPayload | memWrite => exact ⟨s, fun _ _ => if_neg (of_decide_eq_false h)⟩
  case pollFeed | pollSample | pollDiag | pollDelay => exact ⟨s, fun _ _ => if_neg (Bool.eq_false_iff.mp h)⟩
  case diagShape => exact ⟨s, fun _ _ => if_neg (beq_eq_false_iff_ne.mp h)⟩
  case enter op => exact ⟨s, fun _ _ => if_pos (show validIn op s.pstate = true by simpa [Micro.reached] using h)⟩
  case openSession => exact ⟨s.openSession, fun _ _ => rfl⟩
  case closeSession => exact ⟨s.closeSession, fun _ _ => rfl⟩
  case setPState p => exact ⟨{ s with pstate := p }, fun _ _ => rfl⟩
  case setDState d => exact ⟨{ s with dstate := d }, fun _ _ => rfl⟩
  case setCurOp o => exact ⟨{ s with curOp := o }, fun _ _ => rfl⟩
  case startPayload => exact ⟨{ s with rxIdx := 0 }, fun _ _ => rfl⟩
  case takeRequest => exact ⟨{ s with ctlReq := none }, fun _ _ => rfl⟩
  case setResult r => exact ⟨{ s with lastResult := r }, fun _ _ => rfl⟩
  case call | ret | pollHead | pollExit => exact ⟨s, fun _ _ => rfl⟩
  all_goals cases h

/-! ### What each event does there -/

section
variable {m : Micro} {s : State}

theorem Micro.exec_pause (h : m.reached s = true) (es : List EnvEvent) (q : Seq) :
    m.exec (s.placed (.pause :: es) q) = .hold (s.placed es q) := by
  obtain ⟨f, -, hf⟩ := Micro.exec_of_reached h
  rw [hf]
  rfl

/-- A quiet moment is used up, and the step does what it does with nothing scheduled. -/
theorem Micro.exec_quiet (h : m.reached s = true) :
    ∃ g : Flow, (∀ q, m.exec (s.placed [] q) = g.placed [] q) ∧
      ∀ es q, m.exec (s.placed (.quiet :: es) q) = g.placed es q := by
  obtain ⟨f, hf, hm⟩ := Micro.exec_of_reached h
  exact ⟨f s, fun q => (hm [] q).trans (hf s [] q), fun es q => (hm (.quiet :: es) q).trans (hf s es q)⟩

/-- The reset inputs and the cause each is recorded with (R209). -/
def EnvEvent.Resets (e : EnvEvent) (cause : ResetCause) : Prop :=
  e = .por ∧ cause = .por ∨ e = .wdtReset ∧ cause = .wdt ∨ e = .bothResets ∧ cause = .por

theorem State.moment_resets {e : EnvEvent} {cause : ResetCause} (he : e.Resets cause) {es : List EnvEvent}
    (hs : s.env = e :: es) : s.moment = .reset (({ s with env := es } : State).resetTo cause) := by
  obtain ⟨rfl, rfl⟩ | ⟨rfl, rfl⟩ | ⟨rfl, rfl⟩ := he <;> (unfold State.moment; rw [hs])

theorem Micro.exec_resets (h : m.reached s = true) {e : EnvEvent} {cause : ResetCause} (he : e.Resets cause)
    (es : List EnvEvent) (q : Seq) :
    m.exec (s.placed (e :: es) q) = .gone ((s.placed es q).resetTo cause) := by
  obtain ⟨f, -, hf⟩ := Micro.exec_of_reached h
  rw [hf, State.primitive, State.moment_resets he rfl]
  rfl

/-- Where a pause can stop the block, its moment comes. -/
theorem Micro.reached_of_hold {es : List EnvEvent} {t : State} (h : m.exec { s with env := es } = .hold t) :
    m.reached s = true := by
  cases hr : m.reached s with
  | true => rfl
  | false =>
    obtain ⟨u, hu⟩ := Micro.exec_of_not_reached hr
    have := (hu es s.seq).symm.trans h
    cases this

end

/-! ### The position is not read -/

/-- Another position in the state a moment leaves. -/
def Moment.reseat (m : Moment) (q : Seq) : Moment :=
  match m with
  | .pass s => .pass { s with seq := q }
  | .reset s => .reset s
  | .hold s => .hold { s with seq := q }

theorem State.moment_reseat (s : State) (q : Seq) : ({ s with seq := q } : State).moment = s.moment.reseat q := by
  have henv : ({ s with seq := q } : State).env = s.env := rfl
  by_cases he : s.env = []
  · exact (State.moment_of_quiet (henv.trans he)).trans (congrArg (Moment.reseat · q) (State.moment_of_quiet he).symm)
  · obtain ⟨e, es, he⟩ := List.exists_cons_of_ne_nil he
    unfold State.moment
    rw [henv, he]
    cases e with
    | request r =>
      cases h : s.ctlReq <;> simp only [State.request, Moment.reseat]
    | lines ls =>
      simp only [State.chatter, Moment.reseat]
      split <;> rfl
    | quiet | por | wdtReset | bothResets | pause => rfl

theorem State.primitive_reseat {f : State → Flow} (hf : Unplaced f) (s : State) (q : Seq) :
    ({ s with seq := q } : State).primitive f = (s.primitive f).reseat q := by
  simp only [State.primitive, State.moment_reseat]
  cases s.moment with
  | pass t =>
    have ht : f t = (f t).placed t.env t.seq := hf t t.env t.seq
    change f (t.placed t.env q) = (f t).reseat q
    rw [hf, ht]
    cases f t <;> rfl
  | reset t => rfl
  | hold t => rfl

theorem Micro.exec_reseat (m : Micro) (s : State) (q : Seq) :
    m.exec { s with seq := q } = (m.exec s).reseat q := by
  cases h : m.reached s with
  | false =>
    obtain ⟨t, ht⟩ := Micro.exec_of_not_reached h
    rw [show m.exec { s with seq := q } = .go (t.placed s.env q) from ht s.env q,
      show m.exec s = .go (t.placed s.env s.seq) from ht s.env s.seq]
    rfl
  | true =>
    obtain ⟨f, hf, hm⟩ := Micro.exec_of_reached h
    rw [show m.exec { s with seq := q } = State.primitive { s with seq := q } f from hm s.env q,
      show m.exec s = s.primitive f from hm s.env s.seq]
    exact State.primitive_reseat hf s q

theorem Micro.place_placed (m : Micro) (s : State) (es : List EnvEvent) (r p : Seq) :
    m.place (s.placed es r) p = m.place s p := by
  cases m <;> rfl

theorem Micro.reached_placed (m : Micro) (s : State) (es : List EnvEvent) (r : Seq) :
    m.reached (s.placed es r) = m.reached s := by
  cases m <;> rfl

/-- A run neither reads the position of the state it begins in nor keeps it. -/
theorem run_reseat (p : Seq) (ms : List Micro) (s : State) (q : Seq) : run p ms { s with seq := q } = run p ms s := by
  induction ms generalizing p s with
  | nil => rfl
  | cons m ms ih =>
    have hplace : m.place { s with seq := q } p = m.place s p := m.place_placed s s.env q p
    have hx := m.exec_reseat s q
    cases h : m.exec s with
    | go t => rw [h] at hx; rw [run_cons_go hx, run_cons_go h, hplace]; exact ih _ t
    | hold t => rw [h] at hx; rw [run_cons_hold hx, run_cons_hold h]
    | gone t => rw [h] at hx; rw [run_cons_gone hx, run_cons_gone h]
    | fault r => rw [h] at hx; simp [run, walk, hx, h, Flow.reseat]

/-! ### A sequence after a number of quiet moments -/

theorem walk_cons_done {p : Seq} {m : Micro} {ms : List Micro} {s t : State} (h : walk p (m :: ms) s = .done t) :
    ∃ u, m.exec s = .go u ∧ walk (m.place s p) ms u = .done t := by
  rw [walk] at h
  cases hx : m.exec s with
  | go u => rw [hx] at h; exact ⟨u, rfl, h⟩
  | hold u => simp [hx] at h
  | gone u => simp [hx] at h
  | fault r => simp [hx] at h

theorem walk_done_append {p : Seq} {a b : List Micro} {s t : State} (h : walk p (a ++ b) s = .done t) :
    ∃ u, walk p a s = .done u ∧ walk (placeAll a p s) b u = .done t := by
  rw [walk_append] at h
  cases hw : walk p a s with
  | done u => rw [hw] at h; exact ⟨u, rfl, h⟩
  | held q u => simp [hw] at h
  | gone u => simp [hw] at h
  | fault r => simp [hw] at h

theorem placeAll_cons_go {p : Seq} {m : Micro} {s t : State} (h : m.exec s = .go t) (ms : List Micro) :
    placeAll (m :: ms) p s = placeAll ms (m.place s p) t := by
  rw [placeAll, h]

theorem placeAll_append {a : List Micro} {p : Seq} {s t : State} (h : walk p a s = .done t) (b : List Micro) :
    placeAll (a ++ b) p s = placeAll b (placeAll a p s) t := by
  induction a generalizing p s with
  | nil => cases h; rfl
  | cons m ms ih =>
    obtain ⟨u, hx, h⟩ := walk_cons_done h
    rw [List.cons_append, placeAll_cons_go hx, placeAll_cons_go hx, ih h]

/-- Run from `p` in `s`, the sequence `a` gets to its end in `u` at the position `q`, and uses up `n` quiet moments for
it; and so it does with nothing scheduled. -/
structure GetsTo (p : Seq) (a : List Micro) (s : State) (n : Nat) (q : Seq) (u : State) : Prop where
  quiet : ∀ es r, walk p a (s.placed (List.replicate n .quiet ++ es) r) = .done (u.placed es r) ∧
    placeAll a p (s.placed (List.replicate n .quiet ++ es) r) = q
  alone : ∀ r, walk p a (s.placed [] r) = .done (u.placed [] r) ∧ placeAll a p (s.placed [] r) = q

theorem GetsTo.nil (p : Seq) (s : State) : GetsTo p [] s 0 p s := ⟨fun _ _ => ⟨rfl, rfl⟩, fun _ => ⟨rfl, rfl⟩⟩

theorem GetsTo.cons_go {p q : Seq} {m : Micro} {a : List Micro} {s t u : State} {n : Nat}
    (h : GetsTo (m.place s p) a t n q u) (k : Nat) (ha : ∀ r, m.exec (s.placed [] r) = .go (t.placed [] r))
    (hq : ∀ es r, m.exec (s.placed (List.replicate k .quiet ++ es) r) = .go (t.placed es r)) :
    GetsTo p (m :: a) s (k + n) q u := by
  refine ⟨fun es r => ?_, fun r => ?_⟩
  · rw [List.replicate_add, List.append_assoc, walk_cons_go (hq _ r), placeAll_cons_go (hq _ r), Micro.place_placed]
    exact h.quiet es r
  · rw [walk_cons_go (ha r), placeAll_cons_go (ha r), Micro.place_placed]
    exact h.alone r

/-- After any number of quiet moments a sequence stands before a primitive, or it has ended before they were used up. -/
theorem walk_gets_to_or_ends (n : Nat) (p : Seq) (ms : List Micro) (s : State) :
    (∃ a m b q u, ms = a ++ m :: b ∧ m.reached u = true ∧ GetsTo p a s n q u) ∨
      ∀ es r, (walk p ms (s.placed (List.replicate n .quiet ++ es) r)).Meets (es <:+ ·.env) (es <:+ ·.env)
        (es <:+ ·.env) True := by
  induction ms generalizing n p s with
  | nil => exact .inr fun es r => List.suffix_append _ es
  | cons m ms ih =>
    cases hr : m.reached s with
    | false =>
      obtain ⟨t, ht⟩ := Micro.exec_of_not_reached hr
      obtain ⟨a, k, b, q, u, rfl, hu, hg⟩ | hend := ih n (m.place s p) t
      · exact .inl ⟨m :: a, k, b, q, u, rfl, hu, Nat.zero_add n ▸ hg.cons_go 0 (ht []) ht⟩
      · refine .inr fun es r => ?_
        rw [walk_cons_go (ht _ r), Micro.place_placed]
        exact hend es r
    | true =>
      cases n with
      | zero => exact .inl ⟨[], m, ms, p, s, rfl, hr, .nil p s⟩
      | succ n =>
        obtain ⟨g, halone, hquiet⟩ := Micro.exec_quiet hr
        cases g with
        | go t =>
          obtain ⟨a, k, b, q, u, rfl, hu, hg⟩ | hend := ih n (m.place s p) t
          · exact .inl ⟨m :: a, k, b, q, u, rfl, hu, Nat.add_comm n 1 ▸ hg.cons_go 1 halone hquiet⟩
          · refine .inr fun es r => ?_
            rw [List.replicate_succ, List.cons_append, walk_cons_go (hquiet _ r), Micro.place_placed]
            exact hend es r
        | hold t =>
          refine .inr fun es r => ?_
          rw [List.replicate_succ, List.cons_append, walk, hquiet _ r]
          exact List.suffix_append _ es
        | gone t =>
          obtain ⟨e, es, cause, he, -⟩ := Micro.exec_gone (halone s.seq)
          cases he
        | fault r =>
          refine .inr fun es r => ?_
          rw [List.replicate_succ, List.cons_append, walk, hquiet _ r]
          trivial

end Sys2Proof.Machine
end

section
/-! A block that an earlier step left in the payload loop (R22, R172, R180). -/

namespace Sys2Proof.Machine

/-- A payload byte taken moves the position by its two primitives. -/
theorem placeAll_payloadByte {s : State} (h : s.env = []) (b : Byte) (rest : List LinkSlot)
    (hr : s.rx = .byte b :: rest) (hi : s.rxIdx < s.cfg.payloadLen) (n : Nat) :
    placeAll payloadCode (Seq.receiving n) s = Seq.receiving (n + 1) := by
  simp [payloadCode, placeAll, Micro.exec, hi, State.primitive_of_quiet, h, receivePayload, hr, Micro.place,
    Micro.counts, Seq.next, Seq.receiving]
  omega

theorem placeAll_payload {s : State} (h : s.env = []) (bs : List Byte) (rest : List LinkSlot)
    (hr : s.rx = bs.map LinkSlot.byte ++ rest) (hi : s.rxIdx + bs.length ≤ s.cfg.payloadLen) (n : Nat) :
    placeAll (List.replicate bs.length payloadCode).flatten (Seq.receiving n) s = Seq.receiving (n + bs.length) := by
  induction bs generalizing s n with
  | nil => rfl
  | cons b bs ih =>
    simp only [List.length_cons] at hi ⊢
    rw [List.replicate_succ, List.flatten_cons,
      placeAll_append (walk_payloadByte h b (bs.map LinkSlot.byte ++ rest) hr (by omega) _),
      placeAll_payloadByte h b (bs.map LinkSlot.byte ++ rest) hr (by omega) n,
      ih (by simpa [State.afterPayload] using h) (by simp [State.afterPayload])
        (by simp only [State.afterPayload, List.length_cons, List.length_nil]; omega)]
    rw [Nat.add_assoc, Nat.add_comm 1]

/-- The pass for a byte already stored is passed over. -/
theorem seek_pass {s : State} {j n : Nat} (hs : s.seq = Seq.receiving n) (hj : j < n) (rest : List Micro) :
    seek s (Seq.receiving j) (payloadCode ++ rest) = seek s (Seq.receiving (j + 1)) rest := by
  have h1 : Seq.receiving j ≠ s.seq := by simp [hs, Seq.receiving]; omega
  have h2 : (Seq.receiving j).next ≠ s.seq := by simp [hs, Seq.receiving, Seq.next]; omega
  have h3 : (Seq.receiving j).next.next = Seq.receiving (j + 1) := by simp [Seq.receiving, Seq.next]; omega
  simp [payloadCode, seek, Micro.stands, Micro.counts, Micro.place, h1, h2, h3]

theorem seek_allPasses {s : State} {j k : Nat} (hs : s.seq = Seq.receiving (j + k)) (rest : List Micro) :
    seek s (Seq.receiving j) ((List.replicate k payloadCode).flatten ++ rest) = seek s (Seq.receiving (j + k)) rest := by
  induction k generalizing j with
  | zero => rfl
  | succ k ih =>
    rw [List.replicate_succ, List.flatten_cons, List.append_assoc, seek_pass hs (by omega),
      ih (by rw [hs, Nat.add_assoc, Nat.add_comm 1]), Nat.add_assoc, Nat.add_comm 1]

/-- Send-Buffer's steps before its loop are passed over from a position in or behind the loop. -/
theorem seek_sendBuffer_open {c : Cfg} {s : State} {n : Nat} (hs : s.seq = Seq.receiving n) :
    seek s (Seq.start (.instr .sendBuffer)) (sendBufferCode c) =
      seek s (Seq.receiving 0) (receiveCode c c.payloadLen) := by
  unfold sendBufferCode ackCode receiveCode
  cases c.ackMode <;>
    simp [seek, callCode, Micro.stands, Micro.counts, Micro.place, hs, Seq.start, Seq.receiving, Seq.enter, Seq.leave,
      Seq.next, show (0 : Nat) ≠ 1 + 2 * n by omega]

/-- With the loop behind it Send-Buffer stands at its "done" point. -/
theorem sendBuffer_rest_done {c : Cfg} {s : State} (hs : s.seq = Seq.receiving c.payloadLen) :
    restFrom (.instr .sendBuffer) s (sendBufferCode c) = doneCode c ++ endCode := by
  have h0 : s.seq ≠ Seq.start (.instr .sendBuffer) := by simp [hs, Seq.receiving, Seq.start]
  rw [restFrom, if_neg h0, seek_sendBuffer_open hs, receiveCode, seek_allPasses (by rw [hs, Nat.zero_add]), Nat.zero_add]
  unfold doneCode
  cases c.ackMode <;> simp [seek, callCode, Micro.stands, Micro.counts, Micro.place, hs]

/-- A block in the payload loop goes on with the passes that are left. -/
theorem step_receiving {s : State} {n : Nat} (hc : s.cfg.wf = true) (hd : s.dstate ≠ .faulted)
    (hs : s.seq = Seq.receiving n) (hn : n < s.cfg.payloadLen) :
    step s = run (Seq.receiving n) (receiveCode s.cfg (s.cfg.payloadLen - n)) s := by
  have hop : s.seq.op = .instr .sendBuffer := by rw [hs]; rfl
  rw [step_instr hc hd hop, ← sendBuffer_rest hs hn, hs]
  rfl

/-- With the other bytes at hand the block stores them and completes the command. -/
theorem step_receiving_all {s : State} (hc : s.cfg.wf = true) (hd : s.dstate ≠ .faulted) (hq : s.env = [])
    (hs : s.seq = Seq.receiving s.rxIdx) {ps : List Byte} {rest : List LinkSlot}
    (hn : s.rxIdx + ps.length = s.cfg.payloadLen) (hr : s.rx = ps.map LinkSlot.byte ++ rest) :
    step s = .next { (s.afterPayload ps rest).acked.ended with seq := Seq.main } := by
  have hop : s.seq.op = .instr .sendBuffer := by rw [hs]; rfl
  obtain rfl | hne := eq_or_ne ps []
  · have hsame : s.afterPayload [] rest = s := by
      have : s.rx = rest := by simpa using hr
      simp [State.afterPayload, Store.writeRun, ← this]
    rw [step_instr hc hd hop, hsame]
    simp only [instrCode]
    rw [sendBuffer_rest_done (by simpa [← hn] using hs)]
    exact run_done (walk_done_end hq rfl _)
  · have hpos : 0 < ps.length := List.length_pos_of_ne_nil hne
    rw [step_receiving hc hd hs (by omega)]
    refine run_done (t := ((s.afterPayload ps rest).acked.ended)) ?_
    rw [receiveCode, show s.cfg.payloadLen - s.rxIdx = ps.length by omega,
      walk_append_done (walk_payload hq ps rest hr (by omega) _), walk_setDState,
      walk_done_end (by exact hq) (by rfl)]
    simp [State.acked, State.ended, State.said_eq]

/-- With too few bytes at hand the block stores those that came and stands in the loop again, having fed (R107, R180). -/
theorem step_receiving_short {s : State} (hc : s.cfg.wf = true) (hd : s.dstate ≠ .faulted) (hq : s.env = [])
    (hs : s.seq = Seq.receiving s.rxIdx) {ps : List Byte} {rest : List LinkSlot}
    (hn : s.rxIdx + ps.length < s.cfg.payloadLen) (hr : s.rx = ps.map LinkSlot.byte ++ rest) (hno : NoByte rest) :
    step s = .next { (s.afterPayload ps rest).linkIdle with seq := Seq.receiving (s.rxIdx + ps.length) } := by
  obtain ⟨k, hk⟩ : ∃ k, s.cfg.payloadLen - s.rxIdx = ps.length + (k + 1) :=
    ⟨s.cfg.payloadLen - s.rxIdx - ps.length - 1, by omega⟩
  have hcode : receiveCode s.cfg (s.cfg.payloadLen - s.rxIdx) = (List.replicate ps.length payloadCode).flatten ++
      .rxPayload :: .memWrite :: .bumpIdx :: receiveCode s.cfg k := by
    simp [receiveCode, hk, List.replicate_add, List.replicate_succ, payloadCode]
  rw [step_receiving hc hd hs (by omega), hcode, run, walk_append_done (walk_payload hq ps rest hr (by omega) _),
    placeAll_payload hq ps rest hr (by omega), walk_payload_stalled (by exact hq) (by exact hno) (by exact hn)]

/-- Settles O32: the passes that are left store the bytes at hand (`State.afterPayload`), and the loop is left at the
"done" point or at the `RxByte()` that finds no byte. -/
theorem interruptedPayloadIsCompleted : Obligations.InterruptedPayloadIsCompleted := by
  unfold Obligations.InterruptedPayloadIsCompleted
  refine ⟨fun s n ps rest hc hd hq hs hi hn hr => ?_, fun s n ps rest hc hd hq hs hi hn hr hno => ?_⟩ <;> subst hi
  · refine ⟨Store.writeRun s.fb s.rxIdx ps, fun i hi => ?_, fun i hi hlt => ?_, fun i hi => ?_,
      Store.wf_writeRun s.fb s.rxIdx ps, ?_⟩
    · rw [Store.read_writeRun, if_neg (by omega)]
    · rw [Store.read_writeRun, if_pos hi, List.getElem?_eq_getElem (by omega), Option.some_or]
    · rw [Store.read_writeRun, if_pos (by omega), List.getElem?_eq_none (by omega), Option.none_or]
    · rw [step_receiving_all hc hd hq hs hn hr]
      simp [State.acked, State.ended, State.said_eq, State.afterPayload, hn]
  · refine ⟨Store.writeRun s.fb s.rxIdx ps, fun i hi hlt => ?_, fun i hi => ?_,
      Store.wf_writeRun s.fb s.rxIdx ps, ?_⟩
    · rw [Store.read_writeRun, if_pos hi, List.getElem?_eq_getElem (by omega), Option.some_or]
    · rw [Store.read_writeRun]
      split
      · rw [List.getElem?_eq_none (by omega), Option.none_or]
      · rfl
    · rw [step_receiving_short hc hd hq hs hn hr hno]
      simp [State.linkIdle, State.afterPayload]

end Sys2Proof.Machine
end

section
/-! A reset takes over before any primitive of any operation (R48, R209, R230): where a step stands after a number of
quiet moments, and what a reset, due there, leaves. -/

namespace Sys2Proof.Machine

/-! ### What is kept while the block runs -/

/-- `t` comes after `s` in a run: the same configuration, the inputs only used up, the trace only grown. -/
structure State.Follows (s t : State) : Prop where
  cfg : t.cfg = s.cfg
  rx : t.rx <:+ s.rx
  busyIn : t.busyIn <:+ s.busyIn
  trace : s.trace <:+ t.trace

theorem State.Follows.trans {s t u : State} (h : s.Follows t) (k : t.Follows u) : s.Follows u :=
  ⟨k.cfg.trans h.cfg, k.rx.trans h.rx, k.busyIn.trans h.busyIn, h.trace.trans k.trace⟩

theorem State.Follows.refl (s : State) : s.Follows s :=
  ⟨rfl, List.suffix_rfl, List.suffix_rfl, List.suffix_rfl⟩

theorem walk_done_follows {p : Seq} {ms : List Micro} {s t : State} (h : walk p ms s = .done t) : s.Follows t := by
  induction ms generalizing p s with
  | nil => cases h; exact .refl _
  | cons m ms ih =>
    obtain ⟨u, hx, h⟩ := walk_cons_done h
    have hf := Micro.exec_frame hx
    exact .trans ⟨hf.cfg, hf.rx, hf.busyIn, hf.trace⟩ (ih h)

theorem GetsTo.follows {p q : Seq} {a : List Micro} {s u : State} {n : Nat} (h : GetsTo p a s n q u) :
    s.Follows u := by
  obtain ⟨hc, hr, hb, ht⟩ := walk_done_follows (h.alone s.seq).1
  exact ⟨hc, hr, hb, ht⟩

theorem run_append_done {p : Seq} {a b : List Micro} {s t : State} (h : walk p a s = .done t) :
    run p (a ++ b) s = run (placeAll a p s) b t := by
  rw [run, walk_append_done h, run]

theorem run_placed (p : Seq) (ms : List Micro) (s : State) (es : List EnvEvent) (q : Seq) :
    run p ms (s.placed es q) = run p ms { s with env := es } := run_reseat p ms { s with env := es } q

theorem GetsTo.run_quiet {p q : Seq} {a : List Micro} {s u : State} {n : Nat} (h : GetsTo p a s n q u)
    (b : List Micro) (es : List EnvEvent) (r : Seq) :
    run p (a ++ b) (s.placed (List.replicate n .quiet ++ es) r) = run q b (u.placed es r) := by
  obtain ⟨hw, hp⟩ := h.quiet es r
  rw [run_append_done hw, hp]

theorem GetsTo.run_alone {p q : Seq} {a : List Micro} {s u : State} {n : Nat} (h : GetsTo p a s n q u)
    (b : List Micro) (r : Seq) : run p (a ++ b) (s.placed [] r) = run q b (u.placed [] r) := by
  obtain ⟨hw, hp⟩ := h.alone r
  rw [run_append_done hw, hp]

/-- After any number of quiet moments a run stands before a primitive, or it has answered before they were used up. -/
theorem run_gets_to_or_ends (n : Nat) (p : Seq) (ms : List Micro) (s : State) :
    (∃ a m b q u, ms = a ++ m :: b ∧ m.reached u = true ∧ GetsTo p a s n q u) ∨
      ∀ es r t, run p ms (s.placed (List.replicate n .quiet ++ es) r) = .next t → es <:+ t.env := by
  obtain h | h := walk_gets_to_or_ends n p ms s
  · exact .inl h
  · refine .inr fun es r t ht => ?_
    obtain ⟨u, hu, rfl⟩ | ⟨u, q, hu, rfl⟩ | hu := run_meets (h es r) ht <;> exact hu

/-! ### What a step runs, whatever is scheduled (R22, R171, R206) -/

theorem seek_placed (s : State) (es : List EnvEvent) (p : Seq) (ms : List Micro) :
    seek { s with env := es } p ms = seek s p ms := by
  have hstands (m : Micro) : m.stands { s with env := es } = m.stands s := by cases m <;> rfl
  induction ms generalizing p with
  | nil => rfl
  | cons m ms ih =>
    have hplace : m.place { s with env := es } p = m.place s p := m.place_placed s es s.seq p
    simp only [seek, hstands, hplace, ih]

/-- The block waits: it is faulted, or in its forever loop. -/
def State.Waits (s : State) : Prop := s.dstate = .faulted ∨ s.seq.op = .main

/-- At a position inside an operation a step runs what is left of it. -/
theorem step_continues {s : State} (hc : s.cfg.wf = true) (hw : ¬ s.Waits) (es : List EnvEvent) :
    step { s with env := es } = run s.seq (restFrom s.seq.op s (opCode s.cfg s.seq.op)) { s with env := es } := by
  obtain ⟨hd, hm⟩ := not_or.mp hw
  rw [step_eq (s := { s with env := es }) hc, stepBuilt, if_neg hd]
  unfold continueAt
  split
  · next hop => exact absurd hop hm
  · simp only [restFrom, seek_placed]

theorem step_waits {s : State} (hc : s.cfg.wf = true) (hw : s.Waits) :
    step s = idleFaulted s ∨ s.dstate ≠ .faulted ∧ step s = processOne s := by
  by_cases hd : s.dstate = .faulted
  · exact .inl (step_faulted hc hd)
  · exact .inr ⟨hd, step_main hc hd (hw.resolve_left hd)⟩

/-- A block that waits ends its step at a pause and takes a reset at once. -/
theorem step_waits_hold {s t : State} (hc : s.cfg.wf = true) (hw : s.Waits)
    (hm : s.moment = .hold t ∨ s.moment = .reset t) : step s = .next t := by
  obtain h | ⟨-, h⟩ := step_waits hc hw <;> obtain hm | hm := hm <;> simp only [h, idleFaulted, processOne, hm]

theorem nextInput_placed (s : State) (es : List EnvEvent) :
    nextInput { s with env := es } = ((nextInput s).1, { (nextInput s).2 with env := es }) := by
  have hchoice : ({ s with env := es } : State).afterChoice = { s.afterChoice with env := es } := by
    cases h : s.firstIn <;> simp only [State.afterChoice, h]
  unfold nextInput
  rw [hchoice]
  split <;> simp_all
  rfl

theorem State.afterChoice_follows (s : State) : s.Follows s.afterChoice := by
  unfold State.afterChoice
  split <;> exact ⟨rfl, List.suffix_rfl, List.suffix_rfl, List.suffix_rfl⟩

theorem nextInput_follows (s : State) : s.Follows (nextInput s).2 ∧ (nextInput s).2.dstate = s.dstate := by
  obtain h | h := nextInput_state s <;> rw [h]
  · exact ⟨.refl s, rfl⟩
  · exact ⟨s.afterChoice_follows, s.afterChoice_dstate⟩

theorem nextInput_byte {s : State} {b : Byte} {rest : List LinkSlot} (h : (nextInput s).1 = .byte b rest) :
    s.rx = .byte b :: rest := by
  unfold nextInput at h
  split at h
  · cases h; assumption
  · cases h
  · split at h
    · cases h
    · cases h; assumption
  · cases h

theorem State.Follows.receive {s u : State} (h : s.Follows u) {b : Byte} {rest : List LinkSlot}
    (hr : s.rx = .byte b :: rest) : s.Follows (u.receive b rest) :=
  ⟨h.cfg, hr ▸ List.suffix_cons _ _, h.busyIn, h.trace.trans (List.suffix_cons _ _)⟩

/-- What the forever loop does with the input it takes (R171). -/
def takeInput : Input × State → Host.Outcome State Fault Refusal
  | (.control q, u) => exec (decodeControl q) u
  | (.byte b rest, u) => exec (decodeHost u.cfg b) (u.receive b rest)
  | (.nothing, u) => .next u.linkIdle

theorem processOne_of_pass {s t : State} (h : s.moment = .pass t) : processOne s = takeInput (nextInput t) := by
  unfold processOne
  rw [h]
  rfl

/-- The forever loop runs an instruction or feeds, and does with a quiet moment what it does with none scheduled. -/
theorem takeInput_placed (s : State) :
    (∃ i u, s.Follows u ∧ u.dstate = s.dstate ∧
      ∀ es, takeInput (nextInput { s with env := es }) = exec i { u with env := es }) ∨
    ∃ u : State, ∀ es, takeInput (nextInput { s with env := es }) = .next ({ u with env := es } : State) := by
  obtain ⟨hf, hd⟩ := nextInput_follows s
  simp only [nextInput_placed]
  cases hi : (nextInput s).1 with
  | control q => exact .inl ⟨_, _, hf, hd, fun _ => rfl⟩
  | byte b rest => exact .inl ⟨decodeHost (nextInput s).2.cfg b, _, hf.receive (nextInput_byte hi), hd, fun _ => rfl⟩
  | nothing => exact .inr ⟨(nextInput s).2.linkIdle, fun _ => rfl⟩

/-- A step of a block that waits, with a quiet moment: it runs an instruction, as it does with nothing scheduled, or
ends at once. -/
theorem step_waits_quiet {s : State} (hc : s.cfg.wf = true) (hw : s.Waits) :
    (s.dstate ≠ .faulted ∧ ∃ i u, s.Follows u ∧ u.dstate = s.dstate ∧
      step { s with env := [] } = exec i { u with env := [] } ∧
      ∀ es, step { s with env := .quiet :: es } = exec i { u with env := es }) ∨
    ∃ u : State, ∀ es, step { s with env := .quiet :: es } = .next ({ u with env := es } : State) := by
  by_cases hd : s.dstate = .faulted
  · refine .inr ⟨s, fun es => ?_⟩
    rw [step_faulted (s := { s with env := .quiet :: es }) hc hd]
    rfl
  · have hmain (es : List EnvEvent) : step { s with env := es } = processOne { s with env := es } :=
      step_main (s := { s with env := es }) hc hd (hw.resolve_left hd)
    have hnone : step { s with env := [] } = takeInput (nextInput { s with env := [] }) :=
      (hmain []).trans (processOne_of_pass (State.moment_of_quiet rfl))
    have hquiet (es : List EnvEvent) : step { s with env := .quiet :: es } = takeInput (nextInput { s with env := es }) :=
      (hmain _).trans (processOne_of_pass rfl)
    simp only [hnone, hquiet]
    obtain ⟨i, u, hf, hu, h⟩ | ⟨u, h⟩ := takeInput_placed s
    · exact .inl ⟨hd, i, u, hf, hu, h [], h⟩
    · exact .inr ⟨u, h⟩

/-- The step of a block in `s` is, after `k` quiet moments, a run of `ms` from `p` in `s₀`; and so it is with nothing
scheduled. -/
structure Begins (s : State) (k : Nat) (p : Seq) (ms : List Micro) (s₀ : State) : Prop where
  follows : s.Follows s₀
  quiet : ∀ es, step { s with env := List.replicate k .quiet ++ es } = run p ms { s₀ with env := es }
  alone : step { s with env := [] } = run p ms { s₀ with env := [] }
  /-- A step that begins an operation, or takes an input, runs one from its first step on. -/
  first : s.seq = Seq.start s.seq.op ∨ s.seq.op = .main →
    ∃ op, p = Seq.start op ∧ ms = opCode s₀.cfg op ∧ s₀.dstate ≠ .faulted

/-- Every step begins a run, or waits and ends with its first quiet moment. -/
theorem step_begins {s : State} (hc : s.cfg.wf = true) :
    (¬ s.Waits ∧ ∃ p ms, Begins s 0 p ms s) ∨
    (s.Waits ∧ ((∃ p ms s₀, Begins s 1 p ms s₀) ∨
      ∃ u : State, ∀ es, step { s with env := .quiet :: es } = .next ({ u with env := es } : State))) := by
  by_cases hw : s.Waits
  · refine .inr ⟨hw, ?_⟩
    obtain ⟨hd, i, u, hf, hu, hn, hq⟩ | h := step_waits_quiet hc hw
    · exact .inl ⟨_, _, u, hf, fun es => (hq es).trans (exec_eq i _), hn.trans (exec_eq i _),
        fun _ => ⟨.instr i, rfl, rfl, hu ▸ hd⟩⟩
    · exact .inr h
  · refine .inl ⟨hw, _, _, .refl s, step_continues hc hw, step_continues hc hw [], fun hs => ⟨s.seq.op, ?_⟩⟩
    obtain ⟨hd, hm⟩ := not_or.mp hw
    have h := hs.resolve_right hm
    exact ⟨h, if_pos h, hd⟩

/-- After any number of quiet moments a step stands before a primitive, or still waits, or has ended before they were
used up. -/
theorem step_gets_to_or_ends {s : State} (hc : s.cfg.wf = true) (n : Nat) :
    (∃ p a m b s₀ k j q u, Begins s k p (a ++ m :: b) s₀ ∧ k + j = n ∧ GetsTo p a s₀ j q u ∧ m.reached u = true) ∨
    (n = 0 ∧ s.Waits) ∨
    ∀ es t, step { s with env := List.replicate n .quiet ++ es } = .next t → es <:+ t.env := by
  have gets {k j : Nat} {p : Seq} {ms : List Micro} {s₀ : State} (hb : Begins s k p ms s₀) (hn : k + j = n) :
      (∃ p a m b s₀ k j q u, Begins s k p (a ++ m :: b) s₀ ∧ k + j = n ∧ GetsTo p a s₀ j q u ∧ m.reached u = true) ∨
        ∀ es t, step { s with env := List.replicate n .quiet ++ es } = .next t → es <:+ t.env := by
    obtain ⟨a, m, b, q, u, rfl, hm, hg⟩ | hend := run_gets_to_or_ends j p ms s₀
    · exact .inl ⟨p, a, m, b, s₀, k, j, q, u, hb, hn, hg, hm⟩
    · refine .inr fun es t ht => hend es s₀.seq t ?_
      rw [← ht, ← hn, List.replicate_add, List.append_assoc, hb.quiet]
      rfl
  obtain ⟨-, p, ms, hb⟩ | ⟨hw, h⟩ := step_begins hc
  · exact (gets hb (Nat.zero_add n)).imp_right .inr
  · cases n with
    | zero => exact .inr (.inl ⟨rfl, hw⟩)
    | succ n =>
      obtain ⟨p, ms, s₀, hb⟩ | ⟨u, hu⟩ := h
      · exact (gets hb (Nat.add_comm 1 n)).imp_right .inr
      · refine .inr (.inr fun es t ht => ?_)
        rw [List.replicate_succ, List.cons_append, hu] at ht
        cases ht
        exact List.suffix_append _ es

section
variable {s u : State} {p q : Seq} {a b : List Micro} {m : Micro} {s₀ : State} {k j : Nat}

/-- Where a step stands after `k + j` quiet moments, it runs on as the environment then has it. -/
theorem Begins.step_quiet (hb : Begins s k p (a ++ m :: b) s₀) (hg : GetsTo p a s₀ j q u) (es : List EnvEvent) :
    step { s with env := List.replicate (k + j) .quiet ++ es } = run q (m :: b) { u with env := es } := by
  rw [List.replicate_add, List.append_assoc, hb.quiet]
  exact (run_placed _ _ s₀ _ s₀.seq).symm.trans ((hg.run_quiet (m :: b) es s₀.seq).trans (run_placed q _ u es _))

theorem Begins.step_alone (hb : Begins s k p (a ++ m :: b) s₀) (hg : GetsTo p a s₀ j q u) :
    step { s with env := [] } = run q (m :: b) { u with env := [] } :=
  hb.alone.trans ((hg.run_alone (m :: b) s₀.seq).trans (run_placed q _ u [] _))

theorem Begins.step_pause (hb : Begins s k p (a ++ m :: b) s₀) (hg : GetsTo p a s₀ j q u) (hm : m.reached u = true) :
    step { s with env := List.replicate (k + j) .quiet ++ [.pause] } = .next { u with env := [], seq := q } := by
  exact (hb.step_quiet hg [.pause]).trans (run_cons_hold (m.exec_pause hm [] u.seq))

end

/-- Settles O55: where the quiet moments end the step stands before a primitive, or still waits. -/
theorem resetTakesOverAnywhere : Obligations.ResetTakesOverAnywhere := by
  unfold Obligations.ResetTakesOverAnywhere
  intro s u n e es cause hc he henv hu hue
  have hstep : step s = step { s with env := List.replicate n .quiet ++ e :: es } := by rw [← henv]
  rw [hstep]
  obtain ⟨p, a, m, b, s₀, k, j, q, w, hb, rfl, hg, hm⟩ | ⟨rfl, hw⟩ | hend := step_gets_to_or_ends hc n
  · obtain ⟨hcfg, hrx, hbusy, htrace⟩ := hb.follows.trans hg.follows
    refine ⟨{ w with env := [], seq := q }, hb.step_pause hg hm, rfl, hcfg, hrx, hbusy, htrace, ?_⟩
    exact (hb.step_quiet hg (e :: es)).trans (run_cons_gone (m.exec_resets hm he es w.seq))
  · exact ⟨{ s with env := [] }, step_waits_hold hc hw (.inl rfl), rfl, rfl, List.suffix_rfl, List.suffix_rfl,
      List.suffix_rfl, step_waits_hold hc hw (.inr (State.moment_resets he rfl))⟩
  · have hlast : [EnvEvent.quiet] <:+ u.env := hend [.quiet] u (by rw [← hu, List.replicate_succ'])
    rw [hue, List.suffix_nil] at hlast
    cases hlast

end Sys2Proof.Machine
end

section
/-! How the sequence position moves (R22): with each primitive that completes, through a call, and through the poll
loop. -/

namespace Sys2Proof.Machine

/-! ### The innermost step -/

@[simp] theorem Seq.at_at (p : Seq) (j k : Nat) : (p.at j).at k = p.at k := by
  obtain ⟨op, n, fs⟩ := p
  cases fs <;> rfl

@[simp] theorem Seq.next_at (p : Seq) (k : Nat) : (p.at k).next = p.at (k + 1) := by
  obtain ⟨op, n, fs⟩ := p
  cases fs <;> rfl

theorem Seq.exists_eq_at (p : Seq) : ∃ k, p = p.at k := by
  obtain ⟨op, n, fs⟩ := p
  cases fs with
  | nil => exact ⟨n, rfl⟩
  | cons f fs => exact ⟨f.step, rfl⟩

theorem Seq.exists_next_eq_at (p : Seq) : ∃ k, p.next = p.at k := by
  obtain ⟨k, hk⟩ := p.exists_eq_at
  exact ⟨k + 1, by rw [hk]; simp⟩

/-- A call returns to the step after it, wherever the callee has got to. -/
theorem Seq.leave_at_enter (p : Seq) (op : Operation) (k : Nat) : ((p.enter op).at k).leave = p.next := rfl

/-! ### One elementary step -/

theorem Micro.go_of_not_counts {m : Micro} {s t : State} (hc : m.counts s = false) (h : m.exec s = .go t) :
    t.env = s.env ∧ t.trace = s.trace ∧ t.diagCalls = s.diagCalls := by
  have same {c : Prop} [Decidable c] {f : State → Flow} (hn : ¬ c)
      (h : (if c then s.primitive f else .go s) = .go t) :
      t.env = s.env ∧ t.trace = s.trace ∧ t.diagCalls = s.diagCalls := by
    rw [if_neg hn] at h
    cases h
    exact ⟨rfl, rfl, rfl⟩
  cases m
  case pollFeed | pollSample => exact same (by simp_all [Micro.counts, State.polling]) h
  case pollDiag | pollDelay => exact same (Bool.eq_false_iff.mp hc) h
  case diagShape => exact same (beq_eq_false_iff_ne.mp hc) h
  case enter op =>
    simp only [Micro.exec] at h
    split at h
    · cases h
      exact ⟨rfl, rfl, rfl⟩
    · obtain ⟨es, ds, q, -, h⟩ := State.primitive_go h
      cases h
  case bumpIdx =>
    simp only [Micro.exec] at h
    split at h <;> (cases h; exact ⟨rfl, rfl, rfl⟩)
  case openSession | closeSession | setPState | setDState | setCurOp | startPayload | takeRequest | setResult | ret |
      pollHead | pollExit =>
    cases h
    exact ⟨rfl, rfl, rfl⟩
  all_goals cases hc

/-- A primitive that counts, inside its loop, is one the environment's moment comes before. -/
theorem Micro.reached_of_counts {m : Micro} {s : State} (hc : m.counts s = true) (hcall : ∀ op, m ≠ .call op)
    (hrx : m = .rxPayload ∨ m = .memWrite → s.rxIdx < s.cfg.payloadLen)
    (hpoll : m = .pollFeed ∨ m = .pollSample → s.polls < s.cfg.busyMaxPolls) : m.reached s = true := by
  cases m
  case call op => exact absurd rfl (hcall op)
  case enter op => cases hc
  case rxPayload | memWrite => exact decide_eq_true (hrx (by simp))
  case pollFeed | pollSample => exact Bool.and_eq_true_iff.mpr ⟨hc, decide_eq_true (hpoll (by simp))⟩
  all_goals exact hc

theorem Micro.place_of_counts {m : Micro} {s : State} (hc : m.counts s = true) (hcall : ∀ op, m ≠ .call op) (p : Seq) :
    m.place s p = p.next := by
  obtain ⟨op, rfl, -⟩ | ⟨rfl, -⟩ | ⟨rfl | rfl, -⟩ | ⟨-, h⟩ | ⟨h, -⟩ := m.place_cases s p
  · exact absurd rfl (hcall op)
  · cases hc
  · cases hc
  · cases hc
  · exact h
  · simp [h] at hc

theorem Micro.place_of_not_counts {m : Micro} {s : State} (hc : m.counts s = false) (hret : m ≠ .ret)
    (hhead : m ≠ .pollHead) (hexit : m ≠ .pollExit) (p : Seq) : m.place s p = p := by
  obtain ⟨op, rfl, -⟩ | ⟨h, -⟩ | ⟨h | h, -⟩ | ⟨h, -⟩ | ⟨-, -, h⟩ := m.place_cases s p
  · cases hc
  · exact absurd h hret
  · exact absurd h hhead
  · exact absurd h hexit
  · simp [h] at hc
  · exact h

/-- A primitive that counts uses up one quiet moment. -/
theorem Micro.env_of_counts {m : Micro} {s t : State} {es : List EnvEvent} (hr : m.reached s = true)
    (he : s.env = .quiet :: es) (h : m.exec s = .go t) : t.env = es := by
  obtain ⟨g, -, hg⟩ := Micro.exec_quiet hr
  have hs : s = s.placed (.quiet :: es) s.seq := by rw [← he]; rfl
  have hgo := (hg es s.seq).symm.trans (hs ▸ h)
  cases g with
  | go u => cases hgo; rfl
  | hold u => cases hgo
  | gone u => cases hgo
  | fault r => cases hgo

/-! ### A call -/

/-- A sequence in which every call returns: it moves the step of the operation it stands in, and no caller's. -/
inductive Nested : List Micro → Prop where
  | nil : Nested []
  | flat {m : Micro} {ms : List Micro} : (∀ op, m ≠ .call op) → m ≠ .ret → Nested ms → Nested (m :: ms)
  | call {op : Operation} {body ms : List Micro} : Nested body → Nested ms → Nested (callCode op body ++ ms)

theorem Micro.place_flat {m : Micro} (hcall : ∀ op, m ≠ .call op) (hret : m ≠ .ret) (s : State) (p : Seq) :
    ∃ k, m.place s p = p.at k := by
  obtain ⟨op, h, -⟩ | ⟨h, -⟩ | ⟨-, k, -, h⟩ | ⟨-, h⟩ | ⟨-, -, h⟩ := m.place_cases s p
  · exact absurd h (hcall op)
  · exact absurd h hret
  · exact ⟨k, h⟩
  · rw [h]
    exact p.exists_next_eq_at
  · rw [h]
    exact p.exists_eq_at

/-- A called sequence that leaves its caller's step as it is takes its caller to the step after the call. -/
theorem placeAll_callCode {body : List Micro} {p : Seq} {op : Operation} {s t : State}
    (hb : ∀ {u}, walk (p.enter op) body s = .done u → ∃ k, placeAll body (p.enter op) s = (p.enter op).at k)
    (h : walk p (callCode op body) s = .done t) : placeAll (callCode op body) p s = p.next := by
  obtain ⟨u, hu, -⟩ := walk_done_append (a := .call op :: body) h
  obtain ⟨k, hk⟩ := hb hu
  calc placeAll (callCode op body) p s
      = placeAll [.ret] (placeAll (.call op :: body) p s) u := placeAll_append hu [.ret]
    _ = placeAll [.ret] ((p.enter op).at k) u := by rw [← hk]; rfl
    _ = p.next := Seq.leave_at_enter p op k

theorem placeAll_nested {ms : List Micro} (hn : Nested ms) {p : Seq} {s t : State} (h : walk p ms s = .done t) :
    ∃ k, placeAll ms p s = p.at k := by
  induction hn generalizing p s t with
  | nil => exact p.exists_eq_at
  | @flat m ms hcall hret _ ih =>
    obtain ⟨u, hx, h⟩ := walk_cons_done h
    obtain ⟨j, hj⟩ := Micro.place_flat hcall hret s p
    obtain ⟨k, hk⟩ := ih h
    exact ⟨k, by rw [placeAll_cons_go hx, hk, hj, Seq.at_at]⟩
  | call _ _ ihb ihm =>
    obtain ⟨u, hu, h⟩ := walk_done_append h
    have hnext := placeAll_callCode ihb hu
    obtain ⟨j, hj⟩ := p.exists_next_eq_at
    obtain ⟨k, hk⟩ := ihm h
    exact ⟨k, by rw [placeAll_append hu, hk, hnext, hj, Seq.at_at]⟩

/-- A call of a sequence in which every call returns takes its caller to the step after the call. -/
theorem Nested.returns {body : List Micro} (hb : Nested body) {op : Operation} {p : Seq} {s t : State}
    (h : walk p (callCode op body) s = .done t) (rest : List Micro) :
    walk p (callCode op body ++ rest) s = walk p.next rest t := by
  rw [walk_append_done h, placeAll_callCode (placeAll_nested hb) h]

/-! ### Every sequence returns from its calls -/

theorem Nested.append {a b : List Micro} (ha : Nested a) (hb : Nested b) : Nested (a ++ b) := by
  induction ha with
  | nil => exact hb
  | flat hcall hret _ ih => exact .flat hcall hret ih
  | call hbody _ _ ih => rw [List.append_assoc]; exact .call hbody ih

theorem Nested.called {body : List Micro} (hb : Nested body) (op : Operation) : Nested (callCode op body) := by
  rw [← List.append_nil (callCode op body)]
  exact .call hb .nil

/-- No mark of a call or of a return. -/
def Micro.isFlat : Micro → Bool
  | .call _ => false
  | .ret => false
  | _ => true

theorem Nested.cons {m : Micro} {ms : List Micro} (hm : m.isFlat = true) (h : Nested ms) : Nested (m :: ms) :=
  .flat (fun op ho => by rw [ho] at hm; cases hm) (fun ho => by rw [ho] at hm; cases hm) h

theorem Nested.of_flat {ms : List Micro} (h : ms.all Micro.isFlat = true) : Nested ms := by
  induction ms with
  | nil => exact .nil
  | cons m ms ih =>
    obtain ⟨hm, h⟩ := Bool.and_eq_true_iff.mp h
    exact .cons hm (ih h)

theorem Nested.flatMap {α : Type} {f : α → List Micro} (hf : ∀ x, Nested (f x)) (l : List α) : Nested (l.flatMap f) := by
  induction l with
  | nil => exact .nil
  | cons x l ih => rw [List.flatMap_cons]; exact (hf x).append ih

theorem Nested.passes {ms : List Micro} (hm : Nested ms) (k : Nat) : Nested (List.replicate k ms).flatten := by
  induction k with
  | zero => exact .nil
  | succ k ih => rw [List.replicate_succ, List.flatten_cons]; exact hm.append ih

theorem nested_cmdCode (b : Byte) : Nested (cmdCode b) := .of_flat rfl

theorem nested_dataCode (b : Byte) : Nested (dataCode b) := .of_flat rfl

theorem nested_sendCode (command : Byte) (ds : List Byte) : Nested (sendCode command ds) :=
  ((nested_cmdCode command).called _).append (.flatMap (fun b => (nested_dataCode b).called _) ds)

theorem nested_waitCode (ms : Nat) : Nested (waitCode ms) := .called (.of_flat rfl) _

section
variable (c : Cfg)

/-- The sequence of the reset pulse, between its call and its return. -/
theorem nested_pulseBody : Nested (.setLine .rst 1 :: waitCode c.rstHighMs ++ .setLine .rst 0 :: waitCode c.rstLowMs
    ++ .setLine .rst 1 :: waitCode c.rstSettleMs) :=
  ((Nested.cons rfl (nested_waitCode _)).append (.cons rfl (nested_waitCode _))).append
    (.cons rfl (nested_waitCode _))

theorem nested_pulseCode : Nested (pulseCode c) := (nested_pulseBody c).called _

theorem nested_planeCode (p : Plane) (src : PlaneSrc) : Nested (planeCode c p src) := by
  cases src with
  | const b => exact nested_sendCode _ _
  | store => exact ((nested_cmdCode _).called _).append (.flatMap (fun i => .cons rfl (.called (.of_flat rfl) _)) _)

theorem nested_busyWaitCode : Nested (busyWaitCode c) :=
  ((Nested.cons rfl ((nested_cmdCode _).called _)).append
    (.cons rfl (.passes (.of_flat rfl) _))).append (.cons rfl (.cons rfl (nested_waitCode _)))

theorem nested_refreshCode : Nested (refreshCode c) :=
  ((Nested.cons rfl ((nested_cmdCode _).called _)).append (.cons rfl ((nested_busyWaitCode c).called _))).append
    (.of_flat rfl)

theorem nested_initWaitCode : Nested (initWaitCode c) := by
  unfold initWaitCode
  split
  · exact (nested_busyWaitCode c).called _
  · exact .nil

theorem nested_initPanelCode : Nested (initPanelCode c) :=
  (((((((Nested.cons rfl (.cons rfl (nested_pulseCode c))).append ((nested_sendCode _ _).called _)).append
    ((nested_sendCode _ _).called _)).append (nested_initWaitCode c)).append ((nested_sendCode _ _).called _)).append
    ((nested_sendCode _ _).called _)).append ((nested_sendCode _ _).called _)).append (.of_flat rfl)

theorem nested_clearCode : Nested (clearCode c) :=
  ((Nested.cons rfl (.cons rfl ((nested_planeCode c _ _).called _))).append ((nested_planeCode c _ _).called _)).append
    ((nested_refreshCode c).called _)

theorem nested_displayCode : Nested (displayCode c) := by
  refine .cons rfl ?_
  split
  · exact ((Nested.cons rfl (.cons rfl ((nested_planeCode c _ _).called _))).append
      ((nested_planeCode c _ _).called _)).append ((nested_refreshCode c).called _)
  · exact .of_flat rfl

theorem nested_sleepCode : Nested (sleepCode c) :=
  ((((Nested.cons rfl ((nested_sendCode _ _).called _)).append ((nested_cmdCode _).called _)).append
    (.cons rfl ((nested_busyWaitCode c).called _))).append ((nested_sendCode _ _).called _)).append (.of_flat rfl)

theorem nested_ackCode : Nested (ackCode c) := by
  unfold ackCode
  split <;> exact .of_flat rfl

theorem nested_doneCode : Nested (doneCode c) := by
  unfold doneCode
  split
  · exact (nested_ackCode c).called _
  · exact .of_flat rfl

theorem nested_endCode : Nested endCode := .of_flat rfl

theorem nested_sendBufferCode : Nested (sendBufferCode c) :=
  (((Nested.cons rfl ((nested_ackCode c).called _)).append
    (.cons rfl (.cons rfl (.passes (.of_flat rfl) _)))).append (.cons rfl (nested_doneCode c))).append nested_endCode

theorem nested_writeScreenCode : Nested (writeScreenCode c) :=
  (((Nested.cons rfl (.cons rfl ((nested_ackCode c).called _))).append ((nested_displayCode c).called _)).append
    (.cons rfl (nested_doneCode c))).append nested_endCode

theorem nested_clearScreenCode : Nested (clearScreenCode c) :=
  (((Nested.cons rfl (.cons rfl ((nested_ackCode c).called _))).append ((nested_clearCode c).called _)).append
    (nested_doneCode c)).append nested_endCode

theorem nested_instrCode (i : Instr) : Nested (instrCode c i) := by
  cases i with
  | sendBuffer => exact nested_sendBufferCode c
  | writeScreen => exact nested_writeScreenCode c
  | clearScreen => exact nested_clearScreenCode c
  | unknown op => exact .of_flat rfl
  | ack => exact nested_ackCode c
  | ctlInit => exact (Nested.cons rfl (.cons rfl (.cons rfl ((nested_initPanelCode c).called _)))).append nested_endCode
  | ctlSleep => exact (Nested.cons rfl (.cons rfl (.cons rfl ((nested_sleepCode c).called _)))).append nested_endCode
  | btst | pon | psr | cdi | tres | dslp => exact nested_sendCode _ _
  | drf | flg | pof => exact nested_cmdCode _
  | dtm1 src => exact nested_planeCode c .black src
  | dtm2 src => exact nested_planeCode c .red src
  | data b => exact nested_dataCode b
  | initPanel => exact nested_initPanelCode c
  | clear => exact nested_clearCode c
  | display => exact nested_displayCode c
  | refresh => exact nested_refreshCode c
  | sleep => exact nested_sleepCode c
  | busyWait => exact nested_busyWaitCode c

end

/-! ### The poll loop -/

theorem placeAll_pass_closed {s : State} (hb : s.bwActive = false) (p : Seq) : placeAll pollCode p s = p := by
  simp [pollCode, placeAll, Micro.exec, Micro.place, Micro.counts, State.polling, State.atCeiling, hb]

theorem placeAll_polls_closed {s : State} (hb : s.bwActive = false) (p : Seq) (k : Nat) :
    placeAll (List.replicate k pollCode).flatten p s = p := by
  induction k with
  | zero => rfl
  | succ k ih =>
    have hw : walk p pollCode s = .done s := by simpa using walk_polls_closed hb p 1
    rw [List.replicate_succ, List.flatten_cons, placeAll_append hw, placeAll_pass_closed hb, ih]

theorem placeAll_poll_ready {s : State} (h : s.env = []) (hb : s.bwActive = true)
    (hv : s.nextBusy ≠ s.cfg.busyActive) (hp : s.polls < s.cfg.busyMaxPolls) (p : Seq) :
    placeAll pollCode p s = p.at 3 := by
  have hn : s.feedWatchdog.nextBusy = s.nextBusy := rfl
  simp [pollCode, placeAll, Micro.exec, State.primitive_of_quiet, h, hb, State.polling, State.atCeiling, hp, State.poll,
    State.sampleBusy_eq, hn, hv, State.readyExit, Micro.place, Micro.counts]

theorem placeAll_poll_late {s : State} (h : s.env = []) (hb : s.bwActive = true)
    (hv : s.nextBusy = s.cfg.busyActive) (hp : s.polls + 1 = s.cfg.busyMaxPolls) (p : Seq) :
    placeAll pollCode p s = p.at 4 := by
  have hn : s.feedWatchdog.nextBusy = s.nextBusy := rfl
  have h1 : s.polls < s.cfg.busyMaxPolls := by omega
  simp [pollCode, placeAll, Micro.exec, State.primitive_of_quiet, h, hb, State.polling, State.atCeiling, h1, State.poll,
    State.sampleBusy_eq, hn, hv, hp, State.ceilingExit, State.diagnose, Micro.place, Micro.counts]

/-- The loop is left at the step that its last primitive leads to: the third, or past the `Diag` the fourth. -/
theorem placeAll_polls {s : State} (h : s.env = []) (hb : s.bwActive = true) {k m : Nat} {late : Bool}
    (hk : 1 ≤ k) (hm : k ≤ m) (hp : s.polls + k ≤ s.cfg.busyMaxPolls)
    (hon : ∀ j, j < k - 1 → s.sampleAt j = s.cfg.busyActive)
    (hend : if late then s.polls + k = s.cfg.busyMaxPolls ∧ s.sampleAt (k - 1) = s.cfg.busyActive
      else s.sampleAt (k - 1) ≠ s.cfg.busyActive) (p : Seq) :
    placeAll (List.replicate m pollCode).flatten p s = p.at (if late then 4 else 3) := by
  induction k generalizing s p m with
  | zero => omega
  | succ k ih =>
    obtain ⟨m, rfl⟩ : ∃ l, m = l + 1 := ⟨m - 1, by omega⟩
    rw [List.replicate_succ, List.flatten_cons]
    obtain rfl | hk0 := Nat.eq_zero_or_pos k
    · simp only [Nat.zero_add, Nat.sub_self, State.sampleAt_zero] at hend
      cases late with
      | false =>
        have hv : s.nextBusy ≠ s.cfg.busyActive := by simpa using hend
        rw [placeAll_append (walk_poll_ready h hb hv (by omega) p), placeAll_polls_closed rfl,
          placeAll_poll_ready h hb hv (by omega)]
        rfl
      | true =>
        have hv : s.polls + 1 = s.cfg.busyMaxPolls ∧ s.nextBusy = s.cfg.busyActive := by simpa using hend
        rw [placeAll_append (walk_poll_late h hb hv.2 hv.1 p), placeAll_polls_closed rfl,
          placeAll_poll_late h hb hv.2 hv.1]
        rfl
    · have hv : s.nextBusy = s.cfg.busyActive := s.sampleAt_zero ▸ hon 0 (by omega)
      have hs (j : Nat) : s.polledOn.sampleAt j = s.sampleAt (j + 1) := State.sampleAt_succ s _ j rfl rfl
      obtain ⟨j, hj⟩ := placeAll_nested (.of_flat rfl) (walk_poll_on h hb hv (by omega) p)
      rw [placeAll_append (walk_poll_on h hb hv (by omega) p), hj,
        ih (s := s.polledOn) h hb hk0 (by omega) (by simp only [State.polledOn]; omega)
          (fun i hi => by rw [hs]; exact hon (i + 1) (by omega)) ?_, Seq.at_at]
      rw [hs, show k - 1 + 1 = k by omega]
      simpa [State.polledOn, Nat.add_assoc, Nat.add_comm 1] using hend

/-- Settles O11: by the kind of the elementary step; a call by the nesting of the sequence called. -/
theorem positionAdvancesAndNests : Obligations.PositionAdvancesAndNests := by
  unfold Obligations.PositionAdvancesAndNests
  refine ⟨fun m s t p hc hret hhead hexit h => ⟨Micro.place_of_not_counts hc hret hhead hexit p,
      Micro.go_of_not_counts hc h⟩,
    fun m s t p es hc hcall hrx hpoll he h => ⟨Micro.place_of_counts hc hcall p,
      Micro.env_of_counts (Micro.reached_of_counts hc hcall hrx hpoll) he h⟩,
    fun _ _ _ => rfl, fun c i b ms code rest p s t hcode h => ?_, fun s p k late hq hb hz he => ?_⟩
  · obtain rfl | rfl | rfl | rfl | rfl := hcode
    · exact (nested_instrCode c i).returns h rest
    · exact (nested_cmdCode b).returns h rest
    · exact (nested_dataCode b).returns h rest
    · exact Nested.returns (.of_flat rfl) h rest
    · exact Nested.returns (nested_pulseBody c) h rest
  · obtain ⟨hk, hmax, hon, hend⟩ := he
    exact placeAll_polls hq hb hk hmax (by omega) hon (by simpa [hz] using hend) p

end Sys2Proof.Machine
end

section
/-! Seeking a position again (R22): positions only grow along a sequence without a loop, so `seek` passes over what lies
behind the position and stops at the elementary step the block stands before. -/

namespace Sys2Proof.Machine

/-! ### The order of positions -/

/-- The steps of a position, the outermost first: positions are compared as these lists are, lexicographically. -/
def Seq.path (p : Seq) : List Nat := p.step :: (p.calls.map Frame.step).reverse

theorem Seq.exists_path_at (p : Seq) : ∃ l, ∀ k, (p.at k).path = l ++ [k] := by
  obtain ⟨op, n, fs⟩ := p
  cases fs with
  | nil => exact ⟨[], fun _ => rfl⟩
  | cons f fs => exact ⟨n :: (fs.map Frame.step).reverse, fun _ => by simp [Seq.path, Seq.at]⟩

theorem Seq.path_enter (p : Seq) (op : Operation) : (p.enter op).path = p.path ++ [0] := by
  simp [Seq.path, Seq.enter]

theorem Seq.path_at_lt (p : Seq) {j k : Nat} (h : j < k) : (p.at j).path < (p.at k).path := by
  obtain ⟨l, hl⟩ := p.exists_path_at
  rw [hl, hl]
  exact List.append_left_lt (List.cons_lt_cons_iff.mpr (.inl h))

theorem Seq.path_at_le (p : Seq) {j k : Nat} (h : j ≤ k) : (p.at j).path ≤ (p.at k).path := by
  obtain rfl | h := Nat.eq_or_lt_of_le h
  · exact le_rfl
  · exact (p.path_at_lt h).le

theorem Seq.at_inj (p : Seq) {j k : Nat} : p.at j = p.at k ↔ j = k := by
  refine ⟨fun h => ?_, congrArg _⟩
  obtain ⟨l, hl⟩ := p.exists_path_at
  simpa [hl] using congrArg Seq.path h

theorem Seq.path_lt_next (p : Seq) : p.path < p.next.path := by
  obtain ⟨k, hk⟩ := p.exists_eq_at
  rw [hk, Seq.next_at]
  exact p.path_at_lt (Nat.lt_succ_self k)

theorem Seq.path_lt_enter (p : Seq) (op : Operation) : p.path < (p.enter op).path := by
  rw [Seq.path_enter, ← List.append_nil p.path, List.append_assoc]
  exact List.append_left_lt (List.nil_lt_cons 0 [])

theorem Seq.path_lt_leave (p : Seq) : p.path < p.leave.path := by
  obtain ⟨op, n, fs⟩ := p
  cases fs with
  | nil => exact Seq.path_lt_next _
  | cons f fs =>
    obtain ⟨k, hk⟩ := Seq.exists_eq_at ⟨op, n, fs⟩
    obtain ⟨l, hl⟩ := Seq.exists_path_at ⟨op, n, fs⟩
    have hp : Seq.path ⟨op, n, f :: fs⟩ = Seq.path ⟨op, n, fs⟩ ++ [f.step] := by simp [Seq.path]
    have hq : Seq.leave ⟨op, n, f :: fs⟩ = Seq.at ⟨op, n, fs⟩ (k + 1) := by
      rw [← Seq.next_at, ← hk]
      rfl
    rw [hp, hq, hl, hk, hl, List.append_assoc]
    exact List.append_left_lt (List.cons_lt_cons_iff.mpr (.inl (Nat.lt_succ_self k)))

/-! ### The position along a sequence, in a fixed state -/

/-- Where a sequence takes the position, each elementary step in the state `v`. -/
def placedIn (v : State) (a : List Micro) (p : Seq) : Seq := a.foldl (fun q m => m.place v q) p

@[simp] theorem placedIn_nil (v : State) (p : Seq) : placedIn v [] p = p := rfl

@[simp] theorem placedIn_cons (v : State) (m : Micro) (a : List Micro) (p : Seq) :
    placedIn v (m :: a) p = placedIn v a (m.place v p) := rfl

@[simp] theorem placedIn_append (v : State) (a b : List Micro) (p : Seq) :
    placedIn v (a ++ b) p = placedIn v b (placedIn v a p) := List.foldl_append

/-- No mark or primitive of the poll loop. -/
def Micro.onward : Micro → Bool
  | .pollHead => false
  | .pollFeed => false
  | .pollSample => false
  | .pollDiag => false
  | .pollDelay => false
  | .pollExit => false
  | _ => true

theorem Micro.path_lt_place {m : Micro} {v : State} (h : m.counts v = true) (p : Seq) :
    p.path < (m.place v p).path := by
  by_cases hcall : ∃ op, m = .call op
  · obtain ⟨op, rfl⟩ := hcall
    exact p.path_lt_enter op
  · rw [Micro.place_of_counts h (not_exists.mp hcall)]
    exact p.path_lt_next

theorem Micro.path_le_place {m : Micro} (h : m.onward = true) (v : State) (p : Seq) :
    p.path ≤ (m.place v p).path := by
  obtain ⟨op, -, hp⟩ | ⟨-, hp⟩ | ⟨rfl | rfl, -⟩ | ⟨-, hp⟩ | ⟨-, -, hp⟩ := m.place_cases v p
  · exact hp ▸ (p.path_lt_enter op).le
  · exact hp ▸ p.path_lt_leave.le
  · cases h
  · cases h
  · exact hp ▸ p.path_lt_next.le
  · rw [hp]

theorem path_le_placedIn {a : List Micro} (h : a.all Micro.onward = true) (v : State) (p : Seq) :
    p.path ≤ (placedIn v a p).path := by
  induction a generalizing p with
  | nil => exact le_rfl
  | cons m a ih =>
    obtain ⟨hm, ha⟩ := Bool.and_eq_true_iff.mp h
    exact (Micro.path_le_place hm v p).trans (ih ha _)

/-- Outside the poll loop the position depends on the state by the test of R173 alone. -/
theorem Micro.place_congr {m : Micro} (hm : m.onward = true) {s v : State}
    (h : m = .diagShape → s.lastResult = v.lastResult) (p : Seq) : m.place s p = m.place v p := by
  cases m
  case diagShape =>
    have hc : Micro.diagShape.counts s = Micro.diagShape.counts v := congrArg (· == .invalidFrameSize) (h rfl)
    simp only [Micro.place, hc]
  case pollHead | pollFeed | pollSample | pollDiag | pollDelay | pollExit => cases hm
  all_goals rfl

/-- A run moves the position as the fixed state `v` does, while a property that makes them agree is kept. -/
theorem placeAll_eq_placedIn {R : State → Prop} {v : State} {a : List Micro}
    (hplace : ∀ m ∈ a, ∀ s, R s → ∀ p, m.place s p = m.place v p)
    (hkeep : ∀ m ∈ a, ∀ s t, R s → m.exec s = .go t → R t) {p : Seq} {s u : State} (hs : R s)
    (h : walk p a s = .done u) : placeAll a p s = placedIn v a p := by
  induction a generalizing p s with
  | nil => rfl
  | cons m a ih =>
    obtain ⟨t, hx, h⟩ := walk_cons_done h
    rw [placeAll_cons_go hx, placedIn_cons, ← hplace m List.mem_cons_self s hs]
    exact ih (fun k hk => hplace k (List.mem_cons_of_mem m hk)) (fun k hk => hkeep k (List.mem_cons_of_mem m hk))
      (hkeep m List.mem_cons_self s t hs hx) h

/-! ### What `seek` passes over -/

/-- The block leaves every place it can stand at, in `v`, before the end of `a`. -/
def LeftBehind (v : State) : Seq → List Micro → Prop
  | _, [] => True
  | p, m :: a => (m.stands v = true → p.path < (placedIn v (m :: a) p).path) ∧ LeftBehind v (m.place v p) a

theorem LeftBehind.append {v : State} {p : Seq} {a b : List Micro} (ha : LeftBehind v p a)
    (hb : LeftBehind v (placedIn v a p) b) (hle : (placedIn v a p).path ≤ (placedIn v (a ++ b) p).path) :
    LeftBehind v p (a ++ b) := by
  induction a generalizing p with
  | nil => exact hb
  | cons m a ih =>
    obtain ⟨hm, ha⟩ := ha
    exact ⟨fun hs => (hm hs).trans_le hle, ih ha hb hle⟩

theorem seek_leftBehind {v : State} {p : Seq} {a : List Micro} (ha : LeftBehind v p a)
    (hle : (placedIn v a p).path ≤ v.seq.path) (rest : List Micro) :
    seek v p (a ++ rest) = seek v (placedIn v a p) rest := by
  induction a generalizing p with
  | nil => rfl
  | cons m a ih =>
    obtain ⟨hm, ha⟩ := ha
    rw [List.cons_append, seek, if_neg, placedIn_cons]
    · exact ih ha hle
    · rintro ⟨hs, rfl⟩
      exact absurd (hm hs) hle.not_gt

/-- `seek` stops at an elementary step the block stands before. -/
theorem seek_found {v : State} {p : Seq} {a : List Micro} {m : Micro} (ha : LeftBehind v p a) (hm : m.stands v = true)
    (hv : v.seq = placedIn v a p) (b : List Micro) : seek v p (a ++ m :: b) = m :: b := by
  rw [seek_leftBehind ha (by rw [hv]), seek, if_pos ⟨hm, hv.symm⟩]

/-! ### Sequences without a loop -/

/-- An elementary step that neither moves the position nor is one the block can stand before. -/
def Micro.silent : Micro → Bool
  | .bumpIdx => true
  | .openSession => true
  | .closeSession => true
  | .setPState _ => true
  | .setDState _ => true
  | .setCurOp _ => true
  | .startPayload => true
  | .takeRequest => true
  | .setResult _ => true
  | _ => false

/-- Before anything else the block can stand at comes a call. -/
def opensCall : List Micro → Bool
  | [] => false
  | .call _ :: _ => true
  | m :: ms => m.silent && opensCall ms

/-- Each entry check of the sequence is followed by a call, before anything the block can stand at. -/
def checksCall : List Micro → Bool
  | [] => true
  | .enter _ :: ms => opensCall ms && checksCall ms
  | _ :: ms => checksCall ms

theorem opensCall_cons {m : Micro} {ms : List Micro} (h : opensCall (m :: ms) = true) :
    (∃ op, m = .call op) ∨ m.silent = true ∧ opensCall ms = true := by
  cases m
  case call op => exact .inl ⟨op, rfl⟩
  all_goals exact .inr (Bool.and_eq_true_iff.mp h)

theorem Micro.place_silent {m : Micro} (h : m.silent = true) (v : State) (p : Seq) : m.place v p = p := by
  cases m
  case bumpIdx | openSession | closeSession | setPState | setDState | setCurOp | startPayload | takeRequest |
      setResult => rfl
  all_goals cases h

/-- A primitive the block stands before opens no call. -/
theorem opensCall_of_stands {v : State} {m : Micro} (hm : m.stands v = true) (hcall : ∀ op, m ≠ .call op)
    (b : List Micro) : opensCall (m :: b) = false := by
  cases m
  case call op => exact absurd rfl (hcall op)
  case bumpIdx | openSession | closeSession | setPState | setDState | setCurOp | startPayload | takeRequest |
      setResult => cases hm
  all_goals rfl

/-- What opens with a call, in a sequence of which `b` does not, has moved the position before `b`. -/
theorem path_lt_of_opensCall {a b : List Micro} (hb : opensCall b = false) (ha : a.all Micro.onward = true)
    (h : opensCall (a ++ b) = true) (v : State) (p : Seq) : p.path < (placedIn v a p).path := by
  induction a generalizing p with
  | nil => exact absurd (hb.symm.trans h) (by decide)
  | cons x a ih =>
    obtain ⟨-, hall⟩ := Bool.and_eq_true_iff.mp ha
    obtain ⟨op, rfl⟩ | ⟨hs, h⟩ := opensCall_cons h
    · exact (p.path_lt_enter op).trans_le (path_le_placedIn hall v (p.enter op))
    · rw [placedIn_cons, Micro.place_silent hs]
      exact ih hall h p

theorem checksCall_cons {m : Micro} {ms : List Micro} (h : checksCall (m :: ms) = true) :
    checksCall ms = true ∧ ∀ op, m = .enter op → opensCall ms = true := by
  cases m
  case enter op =>
    obtain ⟨ho, hc⟩ := Bool.and_eq_true_iff.mp h
    exact ⟨hc, fun _ _ => ho⟩
  all_goals exact ⟨h, nofun⟩

/-- A sequence without a loop leaves every place behind, if the call that follows each of its entry checks is its own. -/
theorem leftBehind_of_onward {a b : List Micro} (hb : opensCall b = false) (ha : a.all Micro.onward = true)
    (hc : checksCall (a ++ b) = true) (v : State) (p : Seq) : LeftBehind v p a := by
  induction a generalizing p with
  | nil => trivial
  | cons x a ih =>
    obtain ⟨-, hall⟩ := Bool.and_eq_true_iff.mp ha
    obtain ⟨hc, ho⟩ := checksCall_cons hc
    refine ⟨fun hs => ?_, ih hall hc _⟩
    by_cases hop : ∃ op, x = .enter op
    · obtain ⟨op, rfl⟩ := hop
      exact path_lt_of_opensCall hb hall (ho op rfl) v p
    · have hcounts : x.counts v = true := by
        cases x
        case enter op => exact absurd ⟨op, rfl⟩ hop
        all_goals exact hs
      exact (Micro.path_lt_place hcounts p).trans_le (path_le_placedIn hall v _)

end Sys2Proof.Machine
end

section
/-! A position inside the poll loop (R22, R150): `seek` finds it in the pass written first, and the passes written after
those that an open session can still take do nothing. -/

namespace Sys2Proof.Machine

/-- An open session is below its ceiling, and `k` more passes reach it. -/
def State.Within (s : State) (k : Nat) : Prop :=
  s.bwActive = true → s.polls < s.cfg.busyMaxPolls ∧ s.cfg.busyMaxPolls ≤ s.polls + k

/-! ### The four primitives of a pass -/

theorem State.Within.delayed {k : Nat} {s t : State} (h : s.Within k) (hx : Micro.pollDelay.exec s = .go t) :
    t.Within k := by
  have hf := Micro.exec_frame hx
  intro hb
  rw [hf.cfg, hf.polls nofun nofun]
  exact h (hf.session nofun hb)

/-- Past the `Diag` at its ceiling a session is over. -/
theorem State.within_diag {k : Nat} {s t : State} (h : s.bwActive = true → s.cfg.busyMaxPolls ≤ s.polls + k)
    (hx : Micro.pollDiag.exec s = .go t) : t.Within k := by
  intro hb
  have hf := Micro.exec_frame hx
  have hs : s.bwActive = true := hf.session nofun hb
  simp only [Micro.exec] at hx
  split at hx
  · obtain ⟨es, ds, q, -, hx⟩ := State.primitive_go hx
    cases hx
    cases hb
  · next hn =>
    cases hx
    simp only [State.atCeiling, hs, Bool.true_and, Bool.not_eq_true', decide_eq_false_iff_not, not_not] at hn
    exact ⟨hn, h hs⟩

theorem State.within_sample {k : Nat} {s t : State} (h : s.Within (k + 1)) (hx : Micro.pollSample.exec s = .go t) :
    t.bwActive = true → t.cfg.busyMaxPolls ≤ t.polls + k := by
  intro hb
  have hf := Micro.exec_frame hx
  obtain ⟨hlt, hle⟩ := h (hf.session nofun hb)
  simp only [Micro.exec] at hx
  split at hx
  · obtain ⟨es, ds, q, -, hx⟩ := State.primitive_go hx
    cases hx
    obtain ⟨on, late, hp, -⟩ := (s.moved es ds q).poll_cases
    rw [hp]
    simp only [State.moved]
    omega
  · next hn =>
    cases hx
    simp [State.polling, hb, hlt] at hn

theorem State.Within.fed {k : Nat} {s t : State} (h : s.Within k) (hx : Micro.pollFeed.exec s = .go t) :
    t.Within k := by
  have hf := Micro.exec_frame hx
  intro hb
  rw [hf.cfg, hf.polls nofun nofun]
  exact h (hf.session nofun hb)

/-! ### What is left of a pass, and of the loop -/

theorem within_of_walk_delay {k : Nat} {p : Seq} {s t : State} (h : s.Within k)
    (hw : walk p [.pollDelay] s = .done t) : t.Within k := by
  obtain ⟨u, hx, hw⟩ := walk_cons_done hw
  cases hw
  exact h.delayed hx

theorem within_of_walk_diag {k : Nat} {p : Seq} {s t : State} (h : s.bwActive = true → s.cfg.busyMaxPolls ≤ s.polls + k)
    (hw : walk p [.pollDiag, .pollDelay] s = .done t) : t.Within k := by
  obtain ⟨u, hx, hw⟩ := walk_cons_done hw
  exact within_of_walk_delay (State.within_diag h hx) hw

theorem within_of_walk_sample {k : Nat} {p : Seq} {s t : State} (h : s.Within (k + 1))
    (hw : walk p [.pollSample, .pollDiag, .pollDelay] s = .done t) : t.Within k := by
  obtain ⟨u, hx, hw⟩ := walk_cons_done hw
  exact within_of_walk_diag (State.within_sample h hx) hw

theorem within_of_walk_feed {k : Nat} {p : Seq} {s t : State} (h : s.Within (k + 1))
    (hw : walk p [.pollFeed, .pollSample, .pollDiag, .pollDelay] s = .done t) : t.Within k := by
  obtain ⟨u, hx, hw⟩ := walk_cons_done hw
  exact within_of_walk_sample (h.fed hx) hw

theorem within_of_walk_pass {k : Nat} {p : Seq} {s t : State} (h : s.Within (k + 1))
    (hw : walk p pollCode s = .done t) : t.Within k := by
  obtain ⟨u, hx, hw⟩ := walk_cons_done hw
  cases hx
  exact within_of_walk_feed h hw

theorem within_of_walk_passes {j k : Nat} {p : Seq} {s t : State} (h : s.Within (j + k))
    (hw : walk p (List.replicate j pollCode).flatten s = .done t) : t.Within k := by
  induction j generalizing p s with
  | zero => cases hw; simpa using h
  | succ j ih =>
    rw [List.replicate_succ, List.flatten_cons] at hw
    obtain ⟨u, hu, hw⟩ := walk_done_append hw
    exact ih (within_of_walk_pass (by rwa [Nat.add_right_comm] at h) hu) hw

theorem walk_append_congr {p : Seq} {a x y : List Micro} {s : State}
    (h : ∀ t, walk p a s = .done t → walk (placeAll a p s) x t = walk (placeAll a p s) y t) :
    walk p (a ++ x) s = walk p (a ++ y) s := by
  rw [walk_append, walk_append]
  cases hw : walk p a s with
  | done t => exact h t hw
  | held q t => rfl
  | gone t => rfl
  | fault r => rfl

/-- Passes beyond those an open session can take change nothing. -/
theorem walk_surplus {k n : Nat} {s : State} (h : s.Within k) (hk : k ≤ n) (p : Seq) (rest : List Micro) :
    walk p ((List.replicate n pollCode).flatten ++ rest) s = walk p ((List.replicate k pollCode).flatten ++ rest) s := by
  induction k generalizing n p s with
  | zero =>
    have hb : s.bwActive = false := Bool.eq_false_iff.mpr fun hb => absurd (h hb) (by omega)
    rw [walk_append_done (walk_polls_closed hb p n), placeAll_polls_closed hb]
    rfl
  | succ k ih =>
    obtain ⟨n, rfl⟩ : ∃ j, n = j + 1 := ⟨n - 1, by omega⟩
    simp only [List.replicate_succ, List.flatten_cons, List.append_assoc]
    exact walk_append_congr fun t ht => ih (within_of_walk_pass h ht) (by omega) _

/-! ### A place inside a pass -/

/-- The step of BusyWait that a primitive of a pass stands at (log entry 5). -/
def Micro.pollStep : Micro → Nat
  | .pollFeed => 1
  | .pollSample => 2
  | _ => 3

/-- The places inside a pass. -/
theorem pollCode_split {y z : List Micro} {m : Micro} (h : pollCode = y ++ m :: z) (hm : m ≠ .pollHead) :
    (y = [.pollHead] ∧ m = .pollFeed ∧ z = [.pollSample, .pollDiag, .pollDelay]) ∨
    (y = [.pollHead, .pollFeed] ∧ m = .pollSample ∧ z = [.pollDiag, .pollDelay]) ∨
    (y = [.pollHead, .pollFeed, .pollSample] ∧ m = .pollDiag ∧ z = [.pollDelay]) ∨
    (y = [.pollHead, .pollFeed, .pollSample, .pollDiag] ∧ m = .pollDelay ∧ z = []) := by
  obtain _ | ⟨a, _ | ⟨b, _ | ⟨c, _ | ⟨d, _ | ⟨e, y⟩⟩⟩⟩⟩ := y <;> simp_all [pollCode]

theorem State.polling_active {s : State} (h : s.polling = true) : s.bwActive = true := (Bool.and_eq_true_iff.mp h).1

theorem State.atCeiling_active {s : State} (h : s.atCeiling = true) : s.bwActive = true :=
  (Bool.and_eq_true_iff.mp h).1

theorem atCeiling_of_go_diag {s t : State} (hx : Micro.pollDiag.exec s = .go t) (hb : t.bwActive = true) :
    s.atCeiling = false := by
  by_contra hn
  rw [Micro.exec, if_pos (by simpa using hn)] at hx
  obtain ⟨es, ds, q, -, hx⟩ := State.primitive_go hx
  cases hx
  cases hb

/-- Where a run that stands inside a pass has got to. -/
theorem placeAll_in_pass {y z : List Micro} {m : Micro} {p : Seq} {s u : State} (h : pollCode = y ++ m :: z)
    (hw : walk p y s = .done u) (hm : m.reached u = true) : placeAll y p s = p.at m.pollStep := by
  have head (s : State) : Micro.pollHead.exec s = .go s := rfl
  obtain ⟨rfl, rfl, -⟩ | ⟨rfl, rfl, -⟩ | ⟨rfl, rfl, -⟩ | ⟨rfl, rfl, -⟩ :=
    pollCode_split h (by rintro rfl; cases hm)
  · cases hw
    simp [placeAll, Micro.exec, Micro.place, State.polling_active hm, Micro.pollStep]
  · obtain ⟨_, hx, hw⟩ := walk_cons_done hw
    cases hx
    obtain ⟨_, hfeed, hw⟩ := walk_cons_done hw
    cases hw
    have hs : s.bwActive = true := (Micro.exec_frame hfeed).session nofun (State.polling_active hm)
    rw [placeAll_cons_go (head s), placeAll_cons_go hfeed]
    simp [placeAll, Micro.place, Micro.counts, hs, Micro.pollStep]
  · obtain ⟨_, hx, hw⟩ := walk_cons_done hw
    cases hx
    obtain ⟨v, hfeed, hw⟩ := walk_cons_done hw
    obtain ⟨_, hsample, hw⟩ := walk_cons_done hw
    cases hw
    have hv : v.bwActive = true := (Micro.exec_frame hsample).session nofun (State.atCeiling_active hm)
    have hs : s.bwActive = true := (Micro.exec_frame hfeed).session nofun hv
    rw [placeAll_cons_go (head s), placeAll_cons_go hfeed, placeAll_cons_go hsample]
    simp [placeAll, Micro.place, Micro.counts, hs, hv, Micro.pollStep]
  · obtain ⟨_, hx, hw⟩ := walk_cons_done hw
    cases hx
    obtain ⟨v, hfeed, hw⟩ := walk_cons_done hw
    obtain ⟨x, hsample, hw⟩ := walk_cons_done hw
    obtain ⟨_, hdiag, hw⟩ := walk_cons_done hw
    cases hw
    have hu := State.polling_active hm
    have hx : x.bwActive = true := (Micro.exec_frame hdiag).session nofun hu
    have hv : v.bwActive = true := (Micro.exec_frame hsample).session nofun hx
    have hs : s.bwActive = true := (Micro.exec_frame hfeed).session nofun hv
    rw [placeAll_cons_go (head s), placeAll_cons_go hfeed, placeAll_cons_go hsample, placeAll_cons_go hdiag]
    simp [placeAll, Micro.place, Micro.counts, hs, hv, atCeiling_of_go_diag hdiag hu, Micro.pollStep]

/-- `seek` finds such a place in the pass written first. -/
theorem seek_in_pass {y z : List Micro} {m : Micro} {p : Seq} {v : State} (h : pollCode = y ++ m :: z)
    (hm : m.reached v = true) (hv : v.seq = p.at m.pollStep) (rest : List Micro) :
    seek v p (pollCode ++ rest) = m :: (z ++ rest) := by
  obtain ⟨-, rfl, rfl⟩ | ⟨-, rfl, rfl⟩ | ⟨-, rfl, rfl⟩ | ⟨-, rfl, rfl⟩ := pollCode_split h (by rintro rfl; cases hm)
  · have hb := State.polling_active hm
    simp [pollCode, seek, Micro.stands, Micro.counts, Micro.place, hb, hv, Micro.pollStep]
  · have hb := State.polling_active hm
    simp [pollCode, seek, Micro.stands, Micro.counts, Micro.place, hb, hv, Seq.at_inj, Micro.pollStep]
  · have hb := State.atCeiling_active hm
    have hc : v.atCeiling = true := hm
    simp [pollCode, seek, Micro.stands, Micro.counts, Micro.place, hb, hv, Seq.at_inj, Micro.pollStep, hc]
  · have hb := State.polling_active hm
    have hp : v.polling = true := hm
    have hc : v.atCeiling = false := by
      simp only [State.polling, Bool.and_eq_true] at hp
      simp [State.atCeiling, hp]
    simp [pollCode, seek, Micro.stands, Micro.counts, Micro.place, hb, hv, Seq.at_inj, Micro.pollStep, hc, hp]

/-- From such a place on, the rest of the pass leaves a session that the passes after it are enough for. -/
theorem within_in_pass {y z : List Micro} {m : Micro} {p q r : Seq} {s u t : State} {k : Nat} {es : List EnvEvent}
    (h : pollCode = y ++ m :: z) (hm : m.reached u = true) (hs : s.Within (k + 1)) (hw : walk p y s = .done u)
    (ht : walk q (m :: z) (u.placed es r) = .done t) : t.Within k := by
  obtain ⟨rfl, rfl, rfl⟩ | ⟨rfl, rfl, rfl⟩ | ⟨rfl, rfl, rfl⟩ | ⟨rfl, rfl, rfl⟩ :=
    pollCode_split h (by rintro rfl; cases hm)
  · cases hw
    exact within_of_walk_feed (s := s.placed es r) hs ht
  · obtain ⟨_, hx, hw⟩ := walk_cons_done hw
    cases hx
    obtain ⟨_, hfeed, hw⟩ := walk_cons_done hw
    cases hw
    have hu : u.Within (k + 1) := hs.fed hfeed
    exact within_of_walk_sample (s := u.placed es r) hu ht
  · obtain ⟨_, hx, hw⟩ := walk_cons_done hw
    cases hx
    obtain ⟨v, hfeed, hw⟩ := walk_cons_done hw
    obtain ⟨_, hsample, hw⟩ := walk_cons_done hw
    cases hw
    have hu := State.within_sample (hs.fed hfeed) hsample
    exact within_of_walk_diag (s := u.placed es r) hu ht
  · obtain ⟨_, hx, hw⟩ := walk_cons_done hw
    cases hx
    obtain ⟨v, hfeed, hw⟩ := walk_cons_done hw
    obtain ⟨x, hsample, hw⟩ := walk_cons_done hw
    obtain ⟨_, hdiag, hw⟩ := walk_cons_done hw
    cases hw
    have hu : u.Within k := State.within_diag (State.within_sample (hs.fed hfeed) hsample) hdiag
    exact within_of_walk_delay (s := u.placed es r) hu ht

end Sys2Proof.Machine
end

section
/-! Where a step goes on (R22): from the place a run of an operation has got to, what `restFrom` finds runs as what the
run has left. An operation either has no poll loop, or waits for the panel once. -/

namespace Sys2Proof.Machine

/-! ### The two shapes of a sequence -/

/-- Moves the position in the same way in every state. -/
def Micro.fixed : Micro → Bool
  | .diagShape => false
  | m => m.onward

/-- Can stand behind the one poll loop of a sequence: opens no session, sets no result, checks no panel state. -/
def Micro.late : Micro → Bool
  | .openSession => false
  | .setResult _ => false
  | .enter _ => false
  | m => m.onward

theorem Micro.onward_of_fixed {m : Micro} (h : m.fixed = true) : m.onward = true := by
  cases m
  case diagShape => cases h
  all_goals exact h

theorem Micro.onward_of_late {m : Micro} (h : m.late = true) : m.onward = true := by
  cases m
  case openSession | setResult | enter => cases h
  all_goals exact h

theorem all_onward {f : Micro → Bool} (hf : ∀ {m : Micro}, f m = true → m.onward = true) {a : List Micro}
    (h : a.all f = true) : a.all Micro.onward = true :=
  List.all_eq_true.mpr fun m hm => hf (List.all_eq_true.mp h m hm)

/-- BusyWait up to the head of its loop. -/
def busyHead (c : Cfg) : List Micro := (.enter .busyWait :: callCode (.instr .flg) (flgCode c)) ++ [.openSession]

/-- The poll loop as it is written out. -/
def pollLoop (c : Cfg) : List Micro := (List.replicate c.busyMaxPolls pollCode).flatten

/-- A sequence without a loop that moves the position in the same way in every state. -/
structure Straight (code : List Micro) : Prop where
  fixed : code.all Micro.fixed = true
  checks : checksCall code = true

/-- A sequence that waits for the panel once: `pre` before BusyWait's first step, `post` behind its loop. -/
structure OneWait (c : Cfg) (code pre post : List Micro) : Prop where
  code_eq : code = (pre ++ busyHead c) ++ (pollLoop c ++ .pollExit :: post)
  before : Straight pre
  /-- BusyWait is the whole sequence, or it has just been called. -/
  first : pre = [] ∨ ∃ a op, pre = a ++ [.call op]
  behind : post.all Micro.late = true

theorem opensCall_append {a : List Micro} (h : opensCall a = true) (b : List Micro) : opensCall (a ++ b) = true := by
  induction a with
  | nil => cases h
  | cons m a ih =>
    cases m
    case call op => rfl
    all_goals
      obtain ⟨hs, h⟩ := Bool.and_eq_true_iff.mp h
      exact Bool.and_eq_true_iff.mpr ⟨hs, ih h⟩

theorem checksCall_append {a b : List Micro} (ha : checksCall a = true) (hb : checksCall b = true) :
    checksCall (a ++ b) = true := by
  induction a with
  | nil => exact hb
  | cons m a ih =>
    cases m
    case enter op =>
      obtain ⟨ho, ha⟩ := Bool.and_eq_true_iff.mp ha
      exact Bool.and_eq_true_iff.mpr ⟨opensCall_append ho b, ih ha⟩
    all_goals exact ih ha

theorem Straight.append {a b : List Micro} (ha : Straight a) (hb : Straight b) : Straight (a ++ b) :=
  ⟨by rw [List.all_append, ha.fixed, hb.fixed]; rfl, checksCall_append ha.checks hb.checks⟩

theorem Straight.busyHead (c : Cfg) : Straight (Machine.busyHead c) := ⟨rfl, rfl⟩

/-! ### Standing in a sequence -/

theorem append_eq_append_cons {α : Type} {x y a b : List α} {m : α} (h : x ++ y = a ++ m :: b) :
    (∃ z, x = a ++ m :: z ∧ b = z ++ y) ∨ ∃ a', a = x ++ a' ∧ y = a' ++ m :: b := by
  obtain ⟨a', ha, hy⟩ | ⟨z, hx, hb⟩ := List.append_eq_append_iff.mp h
  · exact .inr ⟨a', ha, hy⟩
  · cases z with
    | nil => exact .inr ⟨[], by simpa using hx.symm, by simpa using hb.symm⟩
    | cons k z =>
      obtain ⟨rfl, rfl⟩ := List.cons_eq_cons.mp hb
      exact .inl ⟨z, hx, rfl⟩

theorem Micro.stands_of_reached {m : Micro} {s : State} (h : m.reached s = true) : m.stands s = true := by
  have hs := Micro.stands_of_hold (m.exec_pause h [] s.seq)
  cases m <;> exact hs

theorem Micro.ne_call_of_reached {m : Micro} {s : State} (h : m.reached s = true) (op : Operation) : m ≠ .call op := by
  rintro rfl
  cases h

section
variable {m : Micro} {a z : List Micro} {p q : Seq} {s u : State} {es : List EnvEvent}

/-- A run that moves as every state does moves as the state it gets to. -/
theorem placeAll_fixed {v : State} (ha : a.all Micro.fixed = true) (hw : walk p a s = .done u) :
    placeAll a p s = placedIn v a p := by
  refine placeAll_eq_placedIn (R := fun _ => True) (fun m hm s _ p => ?_) (fun _ _ _ _ _ _ => trivial) trivial hw
  have hf := List.all_eq_true.mp ha m hm
  exact Micro.place_congr (Micro.onward_of_fixed hf) (by rintro rfl; cases hf) p

/-- Standing in a straight part of a sequence, `seek` finds the place. -/
theorem seek_straight (hx : Straight (a ++ m :: z)) (hw : walk p a s = .done u) (hm : m.reached u = true)
    (rest : List Micro) :
    seek (u.placed es (placeAll a p s)) p ((a ++ m :: z) ++ rest) = m :: (z ++ rest) := by
  have ha : a.all Micro.fixed = true := by
    have := hx.fixed
    rw [List.all_append, Bool.and_eq_true] at this
    exact this.1
  have hstands : m.stands (u.placed es (placeAll a p s)) = true :=
    Micro.stands_of_reached (by rw [Micro.reached_placed]; exact hm)
  have hopens := opensCall_of_stands hstands (Micro.ne_call_of_reached hm) z
  rw [List.append_assoc]
  exact seek_found (leftBehind_of_onward hopens (all_onward Micro.onward_of_fixed ha) hx.checks _ p) hstands
    (placeAll_fixed ha hw) _

/-- A straight part of a sequence that the block has left behind. -/
theorem seek_past {x : List Micro} {v : State} (hx : Straight x) (hv : (placedIn v x p).path ≤ v.seq.path)
    (rest : List Micro) : seek v p (x ++ rest) = seek v (placedIn v x p) rest :=
  seek_leftBehind (leftBehind_of_onward (b := []) rfl (all_onward Micro.onward_of_fixed hx.fixed)
    (by rw [List.append_nil]; exact hx.checks) v p) hv rest

end

/-! ### Standing in or behind the poll loop -/

theorem passes_split {n : Nat} {rest a b : List Micro} {m : Micro}
    (h : (List.replicate n pollCode).flatten ++ rest = a ++ m :: b) :
    (∃ j y z k, n = j + (k + 1) ∧ a = (List.replicate j pollCode).flatten ++ y ∧ pollCode = y ++ m :: z ∧
      b = z ++ ((List.replicate k pollCode).flatten ++ rest)) ∨
    ∃ a', a = (List.replicate n pollCode).flatten ++ a' ∧ rest = a' ++ m :: b := by
  induction n generalizing a with
  | zero => exact .inr ⟨a, rfl, h⟩
  | succ n ih =>
    rw [List.replicate_succ, List.flatten_cons, List.append_assoc] at h
    obtain ⟨z, hz, rfl⟩ | ⟨a', rfl, ha⟩ := append_eq_append_cons h
    · exact .inl ⟨0, a, z, n, by omega, rfl, hz, rfl⟩
    · obtain ⟨j, y, z, k, hn, rfl, hy, rfl⟩ | ⟨a'', rfl, hr⟩ := ih ha
      · exact .inl ⟨j + 1, y, z, k, by omega, by simp [List.replicate_succ], hy, rfl⟩
      · exact .inr ⟨a'', by simp [List.replicate_succ], hr⟩

/-- BusyWait's first step is a fresh one: it is the first of its operation. -/
theorem next_placedIn_first {pre : List Micro} (h : pre = [] ∨ ∃ a op, pre = a ++ [.call op]) (v : State)
    (op : Operation) : (placedIn v pre (Seq.start op)).next = (placedIn v pre (Seq.start op)).at 1 := by
  obtain rfl | ⟨a, op', rfl⟩ := h
  · rfl
  · rw [placedIn_append]
    rfl

theorem placedIn_busyHead (v : State) (c : Cfg) (p : Seq) : placedIn v (busyHead c) p = p.next := rfl

theorem within_of_walk_busyHead {c : Cfg} {pre : List Micro} {p : Seq} {s w : State} (hc : s.cfg = c)
    (hmax : 0 < c.busyMaxPolls) (h : walk p (pre ++ busyHead c) s = .done w) : w.Within c.busyMaxPolls := by
  have hcfg : w.cfg = c := (walk_done_follows h).cfg.trans hc
  rw [busyHead, ← List.append_assoc] at h
  obtain ⟨t, -, h⟩ := walk_done_append h
  cases h
  intro _
  rw [hcfg]
  exact ⟨hmax, Nat.le_add_left _ _⟩

/-- With its session over the loop is passed over. -/
theorem seek_loop_closed {v : State} (hb : v.bwActive = false) (p : Seq) (n : Nat) (rest : List Micro) :
    seek v p ((List.replicate n pollCode).flatten ++ rest) = seek v p rest := by
  induction n with
  | zero => rfl
  | succ n ih =>
    have hpass : seek v p (pollCode ++ ((List.replicate n pollCode).flatten ++ rest)) =
        seek v p ((List.replicate n pollCode).flatten ++ rest) := by
      simp [pollCode, seek, Micro.stands, Micro.counts, Micro.place, State.polling, State.atCeiling, hb]
    rw [List.replicate_succ, List.flatten_cons, List.append_assoc, hpass, ih]

/-- The step BusyWait goes on from when its loop has ended (log entry 5). -/
def State.exitStep (s : State) : Nat := if s.timedOut then 4 else 3

theorem place_pollExit (s : State) (p : Seq) : Micro.pollExit.place s p = p.at s.exitStep := by
  simp only [Micro.place, State.exitStep]
  split <;> rfl

theorem checksCall_of_late {a : List Micro} (h : a.all Micro.late = true) : checksCall a = true := by
  induction a with
  | nil => rfl
  | cons m a ih =>
    obtain ⟨hm, ha⟩ := Bool.and_eq_true_iff.mp h
    cases m
    case enter op => cases hm
    all_goals exact ih ha

/-- What no elementary step behind the loop changes. -/
structure State.SameWait (s t : State) : Prop where
  session : t.bwActive = true → s.bwActive = true
  timedOut : t.timedOut = s.timedOut
  lastResult : t.lastResult = s.lastResult

theorem Micro.sameWait {m : Micro} (hm : m.late = true) {s t : State} (h : m.exec s = .go t) : s.SameWait t := by
  have hf := Micro.exec_frame h
  exact ⟨hf.session (by rintro rfl; cases hm), hf.timedOut (by rintro rfl; cases hm),
    hf.lastResult (by rintro r rfl; cases hm)⟩

theorem walk_sameWait {p : Seq} {a : List Micro} (ha : a.all Micro.late = true) {s u : State}
    (h : walk p a s = .done u) : s.SameWait u := by
  induction a generalizing p s with
  | nil => cases h; exact ⟨id, rfl, rfl⟩
  | cons m a ih =>
    obtain ⟨hm, ha⟩ := Bool.and_eq_true_iff.mp ha
    obtain ⟨t, hx, h⟩ := walk_cons_done h
    obtain ⟨h1, h2, h3⟩ := Micro.sameWait hm hx
    obtain ⟨k1, k2, k3⟩ := ih ha h
    exact ⟨fun hb => h1 (k1 hb), k2.trans h2, k3.trans h3⟩

theorem placeAll_late {p : Seq} {a : List Micro} (ha : a.all Micro.late = true) {s u v : State}
    (h : walk p a s = .done u) (hv : s.lastResult = v.lastResult) : placeAll a p s = placedIn v a p := by
  refine placeAll_eq_placedIn (R := fun s => s.lastResult = v.lastResult) (fun m hm s hs p => ?_)
    (fun m hm s t hs hx => ?_) hv h
  · exact Micro.place_congr (Micro.onward_of_late (List.all_eq_true.mp ha m hm)) (fun _ => hs) p
  · exact (Micro.sameWait (List.all_eq_true.mp ha m hm) hx).lastResult.trans hs

section
variable {c : Cfg} {code pre post a b : List Micro} {m : Micro} {op : Operation} {s w u : State} {es : List EnvEvent}
variable (h : OneWait c code pre post)
include h

theorem OneWait.straight_head : Straight (pre ++ busyHead c) := h.before.append (.busyHead c)

theorem OneWait.placedIn_head (v : State) :
    placedIn v (pre ++ busyHead c) (Seq.start op) = (placedIn v pre (Seq.start op)).at 1 := by
  rw [placedIn_append, placedIn_busyHead, next_placedIn_first h.first]

/-- Where a run enters the loop. -/
theorem OneWait.placeAll_head (hw : walk (Seq.start op) (pre ++ busyHead c) s = .done w) (v : State) :
    placeAll (pre ++ busyHead c) (Seq.start op) s = (placedIn v pre (Seq.start op)).at 1 := by
  rw [placeAll_fixed h.straight_head.fixed hw (v := v), h.placedIn_head]

/-- From a place at or behind the head of the loop, `seek` comes to the loop. -/
theorem OneWait.seek_head {v : State} (hv : ((placedIn v pre (Seq.start op)).at 1).path ≤ v.seq.path)
    (rest : List Micro) :
    seek v (Seq.start op) ((pre ++ busyHead c) ++ rest) = seek v ((placedIn v pre (Seq.start op)).at 1) rest := by
  rw [seek_past h.straight_head (by rw [h.placedIn_head]; exact hv), h.placedIn_head]

/-- Standing in the loop, what is found runs as what is left, whatever pass the run is in. -/
theorem OneWait.run_in_loop (hc : s.cfg = c) (hmax : 0 < c.busyMaxPolls) {j k : Nat} {y z : List Micro}
    (hjk : c.busyMaxPolls = j + (k + 1)) (hy : pollCode = y ++ m :: z)
    (hhead : walk (Seq.start op) (pre ++ busyHead c) s = .done w)
    (hw : walk (placeAll (pre ++ busyHead c) (Seq.start op) s) ((List.replicate j pollCode).flatten ++ y) w = .done u)
    (hm : m.reached u = true) {v : State}
    (hv : v = u.placed es (placeAll (pre ++ busyHead c ++ ((List.replicate j pollCode).flatten ++ y)) (Seq.start op) s))
    (rest : List Micro) :
    run v.seq (seek v (Seq.start op) ((pre ++ busyHead c) ++ (pollLoop c ++ rest))) v =
      run v.seq (m :: (z ++ ((List.replicate k pollCode).flatten ++ rest))) v := by
  obtain ⟨x, hx, hxu⟩ := walk_done_append hw
  obtain ⟨i, hi⟩ := placeAll_nested (.passes (.of_flat rfl) j) hx
  have hreached : m.reached v = true := by rw [hv, Micro.reached_placed]; exact hm
  have hpos : v.seq = ((placedIn v pre (Seq.start op)).at 1).at m.pollStep := by
    have hseq : v.seq = placeAll (pre ++ busyHead c ++ ((List.replicate j pollCode).flatten ++ y)) (Seq.start op) s := by
      rw [hv]
      rfl
    rw [hseq, placeAll_append hhead, placeAll_append hx, placeAll_in_pass hy hxu hm, hi, h.placeAll_head hhead v,
      Seq.at_at]
  have hstep : 1 ≤ m.pollStep := by
    obtain ⟨-, rfl, -⟩ | ⟨-, rfl, -⟩ | ⟨-, rfl, -⟩ | ⟨-, rfl, -⟩ :=
      pollCode_split hy (by rintro rfl; cases hm) <;> decide
  have hsession : x.Within (k + 1) :=
    within_of_walk_passes (by rw [← hjk]; exact within_of_walk_busyHead hc hmax hhead) hx
  have hloop : pollLoop c = pollCode ++ (List.replicate (j + k) pollCode).flatten := by
    rw [pollLoop, hjk, ← Nat.add_assoc, List.replicate_succ, List.flatten_cons]
  have hle : ((placedIn v pre (Seq.start op)).at 1).path ≤ v.seq.path := by
    rw [hpos, Seq.at_at]
    exact Seq.path_at_le _ hstep
  rw [h.seek_head hle, hloop, List.append_assoc, seek_in_pass hy hreached hpos, ← List.cons_append, ← List.cons_append,
    run, run, walk_append_congr]
  intro t ht
  rw [hv] at ht
  exact walk_surplus (within_in_pass hy hm hsession hxu ht) (by omega) _ _

/-- Standing behind the loop, what is found is what is left. -/
theorem OneWait.seek_behind (hc : s.cfg = c) (hmax : 0 < c.busyMaxPolls) (hpost : post = a ++ m :: b)
    (hhead : walk (Seq.start op) (pre ++ busyHead c) s = .done w)
    (hw : walk (placeAll (pre ++ busyHead c) (Seq.start op) s) (pollLoop c ++ .pollExit :: a) w = .done u)
    (hm : m.reached u = true) {v : State}
    (hv : v = u.placed es (placeAll (pre ++ busyHead c ++ (pollLoop c ++ .pollExit :: a)) (Seq.start op) s)) :
    seek v (Seq.start op) ((pre ++ busyHead c) ++ (pollLoop c ++ .pollExit :: (a ++ m :: b))) = m :: b := by
  obtain ⟨x, hx, hxu⟩ := walk_done_append hw
  obtain ⟨_, hexit, hxu⟩ := walk_cons_done hxu
  cases hexit
  obtain ⟨i, hi⟩ := placeAll_nested (.passes (.of_flat rfl) c.busyMaxPolls) hx
  have hlate : a.all Micro.late = true := by
    have := h.behind
    rw [hpost, List.all_append, Bool.and_eq_true] at this
    exact this.1
  obtain ⟨hsession, htime, hresult⟩ := walk_sameWait hlate hxu
  have hclosed : v.bwActive = false := by
    have hx0 : x.Within 0 := within_of_walk_passes (by exact within_of_walk_busyHead hc hmax hhead) hx
    rw [hv]
    exact Bool.eq_false_iff.mpr fun hb => absurd (hx0 (hsession hb)) (by omega)
  have hstands : m.stands v = true := Micro.stands_of_reached (by rw [hv, Micro.reached_placed]; exact hm)
  have hexit : v.exitStep = x.exitStep := by
    rw [hv, State.exitStep, State.exitStep, ← htime]
    rfl
  have hpos : v.seq = placedIn v a (((placedIn v pre (Seq.start op)).at 1).at v.exitStep) := by
    have hseq : v.seq = placeAll (pre ++ busyHead c ++ (pollLoop c ++ .pollExit :: a)) (Seq.start op) s := by
      rw [hv]
      rfl
    have hlast : x.lastResult = v.lastResult := by
      rw [hv]
      exact hresult.symm
    rw [hseq, placeAll_append hhead, placeAll_append hx, placeAll_cons_go (t := x) rfl, placeAll_late hlate hxu hlast,
      place_pollExit, pollLoop, hi, h.placeAll_head hhead v, Seq.at_at, hexit]
  have hle : ((placedIn v pre (Seq.start op)).at 1).path ≤ v.seq.path := by
    rw [hpos, Seq.at_at]
    refine (Seq.path_at_le _ ?_).trans (path_le_placedIn (all_onward Micro.onward_of_late hlate) v _)
    unfold State.exitStep
    split <;> omega
  have hchecks : checksCall (a ++ m :: b) = true := checksCall_of_late (hpost ▸ h.behind)
  rw [h.seek_head hle, pollLoop, seek_loop_closed hclosed, seek, if_neg (fun hs => Bool.false_ne_true hs.1),
    place_pollExit]
  exact seek_found (leftBehind_of_onward (opensCall_of_stands hstands (Micro.ne_call_of_reached hm) b)
    (all_onward Micro.onward_of_late hlate) hchecks v _) hstands hpos b

end

end Sys2Proof.Machine
end

section
/-! The shape of every operation's sequence: without a loop, or with the one wait of R150 in it. -/

namespace Sys2Proof.Machine

theorem Micro.late_of_bus (m : Micro) (h : m.bus = true) : m.late = true := by
  cases m
  case setLine | spiWrite | spiHeld | feed | delay | memRead | call | ret => rfl
  all_goals cases h

/-! ### Straight sequences -/

/-- Neither an entry check nor a step that the loop or the state can move otherwise. -/
def Micro.plain : Micro → Bool
  | .enter _ => false
  | m => m.fixed

theorem Micro.plain_of_bus (m : Micro) (h : m.bus = true) : m.plain = true := by
  cases m
  case setLine | spiWrite | spiHeld | feed | delay | memRead | call | ret => rfl
  all_goals cases h

theorem Straight.cons {m : Micro} {a : List Micro} (hm : m.plain = true) (h : Straight a) : Straight (m :: a) := by
  obtain ⟨hf, hc⟩ := h
  cases m
  case enter op => cases hm
  all_goals exact ⟨Bool.and_eq_true_iff.mpr ⟨hm, hf⟩, hc⟩

theorem Straight.of_plain {a : List Micro} (h : a.all Micro.plain = true) : Straight a := by
  induction a with
  | nil => exact ⟨rfl, rfl⟩
  | cons m a ih =>
    obtain ⟨hm, h⟩ := Bool.and_eq_true_iff.mp h
    exact .cons hm (ih h)

theorem Straight.check {a : List Micro} (ho : opensCall a = true) (h : Straight a) (op : PanelOp) :
    Straight (.enter op :: a) :=
  ⟨h.fixed, Bool.and_eq_true_iff.mpr ⟨ho, h.checks⟩⟩

theorem Straight.called {a : List Micro} (h : Straight a) (op : Operation) : Straight (callCode op a) :=
  (Straight.cons (m := .call op) rfl h).append (.of_plain rfl)

theorem Straight.passes {a : List Micro} (h : Straight a) (k : Nat) : Straight (List.replicate k a).flatten := by
  induction k with
  | zero => exact .of_plain rfl
  | succ k ih => rw [List.replicate_succ, List.flatten_cons]; exact h.append ih

theorem straight_sendCode (command : Byte) (ds : List Byte) : Straight (sendCode command ds) :=
  .of_plain (sendCode_all Micro.plain_of_bus command ds)

theorem straight_cmdCode (b : Byte) : Straight (cmdCode b) := .of_plain rfl

theorem straight_planeCode (c : Cfg) (p : Plane) (src : PlaneSrc) : Straight (planeCode c p src) :=
  .of_plain (planeCode_all Micro.plain_of_bus c p src)

theorem straight_pulseCode (c : Cfg) : Straight (pulseCode c) := .of_plain rfl

theorem straight_ackCode (c : Cfg) : Straight (ackCode c) := by
  unfold ackCode
  split <;> exact .of_plain rfl

theorem straight_doneCode (c : Cfg) : Straight (doneCode c) := by
  unfold doneCode
  split
  · exact (straight_ackCode c).called _
  · exact .of_plain rfl

theorem straight_sendBufferCode (c : Cfg) : Straight (sendBufferCode c) :=
  (((Straight.cons rfl ((straight_ackCode c).called _)).append
    (.cons rfl (.cons rfl (.passes (.of_plain rfl) _)))).append (.cons rfl (straight_doneCode c))).append (.of_plain rfl)

/-! ### Sequences with a wait -/

/-- A called sequence with a wait makes its caller one. -/
theorem OneWait.called {c : Cfg} {code pre post before after : List Micro} (h : OneWait c code pre post) (op : Operation)
    (hbefore : Straight before) (hafter : after.all Micro.late = true) :
    OneWait c (before ++ callCode op code ++ after) (before ++ .call op :: pre) (post ++ .ret :: after) where
  code_eq := by simp [h.code_eq, callCode]
  before := hbefore.append (.cons rfl h.before)
  first := by
    obtain rfl | ⟨a, op', rfl⟩ := h.first
    · exact .inr ⟨before, op, rfl⟩
    · exact .inr ⟨before ++ .call op :: a, op', by simp⟩
  behind := by
    rw [List.all_append, h.behind, List.all_cons, hafter]
    rfl

/-- A sequence waits for the panel once. -/
def Waits (c : Cfg) (code : List Micro) : Prop := ∃ pre post, OneWait c code pre post

theorem Waits.called {c : Cfg} {code before after : List Micro} (h : Waits c code) (op : Operation)
    (hbefore : Straight before) (hafter : after.all Micro.late = true) :
    Waits c (before ++ callCode op code ++ after) := by
  obtain ⟨pre, post, h⟩ := h
  exact ⟨_, _, h.called op hbefore hafter⟩

section
variable (c : Cfg)

theorem waits_busyWaitCode : Waits c (busyWaitCode c) := by
  refine ⟨[], .closeSession :: waitCode c.settleMs, ?_, .of_plain rfl, .inl rfl, rfl⟩
  simp [busyWaitCode, busyHead, pollLoop]

theorem waits_refreshCode : Waits c (refreshCode c) := by
  have hbefore : Straight (.enter .refresh :: callCode (.instr .drf) (drfCode c) ++ [.setPState .refreshing]) :=
    (Straight.check rfl ((straight_cmdCode _).called _) _).append (.of_plain rfl)
  simpa [refreshCode] using (waits_busyWaitCode c).called (.instr .busyWait) hbefore (after := [.setPState .idle]) rfl

theorem waits_clearCode : Waits c (clearCode c) := by
  have hplanes (b b' : Byte) : Straight (callCode (.instr (.dtm1 (.const b))) (dtm1Code c (.const b)) ++
      callCode (.instr (.dtm2 (.const b'))) (dtm2Code c (.const b'))) :=
    ((straight_planeCode c _ _).called _).append ((straight_planeCode c _ _).called _)
  have hbefore := Straight.check rfl (.cons (m := .setPState .writing) rfl
    (hplanes c.clearByteBlack c.clearByteRed)) .clear
  simpa [clearCode] using (waits_refreshCode c).called (.instr .refresh) hbefore (after := []) rfl

theorem waits_displayCode (h : shapeOk c = true) : Waits c (displayCode c) := by
  have hplanes : Straight (callCode (.instr (.dtm1 .store)) (dtm1Code c .store) ++
      callCode (.instr (.dtm2 .store)) (dtm2Code c .store)) :=
    ((straight_planeCode c _ _).called _).append ((straight_planeCode c _ _).called _)
  have hbefore := Straight.check rfl (.cons (m := .setResult .ok) rfl (.cons (m := .setPState .writing) rfl hplanes))
    .display
  simpa [displayCode, h] using (waits_refreshCode c).called (.instr .refresh) hbefore (after := []) rfl

theorem waits_sleepCode : Waits c (sleepCode c) := by
  have hbefore : Straight (.enter .sleep :: callCode (.instr (.cdi c.sleepCdiData)) (cdiCode c c.sleepCdiData)
      ++ callCode (.instr .pof) (pofCode c) ++ [.setPState .refreshing]) :=
    ((Straight.check rfl ((straight_sendCode _ _).called _) _).append ((straight_cmdCode _).called _)).append
      (.of_plain rfl)
  have hafter : (callCode (.instr .dslp) (dslpCode c) ++ ([.setPState .sleeping] : List Micro)).all Micro.late = true := by
    rw [List.all_append, callCode_all Micro.late_of_bus, dslpCode, sendCode_all Micro.late_of_bus]
    rfl
  simpa [sleepCode] using (waits_busyWaitCode c).called (.instr .busyWait) hbefore hafter

theorem late_doneCode : (doneCode c).all Micro.late = true := by
  unfold doneCode ackCode
  cases c.ackMode <;> rfl

/-- The end of a command, behind its operation. -/
theorem late_done_end : (doneCode c ++ endCode).all Micro.late = true := by
  rw [List.all_append, late_doneCode]
  rfl

theorem waits_writeScreenCode (h : shapeOk c = true) : Waits c (writeScreenCode c) := by
  have hbefore : Straight (.setCurOp .writeScreen :: .setDState .exec :: callCode (.instr .ack) (ackCode c)) :=
    .cons rfl (.cons rfl ((straight_ackCode c).called _))
  have hafter : (.diagShape :: (doneCode c ++ endCode)).all Micro.late = true := late_done_end c
  simpa [writeScreenCode] using (waits_displayCode c h).called (.instr .display) hbefore hafter

theorem waits_clearScreenCode : Waits c (clearScreenCode c) := by
  have hbefore : Straight (.setCurOp .clearScreen :: .setDState .exec :: callCode (.instr .ack) (ackCode c)) :=
    .cons rfl (.cons rfl ((straight_ackCode c).called _))
  simpa [clearScreenCode] using (waits_clearCode c).called (.instr .clear) hbefore (late_done_end c)

theorem waits_ctlSleepCode : Waits c (ctlSleepCode c) := by
  have hbefore : Straight [.takeRequest, .setCurOp .ctlSleep, .setDState .exec] := .of_plain rfl
  simpa [ctlSleepCode] using (waits_sleepCode c).called (.instr .sleep) hbefore (after := endCode) rfl

/-! ### Initialize, with or without its wait -/

/-- A sequence is straight or waits once. -/
def Shaped (code : List Micro) : Prop := Straight code ∨ Waits c code

theorem Shaped.called {c : Cfg} {code before after : List Micro} (h : Shaped c code) (op : Operation)
    (hbefore : Straight before) (hafter : Straight after) (hlate : after.all Micro.late = true) :
    Shaped c (before ++ callCode op code ++ after) :=
  h.imp (fun h => (hbefore.append (h.called op)).append hafter) (fun h => h.called op hbefore hlate)

theorem shaped_initPanelCode : Shaped c (initPanelCode c) := by
  have hbefore : Straight (.enter .initPanel :: .setPState .initializing :: pulseCode c
      ++ callCode (.instr .btst) (btstCode c) ++ callCode (.instr .pon) (ponCode c)) :=
    ((Straight.check rfl (.cons rfl (straight_pulseCode c)) _).append ((straight_sendCode _ _).called _)).append
      ((straight_sendCode _ _).called _)
  have hafter : Straight (callCode (.instr .psr) (psrCode c) ++ callCode (.instr (.cdi c.cdiData)) (cdiCode c c.cdiData)
      ++ callCode (.instr .tres) (tresCode c) ++ [.setPState .idle]) :=
    ((((straight_sendCode _ _).called _).append ((straight_sendCode _ _).called _)).append
      ((straight_sendCode _ _).called _)).append (.of_plain rfl)
  have hlate : (callCode (.instr .psr) (psrCode c) ++ callCode (.instr (.cdi c.cdiData)) (cdiCode c c.cdiData)
      ++ callCode (.instr .tres) (tresCode c) ++ ([.setPState .idle] : List Micro)).all Micro.late = true := by
    simp only [List.all_append, callCode_all Micro.late_of_bus, psrCode, cdiCode, tresCode,
      sendCode_all Micro.late_of_bus]
    rfl
  unfold initPanelCode initWaitCode
  split
  · right
    simpa using (waits_busyWaitCode c).called (.instr .busyWait) hbefore hlate
  · left
    simpa using hbefore.append hafter

theorem shaped_ctlInitCode : Shaped c (ctlInitCode c) := by
  have hbefore : Straight [.takeRequest, .setCurOp .ctlInit, .setDState .exec] := .of_plain rfl
  simpa [ctlInitCode] using
    (shaped_initPanelCode c).called (.instr .initPanel) hbefore (after := endCode) (.of_plain rfl) rfl

theorem shaped_bootCode : Shaped c (bootCode c) := by
  have hbefore : Straight [.arm] := .of_plain rfl
  simpa [bootCode] using
    (shaped_initPanelCode c).called (.instr .initPanel) hbefore (after := [.setDState .await]) (.of_plain rfl) rfl

theorem shaped_instrCode (h : shapeOk c = true) (i : Instr) : Shaped c (instrCode c i) := by
  cases i with
  | sendBuffer => exact .inl (straight_sendBufferCode c)
  | writeScreen => exact .inr (waits_writeScreenCode c h)
  | clearScreen => exact .inr (waits_clearScreenCode c)
  | unknown op => exact .inl (.of_plain rfl)
  | ack => exact .inl (straight_ackCode c)
  | ctlInit => exact shaped_ctlInitCode c
  | ctlSleep => exact .inr (waits_ctlSleepCode c)
  | btst | pon | psr | cdi | tres | dslp => exact .inl (straight_sendCode _ _)
  | drf | flg | pof => exact .inl (straight_cmdCode _)
  | dtm1 src => exact .inl (straight_planeCode c .black src)
  | dtm2 src => exact .inl (straight_planeCode c .red src)
  | data b => exact .inl (.of_plain rfl)
  | initPanel => exact shaped_initPanelCode c
  | clear => exact .inr (waits_clearCode c)
  | display => exact .inr (waits_displayCode c h)
  | refresh => exact .inr (waits_refreshCode c)
  | sleep => exact .inr (waits_sleepCode c)
  | busyWait => exact .inr (waits_busyWaitCode c)

theorem shaped_opCode (h : shapeOk c = true) (op : Operation) : Shaped c (opCode c op) := by
  cases op with
  | boot => exact shaped_bootCode c
  | instr i => exact shaped_instrCode c h i
  | main | command | data | wait | pulse => exact .inl (.of_plain rfl)

/-! ### The first step of an operation -/

/-- A primitive that every run reaches, or a call. -/
def Micro.moves : Micro → Bool
  | .setLine _ _ => true
  | .arm => true
  | .txByte _ => true
  | .diag _ => true
  | .call _ => true
  | _ => false

/-- The block can stand at an operation's first step only before its first elementary step. -/
def leavesStart : List Micro → Bool
  | [] => true
  | m :: ms => m.moves || opensCall ms

theorem leavesStart_opCode (h : shapeOk c = true) (op : Operation) : leavesStart (opCode c op) = true := by
  cases op with
  | boot | main | command | data | wait | pulse => rfl
  | instr i =>
    cases i with
    | ack =>
      simp only [opCode, instrCode, ackCode]
      split <;> rfl
    | display => simp only [opCode, instrCode, displayCode, h]; rfl
    | dtm1 src | dtm2 src => cases src <;> rfl
    | _ => rfl

end

theorem Micro.place_ne_start_of_moves {m : Micro} (h : m.moves = true) (s : State) (op : Operation) :
    m.place s (Seq.start op) ≠ Seq.start op := by
  cases m
  case call op' => simp [Micro.place, Seq.enter, Seq.start]
  case setLine | arm | txByte | diag => exact Seq.next_ne_start (Seq.start op) op
  all_goals cases h

theorem placeAll_ne_start {p : Seq} {a : List Micro} {op : Operation} (hp : p ≠ Seq.start op) (s : State) :
    placeAll a p s ≠ Seq.start op := by
  induction a generalizing p s with
  | nil => exact hp
  | cons m a ih =>
    rw [placeAll]
    cases m.exec s with
    | go t => exact ih (Micro.place_ne_start hp m s) t
    | hold t => exact hp
    | gone t => exact hp
    | fault r => exact hp

theorem placeAll_ne_start_of_opensCall {a b : List Micro} {m : Micro} {op : Operation} {p : Seq} {s u v : State}
    (h : opensCall (a ++ m :: b) = true) (hw : walk p a s = .done u) (hm : m.reached v = true) :
    placeAll a p s ≠ Seq.start op := by
  induction a generalizing p s with
  | nil =>
    have hno := opensCall_of_stands (Micro.stands_of_reached hm) (Micro.ne_call_of_reached hm) b
    exact absurd (hno.symm.trans h) (by decide)
  | cons x a ih =>
    obtain ⟨t, hx, hw⟩ := walk_cons_done hw
    rw [placeAll_cons_go hx]
    obtain ⟨op', rfl⟩ | ⟨-, h⟩ := opensCall_cons h
    · exact placeAll_ne_start (by simp [Micro.place, Seq.enter, Seq.start]) t
    · exact ih h hw

/-- A run that still stands at its operation's first step has done nothing yet. -/
theorem nothing_done {a b : List Micro} {m : Micro} {op : Operation} {s u : State}
    (h : leavesStart (a ++ m :: b) = true) (hw : walk (Seq.start op) a s = .done u) (hm : m.reached u = true)
    (hq : placeAll a (Seq.start op) s = Seq.start op) : a = [] := by
  cases a with
  | nil => rfl
  | cons x a =>
    obtain ⟨t, hx, hw⟩ := walk_cons_done hw
    rw [placeAll_cons_go hx] at hq
    obtain hmoves | hcall := Bool.or_eq_true_iff.mp h
    · exact absurd hq (placeAll_ne_start (Micro.place_ne_start_of_moves hmoves s op) t)
    · exact absurd hq (placeAll_ne_start_of_opensCall hcall hw hm)

/-! ### Going on -/

theorem busyMaxPolls_of_wf {c : Cfg} (h : c.wf = true) : 1 ≤ c.busyMaxPolls := by
  simp only [Cfg.wf, List.all_eq_true] at h
  simpa [Cfg.passes] using h .ceiling (by simp [CfgCheck.all])

/-- From wherever a run of an operation stands, what is found there runs as what the run has left. -/
theorem run_restFrom {op : Operation} {a b : List Micro} {m : Micro} {s u v : State} {es : List EnvEvent}
    (hc : s.cfg.wf = true) (hcode : opCode s.cfg op = a ++ m :: b) (hw : walk (Seq.start op) a s = .done u)
    (hm : m.reached u = true) (hv : v = u.placed es (placeAll a (Seq.start op) s)) :
    run v.seq (restFrom op v (opCode s.cfg op)) v = run v.seq (m :: b) v := by
  have hshape := shapeOk_of_wf hc
  have hseq : v.seq = placeAll a (Seq.start op) s := by
    rw [hv]
    rfl
  unfold restFrom
  split
  · next hstart =>
    have ha : a = [] := nothing_done (hcode ▸ leavesStart_opCode _ hshape op) hw hm (hseq ▸ hstart)
    rw [hcode, ha, List.nil_append]
  · obtain hs | ⟨pre, post, h⟩ := shaped_opCode s.cfg hshape op
    · have hfind := seek_straight (es := es) (hcode ▸ hs) hw hm []
      rw [List.append_nil, List.append_nil, ← hv] at hfind
      rw [hcode, hfind]
    · have hmax := busyMaxPolls_of_wf hc
      rw [h.code_eq] at hcode ⊢
      obtain ⟨z, hz, rfl⟩ | ⟨a', rfl, ha'⟩ := append_eq_append_cons hcode
      · rw [hv, hz, seek_straight (hz ▸ h.straight_head) hw hm]
      · obtain ⟨w, hhead, hw⟩ := walk_done_append hw
        obtain ⟨j, y, z, k, hjk, rfl, hy, rfl⟩ | ⟨a'', rfl, ha''⟩ := passes_split ha'
        · exact h.run_in_loop rfl hmax hjk hy hhead hw hm hv _
        · cases a'' with
          | nil =>
            obtain ⟨rfl, -⟩ := List.cons_eq_cons.mp ha''
            cases hm
          | cons x a =>
            obtain ⟨rfl, hpost⟩ : Micro.pollExit = x ∧ post = a ++ m :: b := List.cons_eq_cons.mp ha''
            rw [hpost, h.seek_behind rfl hmax hpost hhead hw hm hv]

theorem placeAll_op (a : List Micro) (p : Seq) (s : State) : (placeAll a p s).op = p.op := by
  induction a generalizing p s with
  | nil => rfl
  | cons m a ih =>
    rw [placeAll]
    cases m.exec s with
    | go t => exact (ih _ t).trans (Micro.place_op m s p)
    | hold t => rfl
    | gone t => rfl
    | fault r => rfl

theorem walk_dstate {p : Seq} {a : List Micro} {s u : State} (ha : ∀ m ∈ a, m ≠ .setDState .faulted)
    (hd : s.dstate ≠ .faulted) (h : walk p a s = .done u) : u.dstate ≠ .faulted := by
  induction a generalizing p s with
  | nil => cases h; exact hd
  | cons m a ih =>
    obtain ⟨t, hx, h⟩ := walk_cons_done h
    exact ih (fun k hk => ha k (List.mem_cons_of_mem m hk)) (Micro.go_dstate (ha m List.mem_cons_self) hd hx) h

/-- From wherever a run of an operation stands, the next step goes on with what the run has left. -/
theorem step_goes_on {op : Operation} {a b : List Micro} {m : Micro} {s u : State} (hc : s.cfg.wf = true)
    (hd : s.dstate ≠ .faulted) (hcode : opCode s.cfg op = a ++ m :: b) (hw : walk (Seq.start op) a s = .done u)
    (hm : m.reached u = true) {q : Seq} (hq : q = placeAll a (Seq.start op) s) (es : List EnvEvent) :
    step (u.placed es q) = run q (m :: b) (u.placed es q) := by
  have hop : q.op = op := hq ▸ placeAll_op a _ s
  have hcfg : u.cfg = s.cfg := (walk_done_follows hw).cfg
  have hu : u.dstate ≠ .faulted := by
    refine walk_dstate (fun k hk => opCode_ne_faulted s.cfg op k ?_) hd hw
    rw [hcode]
    exact List.mem_append_left _ hk
  have hwaits : ¬ (u.placed es q).Waits := by
    refine not_or.mpr ⟨hu, fun hmain => ?_⟩
    have hmain : op = .main := hop.symm.trans hmain
    rw [hmain] at hcode
    exact absurd hcode (by simp [opCode])
  have hstep := step_continues (s := u.placed es q) (by exact hcfg ▸ hc) hwaits es
  have hfound := run_restFrom (v := u.placed es q) hc hcode hw hm (by rw [hq])
  calc step (u.placed es q)
      = run q (restFrom q.op (u.placed es q) (opCode u.cfg q.op)) (u.placed es q) := hstep
    _ = run q (restFrom op (u.placed es q) (opCode s.cfg op)) (u.placed es q) := by rw [hop, hcfg]
    _ = run q (m :: b) (u.placed es q) := hfound

/-- Settles O10: an operation is straight or waits once (`shaped_opCode`), and in both shapes what is found is, or runs
as, what is left. -/
theorem stepContinuesAtThePosition : Obligations.StepContinuesAtThePosition := by
  unfold Obligations.StepContinuesAtThePosition
  refine ⟨fun s i hc hd hop => ⟨fun hs => ?_, step_instr hc hd hop⟩,
    fun op a b m s u t v es hc hd hcode hw hx hv => ?_⟩
  · rw [step_instr hc hd hop, restFrom, if_pos hs, hs, exec_eq]
  · have hgo := step_goes_on hc hd hcode hw (Micro.reached_of_hold hx) rfl es
    rw [hv]
    exact hgo

end Sys2Proof.Machine
end

section
/-! The model's own pause loses nothing (log entry 6): a step that is divided goes on to where the undivided one ends. -/

namespace Sys2Proof.Machine

section
variable {s u v t : State} {op : Operation} {a b : List Micro} {m : Micro} {n : Nat} {q : Seq}

/-- Where a run of an operation stands after a number of quiet moments, the next step goes on with what is left. -/
theorem GetsTo.step_goes_on (hg : GetsTo (Seq.start op) a s n q u) (hc : s.cfg.wf = true) (hd : s.dstate ≠ .faulted)
    (hcode : opCode s.cfg op = a ++ m :: b) (hm : m.reached u = true) (es : List EnvEvent) :
    step { u with env := es, seq := q } = run q (m :: b) { u with env := es } := by
  obtain ⟨hw, hq⟩ := hg.alone s.seq
  have hm' : m.reached (u.placed [] s.seq) = true := by rw [Micro.reached_placed]; exact hm
  have h := Machine.step_goes_on (s := s.placed [] s.seq) hc hd hcode hw hm' hq.symm es
  exact h.trans (run_placed q _ u es q)

/-- A step from `v` goes on where a step from `s` has used up `n` quiet moments. -/
structure GoesOn (s v : State) (n : Nat) : Prop where
  quiet : ∀ es, step { v with env := es } = step { s with env := List.replicate n .quiet ++ es }
  alone : step { v with env := [] } = step { s with env := [] }

/-- A step that begins an operation, or takes an input, loses nothing by a pause. -/
theorem goesOn_of_pause (hc : s.cfg.wf = true) (hs : s.seq = Seq.start s.seq.op ∨ s.seq.op = .main)
    (h : step { s with env := List.replicate n .quiet ++ [.pause] } = .next v) (hv : v.env = []) : GoesOn s v n := by
  obtain ⟨p, a, m, b, s₀, k, j, q, w, hb, rfl, hg, hm⟩ | ⟨rfl, hw⟩ | hend := step_gets_to_or_ends hc n
  · obtain ⟨op, rfl, hcode, hd⟩ := hb.first hs
    have hgo := hg.step_goes_on (hb.follows.cfg ▸ hc) hd hcode.symm hm
    cases (hb.step_pause hg hm).symm.trans h
    exact ⟨fun es => (hgo es).trans (hb.step_quiet hg es).symm, (hgo []).trans (hb.step_alone hg).symm⟩
  · cases (step_waits_hold (s := { s with env := [.pause] }) hc hw (.inl rfl)).symm.trans h
    exact ⟨fun _ => rfl, rfl⟩
  · have hlast := hend [.pause] v h
    rw [hv, List.suffix_nil] at hlast
    cases hlast

/-- Nor does it by any number of pauses. -/
theorem GoesOn.pausedThrough (hc : s.cfg.wf = true) (hs : s.seq = Seq.start s.seq.op ∨ s.seq.op = .main)
    {ns : List Nat} (hg : GoesOn s v n) (hv : v.env = []) (hp : PausedThrough ns v t) :
    step t = step { s with env := [] } := by
  induction ns generalizing v n with
  | nil =>
    obtain rfl : t = v := hp
    rw [← hg.alone, ← hv]
  | cons k ns ih =>
    obtain ⟨w, hstep, hw, hp⟩ := hp
    rw [hg.quiet, ← List.append_assoc, ← List.replicate_add] at hstep
    exact ih (goesOn_of_pause hc hs hstep hw) hw hp

end

/-- An instruction is the step at its first step, wherever the block stood before. -/
theorem exec_eq_step {s : State} (hc : s.cfg.wf = true) (hd : s.dstate ≠ .faulted) (i : Instr) :
    exec i s = step { s with seq := Seq.start (.instr i) } := by
  rw [step_instr (s := { s with seq := Seq.start (.instr i) }) hc hd rfl, restFrom, if_pos rfl, exec_eq]
  exact (run_reseat _ _ s _).symm

/-- Settles O49: each pause leaves the block where a step goes on as the undivided one does (`GoesOn`). -/
theorem pausedOperationGoesOn : Obligations.PausedOperationGoesOn := by
  unfold Obligations.PausedOperationGoesOn
  refine ⟨fun i s t u n hc hd hq hu ht he => ?_, fun s t u ns hc hq hs hu hp => ?_⟩
  · rw [exec_eq_step (s := { s with env := List.replicate n .quiet ++ [.pause] }) hc hd] at ht
    have hg := goesOn_of_pause (s := { s with seq := Seq.start (.instr i) }) hc (.inl rfl) ht he
    have hs : { s with seq := Seq.start (.instr i), env := [] } = { s with seq := Seq.start (.instr i) } := by
      rw [← show s.env = [] from hq]
    have ht : { t with env := [] } = t := by rw [← he]
    calc step t
        = step { s with seq := Seq.start (.instr i), env := [] } := by rw [← hg.alone, ht]
      _ = exec i s := by rw [hs, exec_eq_step hc hd]
      _ = .next u := hu
  · have hs0 : { s with env := [] } = s := by rw [← show s.env = [] from hq]
    have h0 : GoesOn s s 0 := ⟨fun _ => rfl, rfl⟩
    rw [h0.pausedThrough hc hs hq hp, hs0, hu]

end Sys2Proof.Machine
end

section
/-! The store and the link outside Send-Buffer (R66, R70, R170): while the environment is quiet, no elementary step of
another instruction writes a cell or `rx_idx` or takes a byte from the link. -/

namespace Sys2Proof.Machine

/-- The link is read by the `RxByte()` of the payload loop alone (R172). -/
theorem Micro.go_rx {m : Micro} {s t : State} (hm : m ≠ .rxPayload) (h : m.exec s = .go t) : t.rx = s.rx := by
  have kept {f : State → State} (h : (s.primitive fun u => .go (f u)) = .go t) (hf : ∀ u, (f u).rx = u.rx) :
      t.rx = s.rx := by
    obtain ⟨es, ds, q, -, h⟩ := State.primitive_go h
    cases h
    exact hf _
  have same {u : State} (h : Flow.go u = .go t) (hu : u.rx = s.rx) : t.rx = s.rx := by
    cases h
    exact hu
  cases m
  case rxPayload => exact absurd rfl hm
  case setLine l v => exact kept h (·.setLine_rx l v)
  case spiWrite | spiHeld | arm | feed | delay | txByte | diag | diagDone => exact kept h fun _ => rfl
  case raiseFrameSize => exact kept (f := id) h fun _ => rfl
  case memRead i =>
    obtain ⟨es, ds, q, -, h⟩ := State.primitive_go h
    obtain rfl := readCell_go h
    exact State.memRead_rx _ i
  case enter op =>
    simp only [Micro.exec] at h
    split at h
    · exact same h rfl
    · obtain ⟨es, ds, q, -, h⟩ := State.primitive_go h
      cases h
  case bumpIdx =>
    simp only [Micro.exec] at h
    split at h <;> exact same h rfl
  case pollSample =>
    simp only [Micro.exec] at h
    split at h
    · refine kept h fun u => ?_
      obtain ⟨on, late, hp, -⟩ := u.poll_cases
      rw [hp]
    · exact same h rfl
  case memWrite | pollFeed | pollDiag | pollDelay | diagShape =>
    simp only [Micro.exec] at h
    split at h
    · exact kept h fun _ => rfl
    · exact same h rfl
  case setPState | setDState | setCurOp | startPayload | takeRequest | setResult | call | ret | pollHead | pollExit |
      openSession | closeSession => exact same h rfl

/-- The store, the link and the count of stored payload bytes are as they were. -/
structure State.KeepsLink (s t : State) : Prop where
  fb : t.fb = s.fb
  rx : t.rx = s.rx
  rxIdx : t.rxIdx = s.rxIdx

theorem State.KeepsLink.trans {s t u : State} (h : s.KeepsLink t) (k : t.KeepsLink u) : s.KeepsLink u :=
  ⟨k.fb.trans h.fb, k.rx.trans h.rx, k.rxIdx.trans h.rxIdx⟩

theorem Micro.NoLink.ne_rxPayload {m : Micro} (hm : m.NoLink) : m ≠ .rxPayload := by
  rintro rfl
  exact hm

theorem Micro.NoLink.go_keepsLink {m : Micro} {s t : State} (hm : m.NoLink) (h : m.exec s = .go t) :
    s.KeepsLink t where
  fb := (Micro.exec_frame h).fb (by rintro rfl; exact hm)
  rx := Micro.go_rx hm.ne_rxPayload h
  rxIdx := (Micro.exec_frame h).rxIdx (by rintro rfl; exact hm) (by rintro rfl; exact hm)

/-- A block left alone ends such a step by the fault of an entry check or goes on. -/
theorem Micro.NoLink.exec_keepsLink {m : Micro} {s t : State} (hm : m.NoLink) (ht : t.env = [] ∧ s.KeepsLink t) :
    (m.exec t).Meets (fun u => u.env = [] ∧ s.KeepsLink u) s.KeepsLink (fun _ => False) True := by
  obtain ⟨hq, hk⟩ := ht
  cases h : m.exec t with
  | go u => exact ⟨List.suffix_nil.mp (hq ▸ (Micro.exec_frame h).env), hk.trans (hm.go_keepsLink h)⟩
  | hold u =>
    obtain ⟨es, he, -⟩ | ⟨es, ds, q, -, ⟨hrx, -⟩ | ⟨op, -, -, rfl⟩⟩ := Micro.exec_hold h
    · simp [hq] at he
    · exact absurd hrx hm.ne_rxPayload
    · exact ⟨hk.fb, hk.rx, hk.rxIdx⟩
  | gone u =>
    obtain ⟨e, es, cause, he, -⟩ := Micro.exec_gone h
    simp [hq] at he
  | fault r => trivial

theorem run_keepsLink {p : Seq} {ms : List Micro} {s t : State} (hm : ∀ m ∈ ms, m.NoLink) (hq : s.env = [])
    (h : run p ms s = .next t) : s.KeepsLink t := by
  have hw := walk_meets (fun m hmem _ hu => (hm m hmem).exec_keepsLink hu) ⟨hq, State.KeepsLink.mk rfl rfl rfl⟩ p
  obtain ⟨u, hu, rfl⟩ | ⟨u, q, hu, rfl⟩ | hu := run_meets hw h
  · exact ⟨hu.2.fb, hu.2.rx, hu.2.rxIdx⟩
  · exact ⟨hu.fb, hu.rx, hu.rxIdx⟩
  · exact hu.elim

/-- Settles O43: no elementary step of another instruction writes there (`instrCode_noLink`, `run_keepsLink`). -/
theorem onlySendBufferReceivesAndStores : Obligations.OnlySendBufferReceivesAndStores := by
  unfold Obligations.OnlySendBufferReceivesAndStores
  intro i s t hq hi ht
  rw [exec_eq] at ht
  obtain ⟨hfb, hrx, hidx⟩ := run_keepsLink (fun m hm => (instrCode_noLink s.cfg i hi m hm).2) hq ht
  exact ⟨fun a => by rw [hfb], hfb, hrx, hidx⟩

end Sys2Proof.Machine
end

section
/-! That a machine that was built never stops (R61, R158, R182): only a read outside the store stops an elementary step,
and the operations read cells of the two planes alone, which a CFG of R6 has. -/

namespace Sys2Proof.Machine

/-! ### Elementary steps -/

/-- A primitive stops the machine by its own effect only, which finds the same configuration. -/
theorem State.primitive_ne_fault {s : State} {f : State → Flow} {r : Fault}
    (hf : ∀ t, t.cfg = s.cfg → f t ≠ .fault r) : s.primitive f ≠ .fault r := by
  unfold State.primitive
  cases hm : s.moment with
  | pass t => exact hf t (State.moment_keeps_cfg (.inl hm))
  | reset t => simp
  | hold t => simp

theorem receivePayload_ne_fault (s : State) (r : Fault) : receivePayload s ≠ .fault r := by
  unfold receivePayload
  split <;> simp

theorem readCell_ne_fault {i : Nat} {s : State} (hi : i < s.cfg.payloadLen) (r : Fault) : readCell i s ≠ .fault r := by
  simp [readCell, hi]

/-- An elementary step that reads no cell outside the store. -/
def Micro.ReadsInside (c : Cfg) (m : Micro) : Prop := ∀ i, m = .memRead i → i < c.payloadLen

/-- Nothing but such a read stops the machine (R61). -/
theorem Micro.ReadsInside.exec_ne_fault {m : Micro} {s : State} (hm : m.ReadsInside s.cfg) (r : Fault) :
    m.exec s ≠ .fault r := by
  have goes {f : State → State} : (s.primitive fun t => .go (f t)) ≠ .fault r :=
    State.primitive_ne_fault fun _ _ => by simp
  cases m
  case memRead i => exact State.primitive_ne_fault fun t ht => readCell_ne_fault (ht ▸ hm i rfl) r
  case setLine | spiWrite | spiHeld | arm | feed | delay | txByte | diag | diagDone => exact goes
  case raiseFrameSize => exact goes (f := id)
  case rxPayload =>
    simp only [Micro.exec]
    split
    · exact State.primitive_ne_fault fun t _ => receivePayload_ne_fault t r
    · simp
  case enter op =>
    simp only [Micro.exec]
    split
    · simp
    · exact State.primitive_ne_fault fun _ _ => by simp
  case bumpIdx =>
    simp only [Micro.exec]
    split <;> simp
  case memWrite | pollFeed | pollSample | pollDiag | pollDelay | diagShape =>
    simp only [Micro.exec]
    split
    · exact goes
    · simp
  case setPState | setDState | setCurOp | startPayload | takeRequest | setResult | call | ret | pollHead | pollExit |
      openSession | closeSession => simp [Micro.exec]

theorem Micro.ReadsInside.exec_answers {c : Cfg} {m : Micro} (hm : m.ReadsInside c) {s : State} (hs : s.cfg = c) :
    (m.exec s).Meets (·.cfg = c) (·.cfg = c) (·.cfg = c) False := by
  have hc := m.exec_hasCfg hs
  cases h : m.exec s with
  | go t => rw [h] at hc; exact hc
  | hold t => rw [h] at hc; exact hc
  | gone t => rw [h] at hc; exact hc
  | fault r => exact Micro.ReadsInside.exec_ne_fault (hs ▸ hm) r h

/-! ### Operations -/

/-- The sequences of all operations read cells of the two planes only (R62, R124). -/
theorem opCode_readsInside {c : Cfg} (hc : c.wf = true) (op : Operation) : ∀ m ∈ opCode c op, m.ReadsInside c := by
  have plain {m : Micro} (h : m.Plain c) : m.ReadsInside c := by
    rintro i rfl
    rw [payloadLen_of_wf hc]
    exact h
  intro m hm
  cases op with
  | boot =>
    obtain rfl | h := List.mem_cons.mp (show m ∈ Micro.arm :: (bootCode c).tail from hm)
    · exact fun i hi => by cases hi
    · exact plain (bootCode_plain c m h)
  | instr i => exact plain (instrCode_plain c i m hm)
  | main | command | data | wait | pulse => simp [opCode] at hm

theorem run_answers {p : Seq} {ms : List Micro} {s : State} (hm : ∀ m ∈ ms, m.ReadsInside s.cfg) :
    ∃ t, run p ms s = .next t := by
  have hw := walk_meets (fun m hmem _ hu => (hm m hmem).exec_answers hu) (rfl : s.cfg = s.cfg) p
  unfold run
  cases h : walk p ms s with
  | done t => exact ⟨_, rfl⟩
  | held q t => exact ⟨_, rfl⟩
  | gone t => exact ⟨_, rfl⟩
  | fault r => rw [h] at hw; exact hw.elim

theorem exec_answers (i : Instr) {s : State} (hc : s.cfg.wf = true) : ∃ t, exec i s = .next t := by
  rw [exec_eq]
  exact run_answers (opCode_readsInside hc (.instr i))

/-! ### The step -/

theorem takeInput_answers (x : Input × State) (hc : x.2.cfg.wf = true) : ∃ t, takeInput x = .next t := by
  obtain ⟨i, s⟩ := x
  cases i with
  | control q => exact exec_answers _ hc
  | byte b rest => exact exec_answers _ hc
  | nothing => exact ⟨_, rfl⟩

theorem processOne_answers {s : State} (hc : s.cfg.wf = true) : ∃ t, processOne s = .next t := by
  cases hm : s.moment with
  | pass t =>
    have hcfg : (nextInput t).2.cfg = s.cfg := (nextInput_cfg t).trans (State.moment_keeps_cfg (.inl hm))
    rw [processOne_of_pass hm]
    exact takeInput_answers (nextInput t) (hcfg ▸ hc)
  | reset t => exact ⟨t, by rw [processOne, hm]⟩
  | hold t => exact ⟨t, by rw [processOne, hm]⟩

theorem idleFaulted_answers (s : State) : ∃ t, idleFaulted s = .next t := by
  unfold idleFaulted
  cases s.moment <;> exact ⟨_, rfl⟩

theorem continueAt_answers {s : State} (hc : s.cfg.wf = true) : ∃ t, continueAt s = .next t := by
  unfold continueAt
  split
  · exact processOne_answers hc
  · exact run_answers fun m hm => opCode_readsInside hc s.seq.op m (mem_of_mem_restFrom hm)

/-- Settles O47: what a step runs reads inside the store (`opCode_readsInside`), and nothing else stops it. -/
theorem builtMachineAlwaysSteps : Obligations.BuiltMachineAlwaysSteps := by
  unfold Obligations.BuiltMachineAlwaysSteps
  intro s hc
  rw [step_eq hc, stepBuilt]
  split
  · exact idleFaulted_answers s
  · exact continueAt_answers hc

end Sys2Proof.Machine
end

section
/-! The pixels of a plane in the store (R62, R63): the bytes of a row lie together, the rows one after the other. -/

namespace Sys2Proof.Machine

/-- A row has a byte for every eight pixels, begun ones included (R5). -/
theorem Cfg.byte_lt_bpr {c : Cfg} {x : Nat} (h : x < c.width) : x / 8 < c.bpr := by
  unfold Cfg.bpr
  omega

/-- A byte of a row inside the panel is one of the plane's cells. -/
theorem byteIndex_lt {c : Cfg} {x y : Nat} (p : Plane) (hx : x < c.width) (hy : y < c.height) :
    byteIndex c p x y < planeBase c p + c.planeSize := by
  have hrow : x / 8 + c.bpr * y < c.planeSize := Nat.add_mul_lt_mul_of_lt_of_lt (Cfg.byte_lt_bpr hx) hy
  rw [byteIndex, Nat.mul_comm y]
  omega

/-- A cell of a plane is one byte of one row. -/
theorem byteIndex_inj {c : Cfg} {p : Plane} {x y x' y' : Nat} (hx : x < c.width) (hx' : x' < c.width)
    (h : byteIndex c p x y = byteIndex c p x' y') : x / 8 = x' / 8 ∧ y = y' := by
  have hb := Cfg.byte_lt_bpr hx
  have hb' := Cfg.byte_lt_bpr hx'
  have hrow : x / 8 + c.bpr * y = x' / 8 + c.bpr * y' := by
    simp only [byteIndex, Nat.mul_comm _ c.bpr] at h
    omega
  constructor
  · have hmod := congrArg (· % c.bpr) hrow
    simpa [Nat.mod_eq_of_lt, hb, hb'] using hmod
  · have hdiv := congrArg (· / c.bpr) hrow
    simpa [Nat.add_mul_div_left _ _ (Nat.zero_lt_of_lt hb), Nat.div_eq_of_lt, hb, hb'] using hdiv

/-- Settles O50: the cell gives the row and the byte in it (`byteIndex_inj`), the bit the pixel in that byte. -/
theorem pixelsAreDistinctBits : Obligations.PixelsAreDistinctBits := by
  unfold Obligations.PixelsAreDistinctBits
  intro c p x y x' y' hx hy hx' hy'
  refine ⟨?_, byteIndex_lt p hx hy, Nat.sub_le 7 _, fun hcell hbit => ?_⟩
  · rw [byteIndex, Nat.add_assoc]
    exact Nat.le_add_right _ _
  · obtain ⟨hbyte, hrow⟩ := byteIndex_inj hx hx' hcell
    unfold pixelBit at hbit
    exact ⟨by omega, hrow⟩

end Sys2Proof.Machine
end

section
/-! The decoder and the encoder of the words (R80 to R90): each is the other's inverse. -/

namespace Sys2Proof

/-! ### A host byte (R82, R83, R84) -/

theorem Cfg.opcodes_distinct {c : Cfg} (h : c.wf = true) :
    c.opSendBuffer ≠ c.opWriteScreen ∧ c.opSendBuffer ≠ c.opClearScreen ∧ c.opWriteScreen ≠ c.opClearScreen :=
  c.passes_opcodesDistinct_iff.mp (c.wf_iff_passes.mp h _)

@[simp] theorem decodeHost_opSendBuffer (c : Cfg) : decodeHost c c.opSendBuffer = .sendBuffer := if_pos rfl

theorem decodeHost_opWriteScreen {c : Cfg} (h : c.wf = true) : decodeHost c c.opWriteScreen = .writeScreen := by
  obtain ⟨hsw, -, -⟩ := Cfg.opcodes_distinct h
  rw [decodeHost, if_neg hsw.symm, if_pos rfl]

theorem decodeHost_opClearScreen {c : Cfg} (h : c.wf = true) : decodeHost c c.opClearScreen = .clearScreen := by
  obtain ⟨-, hsc, hwc⟩ := Cfg.opcodes_distinct h
  rw [decodeHost, if_neg hsc.symm, if_neg hwc.symm, if_pos rfl]

/-- The unknown class is every byte but the three opcodes (R84). -/
theorem decodeHost_eq_unknown_iff (c : Cfg) (b : Byte) : decodeHost c b = .unknown b ↔
    b ≠ c.opSendBuffer ∧ b ≠ c.opWriteScreen ∧ b ≠ c.opClearScreen := by
  unfold decodeHost
  split_ifs <;> simp [*]

@[simp] theorem frameLength_opSendBuffer (c : Cfg) : frameLength c c.opSendBuffer = 1 + c.payloadLen := if_pos rfl

theorem frameLength_of_ne {c : Cfg} {b : Byte} (h : b ≠ c.opSendBuffer) : frameLength c b = 1 := if_neg h

/-- A host byte is the word of the instruction it decodes to. -/
@[simp] theorem encode_decodeHost (c : Cfg) (b : Byte) : encode c (decodeHost c b) = [.host b] := by
  unfold decodeHost
  split_ifs with hs hw hc <;> simp [encode, *]

@[simp] theorem encode_decodeControl (c : Cfg) (q : CtlReq) : encode c (decodeControl q) = [.ctl q] := by
  cases q <;> rfl

/-- Settles O2: the map and the length at each of the three opcodes, and at a byte that is none of them. -/
theorem firstByteDecidesFrame : Obligations.FirstByteDecidesFrame := by
  unfold Obligations.FirstByteDecidesFrame
  intro c b h
  obtain ⟨hsw, hsc, -⟩ := Cfg.opcodes_distinct h
  refine ⟨?_, ?_, ?_, fun hs hw hc => ⟨(decodeHost_eq_unknown_iff c b).mpr ⟨hs, hw, hc⟩, frameLength_of_ne hs⟩⟩
  · rintro rfl
    exact ⟨decodeHost_opSendBuffer c, frameLength_opSendBuffer c⟩
  · rintro rfl
    exact ⟨decodeHost_opWriteScreen h, frameLength_of_ne hsw.symm⟩
  · rintro rfl
    exact ⟨decodeHost_opClearScreen h, frameLength_of_ne hsc.symm⟩

/-- Three different bytes are three of the 256 values: the numbers below 256 that give one of them are their own. -/
theorem countP_range_mem_three {x y z : Byte} (hxy : x ≠ y) (hxz : x ≠ z) (hyz : y ≠ z) :
    ((List.range 256).countP fun n => BitVec.ofNat 8 n ∈ [x, y, z]) = 3 := by
  have hperm : ((List.range 256).filter fun n => BitVec.ofNat 8 n ∈ [x, y, z]).Perm [x.toNat, y.toNat, z.toNat] := by
    refine (List.perm_ext_iff_of_nodup (List.nodup_range.filter _) ?_).mpr fun n => ?_
    · simp [BitVec.toNat_inj, hxy, hxz, hyz]
    · simp only [List.mem_filter, List.mem_range, List.mem_cons, List.not_mem_nil, or_false, decide_eq_true_eq]
      bv_omega
  rw [List.countP_eq_length_filter, hperm.length_eq]
  rfl

/-- Settles O3: the bytes outside the unknown class are the three opcodes. -/
theorem unknownClassHas253Bytes : Obligations.UnknownClassHas253Bytes := by
  unfold Obligations.UnknownClassHas253Bytes
  intro c h
  obtain ⟨hsw, hsc, hwc⟩ := Cfg.opcodes_distinct h
  have hclass : ∀ n, (decodeHost c (BitVec.ofNat 8 n) == .unknown (BitVec.ofNat 8 n)) =
      !decide (BitVec.ofNat 8 n ∈ [c.opSendBuffer, c.opWriteScreen, c.opClearScreen]) := by
    intro n
    rw [Bool.eq_iff_iff, beq_iff_eq, decodeHost_eq_unknown_iff]
    simp
  have hall := List.length_eq_countP_add_countP (l := List.range 256)
    fun n => decide (BitVec.ofNat 8 n ∈ [c.opSendBuffer, c.opWriteScreen, c.opClearScreen])
  simp only [countP_range_mem_three hsw hsc hwc, List.length_range, Bool.not_eq_true, Bool.decide_eq_false] at hall
  simp only [hclass]
  omega

/-! ### Commands and their data words (R87) -/

theorem dataRun_append (ds : List Byte) {rest : List Wire} (h : ∀ b ws, rest ≠ .data b :: ws) :
    dataRun (ds.map .data ++ rest) = ds := by
  induction ds with
  | nil =>
    unfold dataRun
    split
    · exact absurd ‹_› (h _ _)
    · rfl
  | cons d ds ih => exact congrArg (d :: ·) ih

theorem afterData_append (ds : List Byte) {rest : List Wire} (h : ∀ b ws, rest ≠ .data b :: ws) :
    afterData (ds.map .data ++ rest) = rest := by
  induction ds with
  | nil =>
    unfold afterData
    split
    · exact absurd ‹_› (h _ _)
    · rfl
  | cons d ds ih => exact ih

/-- The data words that belong to a command, and the words after them, are all the words. -/
theorem dataRun_append_afterData (ws : List Wire) : (dataRun ws).map .data ++ afterData ws = ws := by
  induction ws with
  | nil => rfl
  | cons w ws ih =>
    cases w with
    | data b => exact congrArg (.data b :: ·) ih
    | _ => rfl

/-! ### The panel command table (R88) -/

theorem fixedData_eq_ok_iff {b : Byte} {want got : List Byte} {i j : Instr} :
    fixedData b want got j = .ok i ↔ got = want ∧ j = i := by
  unfold fixedData
  split_ifs with h <;> simp [h]

@[simp] theorem fixedData_self (b : Byte) (ds : List Byte) (i : Instr) : fixedData b ds ds i = .ok i := if_pos rfl

theorem Cfg.planeSize_pos {c : Cfg} (h : c.wf = true) : 0 < c.planeSize := by
  obtain ⟨hw, hh⟩ := c.passes_geometry_iff.mp (c.wf_iff_passes.mp h _)
  have hb : 0 < c.bpr := by unfold Cfg.bpr; omega
  exact Nat.mul_pos hb hh

/-- What reads as the source of a plane is the data words of that source. -/
theorem planeData_of_planeSource {c : Cfg} {b : Byte} {ds : List Byte} {src : PlaneSrc}
    (h : planeSource c b ds = .ok src) : planeData c src = ds := by
  cases ds with
  | nil => cases h; rfl
  | cons d ds =>
    rw [planeSource] at h
    split_ifs at h with hds
    cases h
    exact hds.symm

/-- A plane that is streamed has a byte, so a constant is not taken for the store. -/
theorem planeSource_planeData {c : Cfg} (h : c.wf = true) (b : Byte) (src : PlaneSrc) :
    planeSource c b (planeData c src) = .ok src := by
  cases src with
  | store => rfl
  | const d =>
    obtain ⟨n, hn⟩ := Nat.exists_eq_add_one.mpr (Cfg.planeSize_pos h)
    simp [planeData, planeSource, hn, List.replicate_succ]

theorem map_planeSource {c : Cfg} {b : Byte} {ds : List Byte} {f : PlaneSrc → Instr} {i : Instr}
    (h : (planeSource c b ds).map f = .ok i) : ∃ src, planeData c src = ds ∧ f src = i := by
  cases hs : planeSource c b ds with
  | error => rw [hs] at h; cases h
  | ok src => rw [hs] at h; cases h; exact ⟨src, planeData_of_planeSource hs, rfl⟩

/-- An answer of the command table is right for a command byte and its data bytes: where it is an instruction, they are
that instruction's words. -/
def AnswersFor (c : Cfg) (b : Byte) (ds : List Byte) (answer : Except DecodeError Instr) : Prop :=
  ∀ i, answer = .ok i → encode c i = panelWords b ds

theorem AnswersFor.error (c : Cfg) (b : Byte) (ds : List Byte) (why : DecodeError) :
    AnswersFor c b ds (.error why) := nofun

theorem AnswersFor.row {c : Cfg} {b command : Byte} {ds : List Byte} {x y : Except DecodeError Instr}
    (hx : AnswersFor c command ds x) (hy : AnswersFor c b ds y) : AnswersFor c b ds (if b = command then x else y) := by
  split
  · next hb => exact hb ▸ hx
  · exact hy

theorem AnswersFor.fixed {c : Cfg} {b command : Byte} {want : List Byte} {i : Instr}
    (h : encode c i = panelWords command want) (ds : List Byte) :
    AnswersFor c command ds (fixedData b want ds i) := by
  intro j hj
  obtain ⟨rfl, rfl⟩ := fixedData_eq_ok_iff.mp hj
  exact h

theorem AnswersFor.plane {c : Cfg} {b command : Byte} {f : PlaneSrc → Instr}
    (h : ∀ src, encode c (f src) = panelWords command (planeData c src)) (ds : List Byte) :
    AnswersFor c command ds ((planeSource c b ds).map f) := by
  intro j hj
  obtain ⟨src, rfl, rfl⟩ := map_planeSource hj
  exact h src

/-- What the table reads as an instruction is that instruction's command byte and data bytes, row by row. -/
theorem encode_of_decodeCommand {c : Cfg} {b : Byte} {ds : List Byte} {i : Instr}
    (h : decodeCommand c b ds = .ok i) : encode c i = panelWords b ds := by
  have htable : AnswersFor c b ds (decodeCommand c b ds) := by
    refine .row (.fixed rfl ds) <| .row (.fixed rfl ds) <| .row (.fixed rfl ds) <| .row ?cdi <|
      .row (.fixed rfl ds) <| .row (.plane (fun _ => rfl) ds) <| .row (.plane (fun _ => rfl) ds) <|
      .row (.fixed rfl ds) <| .row (.fixed rfl ds) <| .row (.fixed rfl ds) <| .row (.fixed rfl ds) <| .error c b ds _
    case cdi =>
      intro j hj
      split at hj
      · cases hj
        rfl
      · cases hj
  exact htable i h

/-- Settles O5: by the first word; the words of a command are its byte and the data words after it. -/
theorem decodedWordsAreTheInstructions : Obligations.DecodedWordsAreTheInstructions := by
  unfold Obligations.DecodedWordsAreTheInstructions
  intro c ws rest i h
  match ws with
  | [] => cases h
  | .host b :: ws => cases h; rw [encode_decodeHost]; rfl
  | .ctl q :: ws => cases h; rw [encode_decodeControl]; rfl
  | .data b :: ws => cases h; rfl
  | .tx b :: ws =>
    rw [decode] at h
    split_ifs at h with hb
    cases h
    rw [hb]
    rfl
  | .command b :: ws =>
    rw [decode] at h
    split at h
    · next hi =>
      cases h
      rw [encode_of_decodeCommand hi, panelWords, List.cons_append, dataRun_append_afterData]
    · cases h

theorem decode_panelWords {c : Cfg} {i : Instr} {b : Byte} {ds : List Byte} {rest : List Wire}
    (hi : decodeCommand c b ds = .ok i) (hr : ∀ b ws, rest ≠ .data b :: ws) :
    decode c (panelWords b ds ++ rest) = .ok i rest := by
  simp [panelWords, decode, dataRun_append ds hr, afterData_append ds hr, hi]

/-- Settles O4: by the instruction; the command bytes the table asks for before an instruction's own are others. -/
theorem decodeEncodeRoundTrip : Obligations.DecodeEncodeRoundTrip := by
  unfold Obligations.DecodeEncodeRoundTrip
  intro c i rest h hd hi he hr
  have hne : c.panelCommands.reverse.Nodup := List.nodup_reverse.mpr hd
  simp only [Cfg.panelCommands, List.reverse_cons, List.reverse_nil, List.nil_append, List.cons_append,
    List.nodup_cons, List.mem_cons, not_or] at hne
  cases i with
  | sendBuffer => exact congrArg (Decoded.ok · rest) (decodeHost_opSendBuffer c)
  | writeScreen => exact congrArg (Decoded.ok · rest) (decodeHost_opWriteScreen h)
  | clearScreen => exact congrArg (Decoded.ok · rest) (decodeHost_opClearScreen h)
  | unknown op =>
    have hop : op ≠ c.opSendBuffer ∧ op ≠ c.opWriteScreen ∧ op ≠ c.opClearScreen := by
      simpa [Instr.wf, and_assoc] using hi
    exact congrArg (Decoded.ok · rest) ((decodeHost_eq_unknown_iff c op).mpr hop)
  | ack => exact if_pos rfl
  | ctlInit | ctlSleep | data => rfl
  | btst | pon | psr | cdi | tres | drf | flg | pof | dslp =>
    refine decode_panelWords ?_ hr
    unfold decodeCommand
    simp only [hne, ↓reduceIte, fixedData_self]
  | dtm1 src | dtm2 src =>
    refine decode_panelWords ?_ hr
    unfold decodeCommand
    simp only [hne, ↓reduceIte, planeSource_planeData h, Except.map]
  | initPanel | clear | display | refresh | sleep | busyWait => exact absurd rfl he

/-- Settles O1: each list of words is decoded. -/
theorem wordsOfTheTableDecode : Obligations.WordsOfTheTableDecode := by
  unfold Obligations.WordsOfTheTableDecode
  decide

end Sys2Proof
end

section
/-! What a number of the opcode table runs (log entry 16), and the two rows that only speak: the unknown opcode (R175)
and the ack (R176). -/

namespace Sys2Proof

theorem decodeHost_format (c : Cfg) (b : Byte) : (decodeHost c b).format = .hostCmd := by
  unfold decodeHost
  split_ifs <;> rfl

theorem format_of_row {p : Prop} [Decidable p] {row i : Instr} {rows : Option Instr} (hrow : row.format = .panelWord)
    (hrows : rows = some i → i.format = .panelWord) (h : (if p then some row else rows) = some i) :
    i.format = .panelWord := by
  split at h
  · cases h
    exact hrow
  · exact hrows h

/-- Each of the eleven rows the table asks for is a panel instruction. -/
theorem tableCommand_format {c : Cfg} {b : Byte} {i : Instr} : tableCommand c b = some i → i.format = .panelWord := by
  unfold tableCommand
  iterate 11 refine format_of_row rfl ?_
  nofun

/-- A number that stands for a host row stands for what the block's own decoder reads. -/
theorem eq_decodeHost_of_tableInstr {c : Cfg} {w : Nat} {i : Instr} (h : tableInstr c 8 w = some i)
    (hf : i.format = .hostCmd) : i = decodeHost c (BitVec.ofNat 8 w) := by
  rw [tableInstr, if_pos rfl] at h
  split at h
  · next hi =>
    cases h
    rw [tableCommand_format hi] at hf
    cases hf
  · cases h
    rfl

end Sys2Proof

namespace Sys2Proof.Machine

/-- A panel row is selected by the sequence position. -/
theorem State.withFetchWord_panel {s : State} {w : Nat} {i : Instr} (h : tableInstr s.cfg 8 w = some i)
    (hf : i.format = .panelWord) :
    s.withFetchWord 8 w = { s with dstate := .exec, seq := Seq.start (.instr i), env := [] } := by
  simp only [State.withFetchWord, placeTableWord, h]
  cases i with
  | sendBuffer | writeScreen | clearScreen | unknown => cases hf
  | _ => rfl

/-- A host row stands at the head of the link. -/
theorem State.withFetchWord_host {s : State} {w : Nat} {i : Instr} (h : tableInstr s.cfg 8 w = some i)
    (hf : i.format = .hostCmd) :
    ∃ payload, s.withFetchWord 8 w = placeHostByte s (BitVec.ofNat 8 w) payload := by
  simp only [State.withFetchWord, placeTableWord, h]
  cases i with
  | sendBuffer | writeScreen | clearScreen | unknown => exact ⟨_, rfl⟩
  | _ => cases hf

/-- R171: in the forever loop, with no request pending and a byte at hand, a step receives the byte and runs the
instruction it decodes to. -/
theorem step_byte {s : State} {b : Byte} {rest : List LinkSlot} (hc : s.cfg.wf = true) (hd : s.dstate ≠ .faulted)
    (hm : s.seq.op = .main) (hq : s.env = []) (hr : s.ctlReq = none) (hx : s.rx = .byte b :: rest) :
    step s = exec (decodeHost s.cfg b) (s.receive b rest) := by
  rw [step_main hc hd hm, processOne_of_pass (State.moment_of_quiet hq)]
  simp only [nextInput, hr, hx, takeInput]

/-- Settles O12: a panel row begins its sequence, a host row's byte is received and decoded (`step_byte`). -/
theorem stepRunsTheTableWord : Obligations.StepRunsTheTableWord := by
  unfold Obligations.StepRunsTheTableWord
  refine fun s w i hc ht => ⟨fun hf => ?_, fun hf => ?_⟩
  · rw [State.withFetchWord_panel ht hf]
    exact (exec_eq_step (s := { s with dstate := .exec, seq := Seq.start (.instr i), env := [] }) hc nofun i).symm
  · obtain ⟨payload, hp⟩ := State.withFetchWord_host ht hf
    rw [hp, eq_decodeHost_of_tableInstr ht hf]
    exact step_byte (s := placeHostByte s _ payload) hc nofun rfl rfl rfl rfl

theorem walk_diag {s : State} (h : s.env = []) (d : Diag) (p : Seq) : walk p [.diag d] s = .done (s.said [d]) := by
  simp [walk, Micro.exec, State.primitive_of_quiet h, State.said]

/-- Settles O36: its sequence is the one call of `Diag`. -/
theorem unknownOpcodeIsOnlyLogged : Obligations.UnknownOpcodeIsOnlyLogged := by
  unfold Obligations.UnknownOpcodeIsOnlyLogged
  intro s op hq
  rw [exec_eq]
  exact run_done (walk_diag hq _ _)

/-- Settles O37: `evAck` and `diagAtDone` say what each point leaves in either mode. -/
theorem ackFollowsTheConvention : Obligations.AckFollowsTheConvention := by
  unfold Obligations.AckFollowsTheConvention
  intro s hq
  have haccepted : exec .ack s = .next { s with seq := Seq.main, trace := evAck s.cfg ++ s.trace } := by
    rw [exec_eq]
    exact run_done (walk_ackCode hq rfl _)
  have hdone : ∀ p, walk p (doneCode s.cfg) s = .done s.acked := walk_done hq rfl
  refine ⟨fun hm => ?_, fun hm => ?_⟩
  · simp only [haccepted, hdone, State.acked, evAck, diagAtDone, hm]
    exact ⟨rfl, fun _ => rfl⟩
  · simp only [haccepted, hdone, State.acked, evAck, diagAtDone, hm]
    exact ⟨rfl, fun _ => rfl⟩

end Sys2Proof.Machine
end

section
/-! What the rows of the panel bus send (R88, R100 to R109), Initialize (R104, R121), and the wait of the forever loop
(R107): each is the run of a sequence whose end Laws/ states. -/

namespace Sys2Proof.Machine

/-! ### An instruction whose sequence reaches its end -/

/-- Such an instruction leaves what its sequence leaves, back in the forever loop (R182). -/
theorem exec_done {i : Instr} {s t : State} (h : ∀ p, walk p (instrCode s.cfg i) s = .done t) :
    exec i s = .next { t with seq := Seq.main } := by
  rw [exec_eq]
  exact run_done (h _)

theorem exec_send {i : Instr} {s : State} {command : Byte} {ds : List Byte} (hq : s.env = [])
    (hi : instrCode s.cfg i = sendCode command ds) :
    exec i s = .next { s.sent command ds with seq := Seq.main } :=
  exec_done fun p => hi ▸ walk_send hq p command ds

theorem exec_cmd {i : Instr} {s : State} {command : Byte} (hq : s.env = []) (hi : instrCode s.cfg i = cmdCode command) :
    exec i s = .next { s.sent command [] with seq := Seq.main } :=
  exec_done fun p => by rw [hi, walk_cmd hq p command, State.afterByte_command]

/-! ### Framed bytes (R100, R101, R103) -/

/-- Settles O15: CMD is `walk_cmd`, PON is SEND without data, and DRF, FLG and POF are CMD. -/
theorem commandByteIsFramed : Obligations.CommandByteIsFramed := by
  unfold Obligations.CommandByteIsFramed
  intro s hq
  exact ⟨fun p b => by rw [walk_cmd hq, State.afterByte_eq], exec_send hq rfl, exec_cmd hq rfl, exec_cmd hq rfl,
    exec_cmd hq rfl⟩

/-- Settles O16: its sequence is DATA's. -/
theorem dataByteIsFramed : Obligations.DataByteIsFramed := by
  unfold Obligations.DataByteIsFramed
  intro s b hq
  rw [exec_done (i := .data b) (s := s) fun p => walk_data hq p b, State.afterByte_eq]

/-- Settles O17: SEND is `walk_send`, and each row is a SEND. -/
theorem commandIsSentWithItsData : Obligations.CommandIsSentWithItsData := by
  unfold Obligations.CommandIsSentWithItsData
  intro s hq
  exact ⟨walk_send hq, exec_send hq rfl, exec_send hq rfl, fun b => exec_send hq rfl, exec_send hq rfl,
    exec_send hq rfl⟩

/-! ### Plane writes (R109) -/

/-- Settles O18: a constant's plane write is a SEND. -/
theorem constantPlaneIsStreamed : Obligations.ConstantPlaneIsStreamed := by
  unfold Obligations.ConstantPlaneIsStreamed
  intro s b hq
  exact ⟨exec_send hq rfl, exec_send hq rfl⟩

/-- A command and the bytes of the cells listed, said as SEND says it. -/
theorem State.afterByte_afterCells (s : State) (command : Byte) (is : List Nat) :
    (s.afterByte 0 command).afterCells is =
      { s.sent command (cellBytes s.fb s.draws is) with
        held := ((cellBytes s.fb s.draws is).getLast?).getD s.held
        draws := s.draws + unwrittenIn s.fb is } := by
  simp [State.afterCells, State.sent_eq, State.afterByte_eq]

theorem exec_planeStore {i : Instr} {s : State} {p : Plane} (hq : s.env = [])
    (hi : instrCode s.cfg i = planeCode s.cfg p .store) (hin : planeBase s.cfg p + s.cfg.planeSize ≤ s.cfg.payloadLen) :
    exec i s = .next { s.sent (planeCommand s.cfg p) (cellBytes s.fb s.draws (planeCells s.cfg p)) with
      seq := Seq.main
      held := ((cellBytes s.fb s.draws (planeCells s.cfg p)).getLast?).getD s.held
      draws := s.draws + unwrittenIn s.fb (planeCells s.cfg p) } := by
  rw [exec_done fun q => hi ▸ walk_planeStore hq rfl q p hin, State.afterByte_afterCells]

theorem walk_cell_stop {s : State} (hq : s.env = []) (q : Seq) {i : Nat} (hi : ¬ i < s.cfg.payloadLen) :
    walk q (cellCode i) s = .fault (.noSuchCell i) := by
  simp [cellCode, walk, Micro.exec, State.primitive_of_quiet hq, readCell, hi]

/-- Reading on from a cell stops the machine at the first index that is no cell's (R61). -/
theorem walk_cells_stop {s : State} (hq : s.env = []) (q : Seq) {base size : Nat} (hsize : 0 < size)
    (hout : s.cfg.payloadLen < base + size) :
    walk q ((List.range' base size).flatMap cellCode) s = .fault (.noSuchCell (max base s.cfg.payloadLen)) := by
  induction size generalizing base q s with
  | zero => omega
  | succ size ih =>
    rw [List.range'_succ, List.flatMap_cons]
    by_cases hi : base < s.cfg.payloadLen
    · have hcfg : ((s.memRead base).afterByte 1 (s.memRead base).held).cfg = s.cfg := by simp [State.afterByte_eq]
      rw [walk_append_done (walk_cell hq q base hi),
        ih (by simpa [State.afterByte_eq] using hq) _ (by omega) (by rw [hcfg]; omega), hcfg, max_eq_right (by omega), max_eq_right (by omega)]
    · rw [walk_append, walk_cell_stop hq q hi, max_eq_left (by omega)]

theorem exec_planeStore_stop {i : Instr} {s : State} {p : Plane} (hq : s.env = [])
    (hi : instrCode s.cfg i = planeCode s.cfg p .store) (hsize : 0 < s.cfg.planeSize)
    (hout : s.cfg.payloadLen < planeBase s.cfg p + s.cfg.planeSize) :
    exec i s = .fault (.noSuchCell (max (planeBase s.cfg p) s.cfg.payloadLen)) := by
  have hcfg : (s.afterByte 0 (planeCommand s.cfg p)).cfg = s.cfg := by simp [State.afterByte_eq]
  rw [exec_eq, hi, planeCode, run, walk_append_done (walk_callCode (walk_cmd hq _ _)),
    walk_cells_stop (by simpa [State.afterByte_eq] using hq) _ hsize (by rw [hcfg]; exact hout), hcfg]

/-- Settles O19: a plane inside the store is read whole (`walk_planeStore`), another up to the first index that is no
cell's (`walk_cells_stop`). -/
theorem storedPlaneIsStreamed : Obligations.StoredPlaneIsStreamed := by
  unfold Obligations.StoredPlaneIsStreamed
  intro s hq
  refine ⟨fun h => ?_, fun h => ?_, fun h => ?_, fun h => ?_⟩
  · exact exec_planeStore (p := .black) hq rfl (by simpa [planeBase] using h)
  · exact exec_planeStore (p := .red) hq rfl (by simp only [planeBase]; omega)
  · rw [exec_planeStore_stop (p := .black) hq rfl (by omega) (by simpa [planeBase] using h), planeBase, Nat.zero_max]
  · exact exec_planeStore_stop (p := .red) hq rfl (by omega) (by simp only [planeBase]; omega)

/-! ### Initialize (R104, R121) -/

/-- Settles O23: without the wait its sequence is `walk_initPanel`, with it `walk_initPanel_wait`. -/
theorem initializeConfiguresThePanel : Obligations.InitializeConfiguresThePanel := by
  unfold Obligations.InitializeConfiguresThePanel
  refine ⟨fun s hq hw => ?_, fun s k late hq hw he => ?_⟩
  · rw [exec_done (i := .initPanel) (s := s) (walk_initPanel hq hw)]
    simp [State.poweredOn, State.configured, evInit]
  · have hwait : evWaitOf s.poweredOn k = evWaitOf s k := evWaitOf_congr k rfl rfl rfl
    rw [exec_done (i := .initPanel) (s := s) (walk_initPanel_wait hq hw he)]
    simp only [State.afterBusyWait, State.waited, State.configured, State.said_eq, hwait]
    simp [State.poweredOn, evInit]

/-! ### The wait of the forever loop (R106, R107, R180) -/

theorem nextInput_nothing {s : State} (hr : s.ctlReq = none) (hx : NoByte s.rx) : nextInput s = (.nothing, s) := by
  unfold nextInput
  split
  · next b rest _ hb => exact absurd hb (hx b rest)
  · rfl
  · next hc _ => simp [hr] at hc
  · next hc _ => simp [hr] at hc

/-- Settles O9: with neither a request nor a byte the loop takes no input, and feeds. -/
theorem stepWaitsByFeeding : Obligations.StepWaitsByFeeding := by
  unfold Obligations.StepWaitsByFeeding
  intro s hc hd hm hq hr hx
  rw [step_main hc hd hm, processOne_of_pass (State.moment_of_quiet hq), nextInput_nothing hr hx]
  rfl

end Sys2Proof.Machine
end

section
/-! The framing and the feeding of whatever an instruction records (R102, R105, R159, R211): what is asked of a trace is
kept by putting traces one after the other, so that of a sequence is kept by putting sequences one after the other. -/

namespace Sys2Proof.Machine

/-! ### Traces -/

/-- Framing is atomic, every sample and every delay is fed, and the watchdog is not armed. -/
structure Orderly (es : List Event) : Prop where
  framed : framed es = true
  polls : fedPolls false es = true
  delays : fedDelays false es = true
  unarmed : Event.arm ∉ es

theorem Orderly.nil : Orderly [] := ⟨rfl, rfl, rfl, List.not_mem_nil⟩

theorem Orderly.append {a b : List Event} (ha : Orderly a) (hb : Orderly b) : Orderly (a ++ b) where
  framed := (framed_append a b ha.framed).trans hb.framed
  polls := fedPolls_append ha.polls hb.polls
  delays := fedDelays_append ha.delays hb.delays
  unarmed := by simp [ha.unarmed, hb.unarmed]

theorem orderly_evC (b : Byte) : Orderly (evC b) := ⟨rfl, rfl, rfl, by simp [evC]⟩

theorem orderly_evD (b : Byte) : Orderly (evD b) := ⟨rfl, rfl, rfl, by simp [evD]⟩

theorem orderly_evSend (command : Byte) (ds : List Byte) : Orderly (evSend command ds) := by
  refine (orderly_evC command).append ?_
  induction ds with
  | nil => exact .nil
  | cons b ds ih => exact (orderly_evD b).append ih

theorem orderly_evWait (ms : Nat) : Orderly (evWait ms) := ⟨rfl, rfl, rfl, by simp [evWait]⟩

theorem orderly_evPulse (c : Cfg) : Orderly (evPulse c) := ⟨rfl, rfl, rfl, by simp [evPulse, evWait]⟩

theorem orderly_evPoll (c : Cfg) (v : Bit) : Orderly (evPoll c v) := ⟨rfl, rfl, rfl, by simp [evPoll]⟩

/-- The last poll of a session: it is followed by no delay (R153, R154). -/
theorem orderly_lastPoll (v : Bit) : Orderly [.feed, .busy v] := ⟨rfl, rfl, rfl, by simp⟩

/-! ### States and sequences -/

/-- What `t` has recorded since `s` is orderly. -/
def State.Records (s t : State) : Prop := ∃ es, t.trace = es.reverse ++ s.trace ∧ Orderly es

theorem State.Records.same {s t : State} (h : t.trace = s.trace) : s.Records t := ⟨[], h, .nil⟩

theorem State.Records.trans {s t u : State} (h : s.Records t) (k : t.Records u) : s.Records u := by
  obtain ⟨a, ha, hoa⟩ := h
  obtain ⟨b, hb, hob⟩ := k
  exact ⟨a ++ b, by rw [hb, ha, List.reverse_append, List.append_assoc], hoa.append hob⟩

/-- `t` is reached from `s` by a block left alone, with orderly events recorded on the way. -/
def State.Reaches (s t : State) : Prop := t.env = [] ∧ s.Records t

/-- Wherever a block left alone begins the sequence, it records orderly events, run to its end or not. -/
def RecordsOrderly (ms : List Micro) : Prop := ∀ (p : Seq) (s t : State), s.Reaches t →
  (walk p ms t).Meets s.Reaches s.Records (fun _ => False) True

theorem RecordsOrderly.of_walk {ms : List Micro}
    (h : ∀ (p : Seq) (t : State), t.env = [] → ∃ u, walk p ms t = .done u ∧ t.Reaches u) : RecordsOrderly ms := by
  intro p s t ⟨hq, hst⟩
  obtain ⟨u, hw, huq, htu⟩ := h p t hq
  rw [hw]
  exact ⟨huq, hst.trans htu⟩

theorem RecordsOrderly.nil : RecordsOrderly [] := fun _ _ _ h => h

theorem RecordsOrderly.append {a b : List Micro} (ha : RecordsOrderly a) (hb : RecordsOrderly b) :
    RecordsOrderly (a ++ b) :=
  fun p s t h => walk_append_meets (ha p s t h) fun q u hu => hb q s u hu

theorem RecordsOrderly.flatMap {α : Type} {f : α → List Micro} (hf : ∀ x, RecordsOrderly (f x)) (l : List α) :
    RecordsOrderly (l.flatMap f) := by
  induction l with
  | nil => exact .nil
  | cons x l ih => rw [List.flatMap_cons]; exact (hf x).append ih

theorem RecordsOrderly.passes {ms : List Micro} (h : RecordsOrderly ms) (k : Nat) :
    RecordsOrderly (List.replicate k ms).flatten := by
  induction k with
  | zero => exact .nil
  | succ k ih => rw [List.replicate_succ, List.flatten_cons]; exact h.append ih

/-! ### Elementary steps by themselves -/

/-- The elementary steps outside the bus framing, the fed delays and the passes of the poll loop. -/
def Micro.apart : Micro → Bool
  | .setLine _ _ => false
  | .spiWrite _ => false
  | .spiHeld => false
  | .arm => false
  | .feed => false
  | .delay _ => false
  | .memRead _ => false
  | .pollFeed => false
  | .pollSample => false
  | .pollDiag => false
  | .pollDelay => false
  | _ => true

/-- Each records nothing, or a byte of the host link. -/
theorem Micro.records_of_apart {m : Micro} (hm : m.apart = true) {s t : State} (hq : s.env = [])
    (h : m.exec s = .go t) : s.Records t := by
  cases m <;> simp only [Micro.apart, Bool.false_eq_true] at hm <;>
    simp only [Micro.exec, State.primitive_of_quiet hq] at h
  case txByte b => cases h; exact ⟨[.tx b], rfl, rfl, rfl, rfl, by simp⟩
  case rxPayload =>
    split at h
    · obtain ⟨b, rest, -, rfl⟩ := receivePayload_go h
      exact ⟨[.rx b], rfl, rfl, rfl, rfl, by simp⟩
    · cases h; exact .same rfl
  case memWrite | bumpIdx | diagShape | enter => split at h <;> cases h <;> exact .same rfl
  all_goals cases h; exact .same rfl

theorem Micro.exec_apart {m : Micro} (hm : m.apart = true) {s t : State} (h : s.Reaches t) :
    (m.exec t).Meets s.Reaches s.Records (fun _ => False) True := by
  obtain ⟨hq, hst⟩ := h
  cases hx : m.exec t with
  | go u => exact ⟨List.suffix_nil.mp (hq ▸ (Micro.exec_frame hx).env), hst.trans (Micro.records_of_apart hm hq hx)⟩
  | hold u =>
    obtain ⟨es, he, -⟩ | ⟨es, ds, q, -, ⟨-, rfl⟩ | ⟨op, -, -, rfl⟩⟩ := Micro.exec_hold hx
    · simp [hq] at he
    · exact hst.trans ⟨[.feed], rfl, rfl, rfl, rfl, by simp⟩
    · exact hst.trans (.same rfl)
  | gone u =>
    obtain ⟨e, es, cause, he, -⟩ := Micro.exec_gone hx
    simp [hq] at he
  | fault r => trivial

theorem RecordsOrderly.of_apart {ms : List Micro} (h : ms.all Micro.apart = true) : RecordsOrderly ms :=
  fun p _ _ hst => walk_meets (fun m hm _ hu => Micro.exec_apart (List.all_eq_true.mp h m hm) hu) hst p

theorem RecordsOrderly.cons {m : Micro} {ms : List Micro} (hm : m.apart = true) (h : RecordsOrderly ms) :
    RecordsOrderly (m :: ms) :=
  (RecordsOrderly.of_apart (ms := [m]) (by simp [hm])).append h

theorem RecordsOrderly.called {ms : List Micro} (h : RecordsOrderly ms) (op : Operation) :
    RecordsOrderly (callCode op ms) :=
  (h.cons rfl).append (.of_apart rfl)

/-! ### The lowest operations -/

theorem State.reaches_afterByte {s : State} (hq : s.env = []) (dc : Bit) (b : Byte) : s.Reaches (s.afterByte dc b) := by
  rw [State.afterByte_eq]
  exact ⟨hq, [.line .dc dc, .line .cs 0, .spi b, .line .cs 1], rfl, rfl, rfl, rfl, by simp⟩

theorem recordsOrderly_cmdCode (b : Byte) : RecordsOrderly (cmdCode b) :=
  .of_walk fun p _ hq => ⟨_, walk_cmd hq p b, State.reaches_afterByte hq 0 b⟩

theorem recordsOrderly_dataCode (b : Byte) : RecordsOrderly (dataCode b) :=
  .of_walk fun p _ hq => ⟨_, walk_data hq p b, State.reaches_afterByte hq 1 b⟩

theorem recordsOrderly_sendCode (command : Byte) (ds : List Byte) : RecordsOrderly (sendCode command ds) :=
  .of_walk fun p _ hq => ⟨_, walk_send hq p command ds, hq, evSend command ds, rfl, orderly_evSend command ds⟩

theorem recordsOrderly_waitCode (ms : Nat) : RecordsOrderly (waitCode ms) :=
  .of_walk fun p _ hq => ⟨_, walk_wait hq p ms, hq, evWait ms, rfl, orderly_evWait ms⟩

/-- A cell that is none of the store's stops the machine before it records anything (R61). -/
theorem recordsOrderly_cellCode (i : Nat) : RecordsOrderly (cellCode i) := by
  intro p s t ⟨hq, hst⟩
  by_cases hi : i < t.cfg.payloadLen
  · obtain ⟨huq, hu⟩ := State.reaches_afterByte (s := t.memRead i) (by simpa using hq) 1 (t.memRead i).held
    rw [walk_cell hq p i hi]
    exact ⟨huq, hst.trans ((State.Records.same (t.memRead_trace i)).trans hu)⟩
  · rw [walk_cell_stop hq p hi]
    trivial

theorem walk_pass_skipped {s : State} (hq : s.env = []) (hp : s.polling = false) (p : Seq) :
    ∃ t, walk p pollCode s = .done t ∧ t.env = [] ∧ t.trace = s.trace := by
  by_cases hc : s.atCeiling = true
  · have hover : s.ceilingExit.polling = false := rfl
    exact ⟨s.ceilingExit, by simp [pollCode, walk, Micro.exec, State.primitive_of_quiet hq, hp, hc, hover], hq, rfl⟩
  · exact ⟨s, by simp [pollCode, walk, Micro.exec, hp, hc], hq, rfl⟩

/-- A pass of the poll loop goes on, ends the session, or is skipped (R152 to R154). -/
theorem recordsOrderly_pollCode : RecordsOrderly pollCode := by
  refine .of_walk fun p s hq => ?_
  cases hp : s.polling with
  | false =>
    obtain ⟨t, hw, ht, htrace⟩ := walk_pass_skipped hq hp p
    exact ⟨t, hw, ht, .same htrace⟩
  | true =>
    simp only [State.polling, Bool.and_eq_true, decide_eq_true_eq] at hp
    obtain ⟨hb, hmax⟩ := hp
    have hout (late : Bool) : s.Reaches (s.polledOut late) :=
      ⟨by simpa [State.polledOut] using hq, [.feed, .busy s.nextBusy], rfl, orderly_lastPoll _⟩
    by_cases hv : s.nextBusy = s.cfg.busyActive
    · obtain hlast | hmore : s.polls + 1 = s.cfg.busyMaxPolls ∨ s.polls + 1 < s.cfg.busyMaxPolls := by omega
      · exact ⟨_, walk_poll_late hq hb hv hlast p, hout true⟩
      · exact ⟨_, walk_poll_on hq hb hv hmore p, hq, evPoll s.cfg s.nextBusy, rfl, orderly_evPoll _ _⟩
    · exact ⟨_, walk_poll_ready hq hb hv hmax p, hout false⟩

/-! ### The sequences of the instructions -/

section
variable (c : Cfg)

theorem recordsOrderly_pulseCode : RecordsOrderly (pulseCode c) :=
  .of_walk fun p _ hq => ⟨_, walk_pulse hq p c, hq, evPulse c, rfl, orderly_evPulse c⟩

theorem recordsOrderly_planeCode (p : Plane) (src : PlaneSrc) : RecordsOrderly (planeCode c p src) := by
  cases src with
  | const b => exact recordsOrderly_sendCode _ _
  | store => exact ((recordsOrderly_cmdCode _).called _).append (.flatMap recordsOrderly_cellCode _)

theorem recordsOrderly_busyWaitCode : RecordsOrderly (busyWaitCode c) :=
  ((((recordsOrderly_cmdCode _).called _).cons rfl).append ((recordsOrderly_pollCode.passes _).cons rfl)).append
    (((recordsOrderly_waitCode _).cons rfl).cons rfl)

theorem recordsOrderly_refreshCode : RecordsOrderly (refreshCode c) :=
  ((((recordsOrderly_cmdCode _).called _).cons rfl).append (((recordsOrderly_busyWaitCode c).called _).cons rfl)).append
    (.of_apart rfl)

theorem recordsOrderly_initWaitCode : RecordsOrderly (initWaitCode c) := by
  unfold initWaitCode
  split
  · exact (recordsOrderly_busyWaitCode c).called _
  · exact .nil

theorem recordsOrderly_initPanelCode : RecordsOrderly (initPanelCode c) := by
  have send (command : Byte) (ds : List Byte) (op : Operation) : RecordsOrderly (callCode op (sendCode command ds)) :=
    (recordsOrderly_sendCode command ds).called op
  exact (((((((((recordsOrderly_pulseCode c).cons rfl).cons rfl).append (send _ _ _)).append (send _ _ _)).append
    (recordsOrderly_initWaitCode c)).append (send _ _ _)).append (send _ _ _)).append (send _ _ _)).append (.of_apart rfl)

/-- The two plane writes of Clear or Display, and the refresh (R123, R124). -/
theorem recordsOrderly_planes (black red : PlaneSrc) {i j k : Operation} :
    RecordsOrderly (callCode i (dtm1Code c black) ++ callCode j (dtm2Code c red) ++ callCode k (refreshCode c)) :=
  (((recordsOrderly_planeCode c .black black).called _).append ((recordsOrderly_planeCode c .red red).called _)).append
    ((recordsOrderly_refreshCode c).called _)

theorem recordsOrderly_clearCode : RecordsOrderly (clearCode c) :=
  ((recordsOrderly_planes c _ _).cons rfl).cons rfl

theorem recordsOrderly_displayCode : RecordsOrderly (displayCode c) := by
  refine .cons rfl ?_
  split
  · exact ((recordsOrderly_planes c _ _).cons rfl).cons rfl
  · exact .of_apart rfl

theorem recordsOrderly_sleepCode : RecordsOrderly (sleepCode c) :=
  ((((((recordsOrderly_sendCode _ _).called _).cons rfl).append ((recordsOrderly_cmdCode _).called _)).append
    (((recordsOrderly_busyWaitCode c).called _).cons rfl)).append ((recordsOrderly_sendCode _ _).called _)).append
    (.of_apart rfl)

theorem recordsOrderly_ackCode : RecordsOrderly (ackCode c) := by
  unfold ackCode
  split <;> exact .of_apart rfl

theorem recordsOrderly_doneCode : RecordsOrderly (doneCode c) := by
  unfold doneCode
  split
  · exact (recordsOrderly_ackCode c).called _
  · exact .of_apart rfl

theorem recordsOrderly_endCode : RecordsOrderly endCode := .of_apart rfl

theorem recordsOrderly_sendBufferCode : RecordsOrderly (sendBufferCode c) :=
  (((((recordsOrderly_ackCode c).called _).cons rfl).append
    ((((RecordsOrderly.of_apart (ms := payloadCode) rfl).passes _).cons rfl).cons rfl)).append
    ((recordsOrderly_doneCode c).cons rfl)).append recordsOrderly_endCode

theorem recordsOrderly_writeScreenCode : RecordsOrderly (writeScreenCode c) :=
  ((((((recordsOrderly_ackCode c).called _).cons rfl).cons rfl).append ((recordsOrderly_displayCode c).called _)).append
    ((recordsOrderly_doneCode c).cons rfl)).append recordsOrderly_endCode

theorem recordsOrderly_clearScreenCode : RecordsOrderly (clearScreenCode c) :=
  ((((((recordsOrderly_ackCode c).called _).cons rfl).cons rfl).append ((recordsOrderly_clearCode c).called _)).append
    (recordsOrderly_doneCode c)).append recordsOrderly_endCode

theorem recordsOrderly_instrCode (i : Instr) : RecordsOrderly (instrCode c i) := by
  cases i with
  | sendBuffer => exact recordsOrderly_sendBufferCode c
  | writeScreen => exact recordsOrderly_writeScreenCode c
  | clearScreen => exact recordsOrderly_clearScreenCode c
  | unknown op => exact .of_apart rfl
  | ack => exact recordsOrderly_ackCode c
  | ctlInit =>
    exact (((((recordsOrderly_initPanelCode c).called _).cons rfl).cons rfl).cons rfl).append recordsOrderly_endCode
  | ctlSleep =>
    exact (((((recordsOrderly_sleepCode c).called _).cons rfl).cons rfl).cons rfl).append recordsOrderly_endCode
  | btst | pon | psr | cdi | tres | dslp => exact recordsOrderly_sendCode _ _
  | drf | flg | pof => exact recordsOrderly_cmdCode _
  | dtm1 src => exact recordsOrderly_planeCode c .black src
  | dtm2 src => exact recordsOrderly_planeCode c .red src
  | data b => exact recordsOrderly_dataCode b
  | initPanel => exact recordsOrderly_initPanelCode c
  | clear => exact recordsOrderly_clearCode c
  | display => exact recordsOrderly_displayCode c
  | refresh => exact recordsOrderly_refreshCode c
  | sleep => exact recordsOrderly_sleepCode c
  | busyWait => exact recordsOrderly_busyWaitCode c

end

/-- Settles O42: the sequence of every instruction records orderly events (`recordsOrderly_instrCode`). -/
theorem everyTraceIsFramedAndFed : Obligations.EveryTraceIsFramedAndFed := by
  unfold Obligations.EveryTraceIsFramedAndFed
  intro i s t hq h
  have hw := recordsOrderly_instrCode s.cfg i (Seq.start (.instr i)) s s ⟨hq, .same rfl⟩
  rw [exec_eq] at h
  have hst : s.Records t := by
    obtain ⟨u, ⟨-, hu⟩, rfl⟩ | ⟨u, q, hu, rfl⟩ | hu := run_meets hw h
    · exact hu
    · exact hu
    · exact hu.elim
  obtain ⟨es, htrace, hes⟩ := hst
  exact ⟨es, htrace, hes.framed, hes.polls, hes.delays, hes.unarmed⟩

end Sys2Proof.Machine
end

section
/-! The panel operations while the environment is quiet (R123 to R127): each runs the sequence whose end Laws/ states,
from the state of the block as the operation finds it. -/

namespace Sys2Proof.Machine

/-! ### Refresh, Clear, Display and Sleep (R123, R124, R126, R127) -/

/-- Settles O22: its sequence is `walk_refresh`. -/
theorem refreshSendsAndWaits : Obligations.RefreshSendsAndWaits := by
  unfold Obligations.RefreshSendsAndWaits
  intro s k late hq hp he
  exact exec_done (i := .refresh) (walk_refresh hq hp he)

/-- The two plane writes and the refresh, said of the state before them. -/
theorem State.planesSent_afterRefresh (s : State) (black red : List Byte) (k : Nat) (late : Bool) :
    (s.planesSent black red).afterRefresh k late =
      { s.waited k late with
        pstate := .idle
        lineDc := .driven 0
        lineCs := .driven 1
        trace := (evPlanes s.cfg black red ++ evWaitOf s k).reverse ++ s.trace } := by
  have hwait : evWaitOf (s.planesSent black red) k = evWaitOf s k := evWaitOf_congr k rfl rfl rfl
  simp only [State.afterRefresh, State.waited, State.said_eq, hwait]
  simp [State.planesSent, evPlanes]

/-- Settles O24: its sequence is `walk_clear`. -/
theorem clearBlanksBothPlanes : Obligations.ClearBlanksBothPlanes := by
  unfold Obligations.ClearBlanksBothPlanes
  intro s k late hq hp he
  rw [exec_done (i := .clear) (walk_clear hq hp he), State.planesSent_afterRefresh]
  rfl

/-- Display refreshes once the frame is read, the result set and the two planes sent. -/
theorem State.displayed_eq (s : State) :
    s.displayed = ({ s.frameRead with lastResult := .ok } : State).planesSent s.blackBytes s.redBytes := rfl

/-- Settles O25: its sequence is `walk_display`. -/
theorem displaySendsTheStoredFrame : Obligations.DisplaySendsTheStoredFrame := by
  unfold Obligations.DisplaySendsTheStoredFrame
  intro s k late hq hp hs he
  have hwait : evWaitOf ({ s.frameRead with lastResult := .ok } : State) k = evWaitOf s.frameRead k := rfl
  rw [exec_done (i := .display) (walk_display hq hp hs (he.congr rfl rfl rfl)), State.displayed_eq,
    State.planesSent_afterRefresh, hwait]
  simp only [State.waited, State.said_eq]
  rfl

theorem State.poweredOff_eq (s : State) :
    s.poweredOff =
      { s with
        pstate := .refreshing
        lineDc := .driven 0
        lineCs := .driven 1
        trace := (evSend s.cfg.cmdCdi [s.cfg.sleepCdiData] ++ evC s.cfg.cmdPof).reverse ++ s.trace } := by
  simp [State.poweredOff, State.refreshing_eq, State.sent]

/-- Settles O26: its sequence is `walk_sleep`, whichever way the wait in it ends. -/
theorem sleepEndsInDeepSleep : Obligations.SleepEndsInDeepSleep := by
  unfold Obligations.SleepEndsInDeepSleep
  intro s k late hq hp he
  have hwait : evWaitOf s.poweredOff k = evWaitOf s k := by
    rw [State.poweredOff_eq]
    exact evWaitOf_congr k rfl rfl rfl
  rw [exec_done (i := .sleep) (walk_sleep hq hp he)]
  simp only [State.sent, State.afterBusyWait, State.waited, State.said_eq, hwait]
  simp [State.poweredOff_eq]

/-! ### A frame of the wrong shape (R125, R173, R179, R202) -/

/-- After a Display that rejected its frame, Write-Screen's test makes the call of `Diag` (R173). -/
theorem walk_diagShape {s : State} (hq : s.env = []) (hr : s.lastResult = .invalidFrameSize) (p : Seq)
    (ms : List Micro) :
    walk p (.diagShape :: ms) s =
      walk (Micro.diagShape.place s p) ms (s.diagnose (.frameSize (blackLen s.cfg) (redLen s.cfg))) :=
  walk_cons_go (by simp [Micro.exec, State.primitive_of_quiet hq, hr])

/-- The state in which Write-Screen, its frame rejected, makes that test. -/
def State.rejected (s : State) : State := { s.accepted .writeScreen with lastResult := .invalidFrameSize }

theorem walk_writeScreen_badShape {s : State} (hq : s.env = []) (hp : s.pstate = .idle) (hs : shapeOk s.cfg = false)
    (p : Seq) :
    walk p (writeScreenCode s.cfg) s =
      .done (s.rejected.diagnose (.frameSize (blackLen s.cfg) (redLen s.cfg))).acked.ended := by
  have hd : ∀ q, walk q (displayCode s.cfg) (s.accepted .writeScreen) = .done s.rejected :=
    walk_display_badShape (s := s.accepted .writeScreen) hq hp hs
  rw [walk_writeScreen_open hq, walk_append_done (walk_callCode (hd _)), walk_diagShape (s := s.rejected) hq rfl]
  exact walk_done_end (s := s.rejected.diagnose _) hq rfl _

/-- Settles O27: Display is `walk_display_badShape`; Write-Screen is that between its two acks, with the diagnostic. -/
theorem badFrameShapeSendsNothing : Obligations.BadFrameShapeSendsNothing := by
  unfold Obligations.BadFrameShapeSendsNothing
  intro s hq hp hs
  refine ⟨exec_done (i := .display) (walk_display_badShape hq hp hs), ?_⟩
  rw [exec_done (i := .writeScreen) (walk_writeScreen_badShape hq hp hs)]
  simp only [State.said_eq, State.acked, State.ended]
  simp [State.rejected, State.accepted, blackLen, redLen, linesFrom, Nat.add_assoc, Nat.add_comm 1]

end Sys2Proof.Machine
end

section
/-! What the panel operations put on the panel stream (R60, R87), in which the framed bytes (R128) and the refresh
commands (R129) are counted, however the waits end (R153, R154). -/

namespace Sys2Proof.Machine

/-! ### Every wait ends (R152, R158) -/

/-- The wait ends at the first ready sample within the ceiling, or at the ceiling. -/
theorem exists_busyEnds {s : State} (h : 1 ≤ s.cfg.busyMaxPolls) : ∃ k late, BusyEnds s k late := by
  by_cases hr : ∃ j, j < s.cfg.busyMaxPolls ∧ s.sampleAt j ≠ s.cfg.busyActive
  · obtain ⟨hlt, hready⟩ := Nat.find_spec hr
    exact ⟨Nat.find hr + 1, false, by omega, hlt,
      fun j hj => not_not.mp fun hne => Nat.find_min hr hj ⟨by omega, hne⟩, by simpa using hready⟩
  · push Not at hr
    exact ⟨s.cfg.busyMaxPolls, true, h, le_rfl, fun j hj => hr j (by omega), rfl, hr _ (by omega)⟩

theorem exists_busyEnds_of_wf {s : State} (h : s.cfg.wf = true) : ∃ k late, BusyEnds s k late :=
  exists_busyEnds ((Cfg.passes_ceiling_iff _).mp ((Cfg.wf_iff_passes _).mp h .ceiling))

/-! ### The panel words of a command (R87) -/

/-- A command byte with its data bytes, each with the level DC then has. -/
def commandWords (command : Byte) (ds : List Byte) : List (Level × Byte) :=
  (.driven 0, command) :: ds.map (.driven 1, ·)

@[simp] theorem commandWords_length (command : Byte) (ds : List Byte) :
    (commandWords command ds).length = ds.length + 1 := by
  simp [commandWords]

/-- The command byte is the only one with DC = 0. -/
theorem commandWords_count (command b : Byte) (ds : List Byte) :
    (commandWords command ds).count (.driven 0, b) = if command = b then 1 else 0 := by
  have hdata : (ds.map ((.driven 1, ·) : Byte → Level × Byte)).count (.driven 0, b) = 0 := by
    simp [List.count_eq_zero]
  rw [commandWords, List.count_cons, hdata]
  simp

/-! ### Events that put words on the panel stream (R60) -/

/-- The events put these words on the panel stream, whatever DC was before them and whatever comes after. -/
def Puts (es : List Event) (ws : List (Level × Byte)) : Prop :=
  ∀ dc fs, ∃ dc', panelStream dc (es ++ fs) = ws ++ panelStream dc' fs

theorem Puts.panelStream {es : List Event} {ws : List (Level × Byte)} (h : Puts es ws) (dc : Level) :
    panelStream dc es = ws := by
  obtain ⟨dc', h⟩ := h dc []
  simpa [Machine.panelStream] using h

theorem Puts.append {a b : List Event} {v w : List (Level × Byte)} (ha : Puts a v) (hb : Puts b w) :
    Puts (a ++ b) (v ++ w) := by
  intro dc fs
  obtain ⟨da, ha⟩ := ha dc (b ++ fs)
  obtain ⟨db, hb⟩ := hb da fs
  exact ⟨db, by rw [List.append_assoc, ha, hb, List.append_assoc]⟩

theorem puts_evSend (command : Byte) (ds : List Byte) : Puts (evSend command ds) (commandWords command ds) :=
  fun dc fs => ⟨_, panelStream_evSend dc command ds fs⟩

theorem puts_evC (command : Byte) : Puts (evC command) (commandWords command []) := fun _ _ => ⟨_, rfl⟩

/-- The reset pulse sends the panel no byte (R104). -/
theorem puts_evPulse (c : Cfg) : Puts (evPulse c) [] := fun _ _ => ⟨_, rfl⟩

theorem puts_polls (c : Cfg) (vs : List Bit) : Puts (vs.flatMap (evPoll c)) [] := by
  induction vs with
  | nil => exact fun dc _ => ⟨dc, rfl⟩
  | cons v vs ih => exact .append (a := evPoll c v) (v := []) (fun _ _ => ⟨_, rfl⟩) ih

/-- A busy wait sends the panel the one byte of FLG, however many samples it takes (R150, R151). -/
theorem puts_evWaitOf (s : State) (k : Nat) : Puts (evWaitOf s k) (commandWords s.cfg.cmdFlg []) :=
  (((puts_evC _).append (puts_polls _ _)).append (w := []) fun _ _ => ⟨_, rfl⟩).append (w := []) fun _ _ => ⟨_, rfl⟩

/-- The words of two planes and of the refresh after them: DRF, and FLG of its wait (R123, R124, R126). -/
def frameWords (c : Cfg) (black red : List Byte) : List (Level × Byte) :=
  commandWords c.cmdDtm1 black ++ commandWords c.cmdDtm2 red ++ commandWords c.cmdDrf [] ++ commandWords c.cmdFlg []

theorem puts_frame (s : State) (black red : List Byte) (k : Nat) :
    Puts (evPlanes s.cfg black red ++ evWaitOf s k) (frameWords s.cfg black red) :=
  (((puts_evSend _ _).append (puts_evSend _ _)).append (puts_evC _)).append (puts_evWaitOf s k)

theorem frameWords_length {c : Cfg} {black red : List Byte} (hb : black.length = c.planeSize)
    (hr : red.length = c.planeSize) : (frameWords c black red).length = 4 + 2 * c.planeSize := by
  simp only [frameWords, List.length_append, commandWords_length, hb, hr, List.length_nil]
  omega

/-- One refresh command is among them, where no other command has its byte. -/
theorem frameWords_count_drf {c : Cfg} (h : c.PanelDistinct) (black red : List Byte) :
    (frameWords c black red).count (.driven 0, c.cmdDrf) = 1 := by
  obtain ⟨hdtm1, hdtm2, hflg⟩ : c.cmdDtm1 ≠ c.cmdDrf ∧ c.cmdDtm2 ≠ c.cmdDrf ∧ c.cmdFlg ≠ c.cmdDrf := by
    simp only [Cfg.PanelDistinct, Cfg.panelCommands, List.nodup_cons, List.mem_cons, not_or] at h
    tauto
  simp only [frameWords, List.count_append, commandWords_count, if_neg hdtm1, if_neg hdtm2, if_neg hflg, if_pos]

/-- The words of Initialize without its wait (R121). -/
def initWords (c : Cfg) : List (Level × Byte) :=
  commandWords c.cmdBtst c.btstData.toList ++ commandWords c.cmdPon [] ++
    (commandWords c.cmdPsr [c.psrData] ++ commandWords c.cmdCdi [c.cdiData] ++ commandWords c.cmdTres c.tresData.toList)

theorem puts_evInit (c : Cfg) : Puts (evInit c []) (initWords c) :=
  ((((puts_evPulse c).append (puts_evSend _ _)).append (puts_evC _)).append (w := []) fun dc _ => ⟨dc, rfl⟩).append
    (((puts_evSend _ _).append (puts_evSend _ _)).append (puts_evSend _ _))

/-- The words of Sleep (R127). -/
def sleepWords (c : Cfg) : List (Level × Byte) :=
  commandWords c.cmdCdi [c.sleepCdiData] ++ commandWords c.cmdPof [] ++ commandWords c.cmdFlg []
    ++ commandWords c.cmdDslp c.dslpData

/-! ### What a panel operation sends -/

/-- From `s` to `t` these words were put on the panel stream. -/
def State.Sends (s t : State) (ws : List (Level × Byte)) : Prop := ∃ es, t.trace = es.reverse ++ s.trace ∧ Puts es ws

theorem State.Sends.trans {s t u : State} {v w : List (Level × Byte)} (h : s.Sends t v) (k : t.Sends u w) :
    s.Sends u (v ++ w) := by
  obtain ⟨a, hta, ha⟩ := h
  obtain ⟨b, hub, hb⟩ := k
  exact ⟨a ++ b, by rw [hub, hta, List.reverse_append, List.append_assoc], ha.append hb⟩

/-- The events between two states are the only ones there. -/
theorem State.Sends.panelStream {s t : State} {ws : List (Level × Byte)} {es : List Event} (h : s.Sends t ws)
    (htrace : t.trace = es.reverse ++ s.trace) (dc : Level) : panelStream dc es = ws := by
  obtain ⟨fs, hfs, hput⟩ := h
  obtain rfl : es = fs := List.reverse_injective (List.append_cancel_right (htrace.symm.trans hfs))
  exact hput.panelStream dc

/-- The panel shows a frame of these planes: it is `IDLE` again, the environment still quiet, and the words are sent. -/
structure State.Shows (s t : State) (black red : List Byte) : Prop where
  quiet : t.env = []
  cfg : t.cfg = s.cfg
  idle : t.pstate = .idle
  sends : s.Sends t (frameWords s.cfg black red)

section
variable {s : State} (hq : s.env = []) (hc : s.cfg.wf = true)
include hq hc

theorem exec_clear_shows (hp : s.pstate = .idle) : ∃ t, exec .clear s = .next t ∧ s.Shows t s.blankBlack s.blankRed := by
  obtain ⟨k, late, he⟩ := exists_busyEnds_of_wf hc
  exact ⟨_, clearBlanksBothPlanes s k late hq hp he, by simpa [State.waited] using hq, by simp [State.waited], rfl,
    _, rfl, puts_frame s _ _ k⟩

theorem exec_display_shows (hp : s.pstate = .idle) :
    ∃ t, exec .display s = .next t ∧ s.Shows t s.blackBytes s.redBytes := by
  obtain ⟨k, late, he⟩ := exists_busyEnds_of_wf (s := s.frameRead) hc
  exact ⟨_, displaySendsTheStoredFrame s k late hq hp (shapeOk_of_wf hc) he,
    by simpa [State.waited, State.frameRead] using hq, by simp [State.waited, State.frameRead], rfl,
    _, rfl, puts_frame s.frameRead _ _ k⟩

theorem exec_refresh_sends (hp : s.pstate = .writing) :
    ∃ t, exec .refresh s = .next t ∧ s.Sends t (commandWords s.cfg.cmdDrf [] ++ commandWords s.cfg.cmdFlg []) := by
  obtain ⟨k, late, he⟩ := exists_busyEnds_of_wf hc
  exact ⟨_, refreshSendsAndWaits s k late hq hp he, _, rfl, (puts_evC _).append (puts_evWaitOf s k)⟩

theorem exec_sleep_sends (hp : s.pstate = .idle) : ∃ t, exec .sleep s = .next t ∧ s.Sends t (sleepWords s.cfg) := by
  obtain ⟨k, late, he⟩ := exists_busyEnds_of_wf hc
  exact ⟨_, sleepEndsInDeepSleep s k late hq hp he, _, rfl,
    (((puts_evSend _ _).append (puts_evC _)).append (puts_evWaitOf s k)).append (puts_evSend _ _)⟩

end

theorem exec_initPanel_sends {s : State} (hq : s.env = []) (hw : s.cfg.initBusyWait = false) :
    ∃ t, exec .initPanel s = .next t ∧ s.Sends t (initWords s.cfg) :=
  ⟨_, initializeConfiguresThePanel.1 s hq hw, _, rfl, puts_evInit s.cfg⟩

/-! ### The counts (R128, R129) -/

/-- Settles O40: Clear shows the blank frame and Display the stored one, each with one refresh command. -/
theorem clearThenDisplayRefreshesTwice : Obligations.ClearThenDisplayRefreshesTwice := by
  unfold Obligations.ClearThenDisplayRefreshesTwice
  intro s hq hc hd hp
  obtain ⟨t, hclear, ht⟩ := exec_clear_shows hq hc hp
  obtain ⟨u, hdisplay, hu⟩ := exec_display_shows ht.quiet (ht.cfg ▸ hc) ht.idle
  obtain ⟨es, htrace, hput⟩ := ht.sends.trans hu.sends
  refine ⟨t, u, es, hclear, hdisplay, hu.idle, htrace, ?_⟩
  rw [commandCount, hput.panelStream, List.count_append, ht.cfg, frameWords_count_drf hd, frameWords_count_drf hd]

/-- How many words were sent, read off the events. -/
theorem panelStream_length_of_sends {i : Instr} {s t : State} {es : List Event} {ws : List (Level × Byte)}
    (h : ∃ u, exec i s = .next u ∧ s.Sends u ws) (ht : exec i s = .next t) (htrace : t.trace = es.reverse ++ s.trace) :
    (panelStream .undriven es).length = ws.length := by
  obtain ⟨u, hu, hsends⟩ := h
  obtain rfl : u = t := by simpa [hu] using ht
  rw [hsends.panelStream htrace]

/-- Settles O41: each operation's words are counted. -/
theorem framedBytesPerOperation : Obligations.FramedBytesPerOperation := by
  unfold Obligations.FramedBytesPerOperation
  intro s t es hq hc htrace
  refine ⟨fun hw h => ?_, fun hp h => ?_, fun hp h => ?_, fun hp h => ?_, fun hp h => ?_⟩
  · rw [panelStream_length_of_sends (exec_initPanel_sends hq hw) h htrace]
    rfl
  · obtain ⟨u, hu, hshows⟩ := exec_clear_shows hq hc hp
    rw [panelStream_length_of_sends ⟨u, hu, hshows.sends⟩ h htrace]
    exact frameWords_length List.length_replicate List.length_replicate
  · obtain ⟨u, hu, hshows⟩ := exec_display_shows hq hc hp
    rw [panelStream_length_of_sends ⟨u, hu, hshows.sends⟩ h htrace]
    exact frameWords_length (cellBytes_planeCells_ne_nil _ _ _) (cellBytes_planeCells_ne_nil _ _ _)
  · rw [panelStream_length_of_sends (exec_refresh_sends hq hc hp) h htrace]
    rfl
  · rw [panelStream_length_of_sends (exec_sleep_sends hq hc hp) h htrace]
    simp only [sleepWords, List.length_append, commandWords_length, List.length_cons, List.length_nil]
    omega

end Sys2Proof.Machine
end

section
/-! BusyWait by itself (R150 to R159): its whole effect for a wait that ends after given samples, and that the samples
end every wait in one way. -/

namespace Sys2Proof.Machine

/-- Settles O21: its sequence is `walk_busyWait`. -/
theorem busyWaitPollsAndSettles : Obligations.BusyWaitPollsAndSettles := by
  unfold Obligations.BusyWaitPollsAndSettles
  intro s k late hq hp he
  have hvalid : validIn .busyWait s.pstate = true := by simpa [validIn] using hp
  exact exec_done (i := .busyWait) (walk_busyWait hq hvalid he)

/-! ### The samples decide how a wait ends (R152 to R154, R158) -/

/-- A wait that the last sample allowed found busy ended at the ceiling, and no other did. -/
theorem BusyEnds.late_iff {s : State} {k : Nat} {late : Bool} (h : BusyEnds s k late) :
    late = true ↔ s.sampleAt (k - 1) = s.cfg.busyActive := by
  obtain ⟨-, -, -, hend⟩ := h
  cases late with
  | false => simpa using hend
  | true => simpa using hend.2

/-- No wait goes on past the end of another: that end is a ready sample or the ceiling. -/
theorem BusyEnds.le {s : State} {k k' : Nat} {late late' : Bool} (h : BusyEnds s k late) (h' : BusyEnds s k' late') :
    k' ≤ k := by
  by_contra hlt
  obtain ⟨hpos, -, -, hend⟩ := id h
  obtain ⟨-, hceiling, hbusy, -⟩ := h'
  obtain rfl : late = true := h.late_iff.mpr (hbusy (k - 1) (by omega))
  have hlast : k = s.cfg.busyMaxPolls := hend.1
  omega

theorem BusyEnds.unique {s : State} {k k' : Nat} {late late' : Bool} (h : BusyEnds s k late)
    (h' : BusyEnds s k' late') : k' = k ∧ late' = late := by
  obtain rfl : k' = k := le_antisymm (h.le h') (h'.le h)
  exact ⟨rfl, Bool.eq_iff_iff.mpr (h'.late_iff.trans h.late_iff.symm)⟩

/-! ### The samples on the trace (R158) -/

theorem busySamples_polls (c : Cfg) (vs : List Bit) : busySamples (vs.flatMap (evPoll c)) = vs := by
  induction vs with
  | nil => rfl
  | cons v vs ih => rw [List.flatMap_cons, busySamples_append, ih]; rfl

/-- A busy wait records the samples that went on and then the one that ended it. -/
theorem busySamples_evBusyWait (c : Cfg) (vs : List Bit) (v : Bit) : busySamples (evBusyWait c vs v) = vs ++ [v] := by
  have hsend : busySamples (evC c.cmdFlg) = [] := rfl
  have hsample : busySamples [.feed, .busy v] = [v] := rfl
  have hsettle : busySamples (evWait c.settleMs) = [] := rfl
  simp only [evBusyWait, busySamples_append, busySamples_polls, hsend, hsample, hsettle, List.nil_append,
    List.append_nil]

theorem busySamples_evWaitOf_length (s : State) {k : Nat} (hk : 1 ≤ k) : (busySamples (evWaitOf s k)).length = k := by
  rw [evWaitOf, busySamples_evBusyWait, List.length_append, List.length_replicate, List.length_singleton]
  omega

/-- Settles O20: the samples end the wait (`exists_busyEnds`) in one way (`BusyEnds.unique`), with O21's effect. -/
theorem everyBusyWaitEnds : Obligations.EveryBusyWaitEnds := by
  unfold Obligations.EveryBusyWaitEnds
  intro s hq hp hmax
  obtain ⟨k, late, he⟩ := exists_busyEnds hmax
  obtain ⟨hpos, hceiling, -, -⟩ := id he
  exact ⟨k, _, evWaitOf s k, busyWaitPollsAndSettles s k late hq hp he, hpos, hceiling, rfl, rfl,
    busySamples_evWaitOf_length s hpos, he, fun _ _ => he.unique⟩

end Sys2Proof.Machine
end

section
/-! Which input a step in the forever loop takes (R171, R178): the byte at hand, the request that pends, or, with both,
the one the choice falls on. -/

namespace Sys2Proof.Machine

/-- In the forever loop a step takes the next input. -/
theorem step_input {s : State} (hc : s.cfg.wf = true) (hd : s.dstate ≠ .faulted) (hm : s.seq.op = .main)
    (hq : s.env = []) : step s = takeInput (nextInput s) := by
  rw [step_main hc hd hm, processOne_of_pass (State.moment_of_quiet hq)]

theorem nextInput_control {s : State} {q : CtlReq} (hr : s.ctlReq = some q) (hx : NoByte s.rx) :
    nextInput s = (.control q, s) := by
  unfold nextInput
  split
  · next hn _ => simp [hr] at hn
  · next hn _ => simp [hr] at hn
  · next b rest _ hb => exact absurd hb (hx b rest)
  · next q' hq' _ => rw [Option.some.inj (hq'.symm.trans hr)]

theorem nextInput_either {s : State} {q : CtlReq} {b : Byte} {rest : List LinkSlot} (hr : s.ctlReq = some q)
    (hx : s.rx = .byte b :: rest) :
    nextInput s = (if s.controlFirst then .control q else .byte b rest, s.afterChoice) := by
  simp only [nextInput, hr, hx]

theorem step_request {s : State} {q : CtlReq} (hc : s.cfg.wf = true) (hd : s.dstate ≠ .faulted)
    (hm : s.seq.op = .main) (hq : s.env = []) (hr : s.ctlReq = some q) (hx : NoByte s.rx) :
    step s = exec (decodeControl q) s := by
  rw [step_input hc hd hm hq, nextInput_control hr hx, takeInput]

/-- With a request and a byte both ready, the choice decides (R178). -/
theorem step_either {s : State} {q : CtlReq} {b : Byte} {rest : List LinkSlot} (hc : s.cfg.wf = true)
    (hd : s.dstate ≠ .faulted) (hm : s.seq.op = .main) (hq : s.env = []) (hr : s.ctlReq = some q)
    (hx : s.rx = .byte b :: rest) :
    step s = if s.controlFirst then exec (decodeControl q) s.afterChoice
      else exec (decodeHost s.cfg b) (s.afterChoice.receive b rest) := by
  rw [step_input hc hd hm hq, nextInput_either hr hx]
  cases s.controlFirst with
  | true => rfl
  | false => simp only [takeInput, State.afterChoice_cfg, Bool.false_eq_true, if_false]

/-- Settles O6: the byte is the only input ready (`step_byte`). -/
theorem stepRunsTheByteReceived : Obligations.StepRunsTheByteReceived := by
  unfold Obligations.StepRunsTheByteReceived
  intro s b rest hc hd hm hq hr hx
  exact step_byte hc hd hm hq hr hx

/-- Settles O7: a request that pends with no byte at hand is taken (`nextInput_control`), and one that comes while the
block waits pends when the loop looks. -/
theorem stepTakesTheRequest : Obligations.StepTakesTheRequest := by
  unfold Obligations.StepTakesTheRequest
  refine ⟨fun s q hc hd hm hq hr hx => step_request hc hd hm hq hr hx, fun s q es hc hd hm he hr hx => ?_⟩
  have hmoment : s.moment = .pass { s with env := es, ctlReq := some q } := (secondRequestIsLost s q es he).1 hr
  rw [step_main hc hd hm, processOne_of_pass hmoment,
    nextInput_control (s := { s with env := es, ctlReq := some q }) rfl hx, takeInput]

/-- Settles O8: the choice is the next one listed, or a free value that is one of the two (`step_either`). -/
theorem stepAdmitsBothOrders : Obligations.StepAdmitsBothOrders := by
  unfold Obligations.StepAdmitsBothOrders
  intro s q b rest hc hd hm hq hr hx
  rw [step_either hc hd hm hq hr hx]
  refine ⟨fun cs h => ?_, fun cs h => ?_, fun h => ?_⟩
  · simp only [State.controlFirst, State.afterChoice, h, if_true]
  · simp only [State.controlFirst, State.afterChoice, h, Bool.false_eq_true, if_false]
    rfl
  · simp only [State.controlFirst, State.afterChoice, h]
    cases Config.controlFirst s.draws with
    | true => exact .inl rfl
    | false => exact .inr rfl

end Sys2Proof.Machine
end

section
/-! The host commands and control requests as a whole while the environment is quiet (R172 to R180): each opens, runs
its panel operation or its payload loop, and ends. -/

namespace Sys2Proof.Machine

/-! ### A command whose operation is not allowed (R179, R205) -/

theorem run_of_walk_eq {p q : Seq} {a b : List Micro} {s t : State} (h : walk p a s = walk q b t) :
    run p a s = run q b t := by
  rw [run, h, run]

/-- A called operation that its entry check does not allow takes the fault there, whatever follows the call. -/
theorem run_call_invalid {op : PanelOp} {s : State} (hq : s.env = []) (hv : validIn op s.pstate = false) (c : Cfg)
    (p : Seq) (rest : List Micro) :
    run p (callCode (.instr op.instr) (instrCode c op.instr) ++ rest) s =
      .next { s.takeFault (invalidPanelState op s.pstate) with seq := p.enter (.instr op.instr) } := by
  obtain ⟨body, hbody⟩ := instrCode_enters c op
  rw [hbody, run]
  simp only [callCode, List.cons_append, List.append_assoc, walk_call, walk_enter_invalid hq hv]

/-- An operation that only `IDLE` allows. -/
theorem validIn_of_ne_idle {op : PanelOp} (hop : op = .clear ∨ op = .display ∨ op = .sleep) {p : PState}
    (hp : p ≠ .idle) : validIn op p = false := by
  obtain rfl | rfl | rfl := hop <;> exact beq_eq_false_iff_ne.mpr hp

theorem exec_writeScreen_open {s : State} (hq : s.env = []) :
    exec .writeScreen s = run (Seq.start (.instr .writeScreen)).next (callCode (.instr .display) (displayCode s.cfg) ++
      .diagShape :: (doneCode s.cfg ++ endCode)) (s.accepted .writeScreen) := by
  rw [exec_eq]
  exact run_of_walk_eq (walk_writeScreen_open hq _)

theorem exec_clearScreen_open {s : State} (hq : s.env = []) :
    exec .clearScreen s = run (Seq.start (.instr .clearScreen)).next (callCode (.instr .clear) (clearCode s.cfg) ++
      (doneCode s.cfg ++ endCode)) (s.accepted .clearScreen) := by
  rw [exec_eq]
  exact run_of_walk_eq (walk_clearScreen_open hq _)

theorem exec_ctlInit_open (s : State) :
    exec .ctlInit s = run (Seq.start (.instr .ctlInit)) (callCode (.instr .initPanel) (initPanelCode s.cfg) ++ endCode)
      (s.requestTaken .ctlInit) := by
  rw [exec_eq]
  exact run_of_walk_eq (walk_ctlInit_open s _)

theorem exec_ctlSleep_open (s : State) :
    exec .ctlSleep s = run (Seq.start (.instr .ctlSleep)) (callCode (.instr .sleep) (sleepCode s.cfg) ++ endCode)
      (s.requestTaken .ctlSleep) := by
  rw [exec_eq]
  exact run_of_walk_eq (walk_ctlSleep_open s _)

/-- Settles O29: once the command has opened, its operation's entry check fails (`run_call_invalid`). -/
theorem commandFaultsOutsideIdle : Obligations.CommandFaultsOutsideIdle := by
  unfold Obligations.CommandFaultsOutsideIdle
  intro s hq hp
  refine ⟨?_, ?_, ?_⟩
  · rw [exec_writeScreen_open hq]
    exact run_call_invalid (op := .display) (s := s.accepted .writeScreen) hq
      (validIn_of_ne_idle (by simp) hp) s.cfg _ _
  · rw [exec_clearScreen_open hq]
    exact run_call_invalid (op := .clear) (s := s.accepted .clearScreen) hq
      (validIn_of_ne_idle (by simp) hp) s.cfg _ _
  · rw [exec_ctlSleep_open]
    exact run_call_invalid (op := .sleep) (s := s.requestTaken .ctlSleep) hq
      (validIn_of_ne_idle (by simp) hp) s.cfg _ _

/-! ### The payload (R172, R180) -/

/-- Send-Buffer is its opening, and then the payload loop from its first byte on. -/
theorem exec_sendBuffer_open {s : State} (hq : s.env = []) :
    exec .sendBuffer s = run (Seq.receiving 0) (receiveCode s.cfg s.cfg.payloadLen) s.receiving := by
  rw [exec_eq]
  exact run_of_walk_eq (walk_sendBuffer_open hq _)

/-- With every byte at hand the loop stores them and the command completes. -/
theorem exec_sendBuffer_all {s : State} (hq : s.env = []) {ps : List Byte} {rest : List LinkSlot}
    (hn : ps.length = s.cfg.payloadLen) (hr : s.rx = ps.map LinkSlot.byte ++ rest) :
    exec .sendBuffer s = .next { (s.receiving.afterPayload ps rest).acked.ended with seq := Seq.main } := by
  rw [exec_sendBuffer_open hq]
  refine run_done (t := (s.receiving.afterPayload ps rest).acked.ended) ?_
  have hlen : s.receiving.rxIdx + ps.length ≤ s.cfg.payloadLen := by simp [State.receiving, hn]
  rw [receiveCode, ← hn, walk_append_done (walk_payload (s := s.receiving) hq ps rest hr hlen _), walk_setDState,
    walk_done_end (by exact hq) (by rfl)]
  simp [State.acked, State.ended, State.said_eq]

/-- With too few bytes at hand the loop stores those that came and stands at the `RxByte()` of the next, having fed. -/
theorem exec_sendBuffer_short {s : State} (hq : s.env = []) {ps : List Byte} {rest : List LinkSlot}
    (hn : ps.length < s.cfg.payloadLen) (hr : s.rx = ps.map LinkSlot.byte ++ rest) (hno : NoByte rest) :
    exec .sendBuffer s =
      .next { (s.receiving.afterPayload ps rest).linkIdle with seq := Seq.receiving ps.length } := by
  obtain ⟨k, hk⟩ : ∃ k, s.cfg.payloadLen = ps.length + (k + 1) := ⟨s.cfg.payloadLen - ps.length - 1, by omega⟩
  have hcode : receiveCode s.cfg s.cfg.payloadLen = (List.replicate ps.length payloadCode).flatten ++
      .rxPayload :: .memWrite :: .bumpIdx :: receiveCode s.cfg k := by
    simp [receiveCode, hk, List.replicate_add, List.replicate_succ, payloadCode]
  have hlen : s.receiving.rxIdx + ps.length < s.cfg.payloadLen := by simpa [State.receiving] using hn
  rw [exec_sendBuffer_open hq, hcode, run, walk_append_done (walk_payload (s := s.receiving) hq ps rest hr hlen.le _),
    placeAll_payload (s := s.receiving) hq ps rest hr hlen.le,
    walk_payload_stalled (by exact hq) (by exact hno) (by exact hlen), Nat.zero_add]

/-- A payload written from cell 0 on is read back. -/
theorem Store.read_payload_stored (fb : Store) {ps : List Byte} {i : Nat} (hi : i < ps.length) :
    Store.read (Store.writeRun fb 0 ps) i = ps[i]? := by
  rw [Store.read_writeRun, if_pos (Nat.zero_le i), Nat.sub_zero, List.getElem?_eq_getElem hi, Option.some_or]

/-- The cells behind it are left. -/
theorem Store.read_payload_behind (fb : Store) {ps : List Byte} {i : Nat} (hi : ps.length ≤ i) :
    Store.read (Store.writeRun fb 0 ps) i = Store.read fb i := by
  rw [Store.read_writeRun, if_pos (Nat.zero_le i), List.getElem?_eq_none (by omega), Option.none_or]

/-- Settles O30: the loop writes the bytes from cell 0 on (`Store.writeRun`), between the two acks. -/
theorem sendBufferStoresThePayload : Obligations.SendBufferStoresThePayload := by
  unfold Obligations.SendBufferStoresThePayload
  intro s ps rest hq hn hr
  refine ⟨Store.writeRun s.fb 0 ps, fun i hi => ?_, fun i hi => ?_, Store.wf_writeRun s.fb 0 ps, ?_⟩
  · exact Store.read_payload_stored s.fb (by omega)
  · exact Store.read_payload_behind s.fb (by omega)
  · rw [exec_sendBuffer_all hq hn hr]
    simp [State.acked, State.ended, State.said_eq, State.afterPayload, State.receiving, hn]

/-- Settles O31: the loop writes the bytes that came and stands before the next (`exec_sendBuffer_short`). -/
theorem shortPayloadLeavesTheBlockReceiving : Obligations.ShortPayloadLeavesTheBlockReceiving := by
  unfold Obligations.ShortPayloadLeavesTheBlockReceiving
  intro s ps rest hq hn hr hno
  refine ⟨Store.writeRun s.fb 0 ps, fun i hi => ?_, fun i hi => ?_, ?_⟩
  · exact Store.read_payload_stored s.fb hi
  · exact Store.read_payload_behind s.fb hi
  · rw [exec_sendBuffer_short hq hn hr hno]
    simp [State.linkIdle, State.afterPayload, State.receiving]

/-! ### Write-Screen and Clear-Screen (R173, R174) -/

/-- After a Display of a good frame, Write-Screen's test is passed over (R173). -/
theorem walk_diagShape_ok {s : State} (hr : s.lastResult = .ok) (p : Seq) (ms : List Micro) :
    walk p (.diagShape :: ms) s = walk p ms s := by
  simp [walk, Micro.exec, Micro.place, Micro.counts, hr]

/-- Write-Screen, from how its Display of a good frame ends (R176). -/
theorem exec_writeScreen_done {s t : State} (hq : s.env = [])
    (hd : ∀ p, walk p (displayCode s.cfg) (s.accepted .writeScreen) = .done t) (hr : t.lastResult = .ok)
    (ht : t.env = []) (hc : t.cfg = s.cfg) : exec .writeScreen s = .next { t.acked.ended with seq := Seq.main } := by
  rw [exec_writeScreen_open hq]
  refine run_done ?_
  rw [walk_append_done (walk_callCode (hd _)), walk_diagShape_ok hr, walk_done_end ht hc]

/-- Clear-Screen, from how its Clear ends. -/
theorem exec_clearScreen_done {s t : State} (hq : s.env = [])
    (hd : ∀ p, walk p (clearCode s.cfg) (s.accepted .clearScreen) = .done t) (ht : t.env = [])
    (hc : t.cfg = s.cfg) : exec .clearScreen s = .next { t.acked.ended with seq := Seq.main } := by
  rw [exec_clearScreen_open hq]
  refine run_done ?_
  rw [walk_append_done (walk_callCode (hd _)), walk_done_end ht hc]

/-- What a command leaves that has opened, sent both planes and refreshed, said of the state before it. -/
theorem State.accepted_shown (s : State) (o : CurOp) (black red : List Byte) (k : Nat) (late : Bool) :
    { (((s.accepted o).planesSent black red).afterRefresh k late).acked.ended with seq := Seq.main } =
      ({ s.waited k late with
        pstate := .idle
        curOp := .none
        dstate := .await
        lineDc := .driven 0
        lineCs := .driven 1
        seq := Seq.main
        trace :=
          (evAck s.cfg ++ evPlanes s.cfg black red ++ evWaitOf s k ++ evAck s.cfg).reverse ++ s.trace } : State).said
          (diagAtDone s.cfg o) := by
  have hwait : evWaitOf (s.accepted o) k = evWaitOf s k := rfl
  rw [State.planesSent_afterRefresh, hwait]
  simp only [State.waited, State.said_eq, State.acked, State.ended]
  simp [State.accepted]

/-- Settles O33: it opens, Display shows the store (`walk_display`), and it is done. -/
theorem writeScreenDisplaysTheStore : Obligations.WriteScreenDisplaysTheStore := by
  unfold Obligations.WriteScreenDisplaysTheStore
  intro s k late hq hp hs he
  have hshown : (s.accepted .writeScreen).displayed =
      (({ s.frameRead with lastResult := .ok } : State).accepted .writeScreen).planesSent s.blackBytes s.redBytes := rfl
  have hd := walk_display (s := s.accepted .writeScreen) hq hp hs (he.congr rfl rfl rfl)
  rw [hshown] at hd
  rw [exec_writeScreen_done hq hd (State.said_lastResult _ _) ((State.said_env _ _).trans hq) (State.said_cfg _ _),
    State.accepted_shown]
  simp only [State.waited, State.said_eq]
  rfl

/-- Settles O34: it opens, Clear blanks both planes (`walk_clear`), and it is done. -/
theorem clearScreenClears : Obligations.ClearScreenClears := by
  unfold Obligations.ClearScreenClears
  intro s k late hq hp he
  have hd := walk_clear (s := s.accepted .clearScreen) hq hp (he.congr rfl rfl rfl)
  rw [exec_clearScreen_done hq hd ((State.said_env _ _).trans hq) (State.said_cfg _ _), State.accepted_shown]
  rfl

/-! ### The control requests (R177) -/

/-- INIT, from how its Initialize ends. -/
theorem exec_ctlInit_done {s t : State} (h : ∀ p, walk p (initPanelCode s.cfg) (s.requestTaken .ctlInit) = .done t) :
    exec .ctlInit s = .next { t.ended with seq := Seq.main } := by
  rw [exec_ctlInit_open]
  exact run_done (by rw [walk_append_done (walk_callCode (h _)), walk_end])

/-- SLEEP, from how its Sleep ends. -/
theorem exec_ctlSleep_done {s t : State} (h : ∀ p, walk p (sleepCode s.cfg) (s.requestTaken .ctlSleep) = .done t) :
    exec .ctlSleep s = .next { t.ended with seq := Seq.main } := by
  rw [exec_ctlSleep_open]
  exact run_done (by rw [walk_append_done (walk_callCode (h _)), walk_end])

/-- Settles O35: the request is taken, its operation performed, and the cycle ends, with no ack. -/
theorem controlRequestsArePerformed : Obligations.ControlRequestsArePerformed := by
  unfold Obligations.ControlRequestsArePerformed
  refine ⟨fun s hq hw => ?_, fun s k late hq hw he => ?_, fun s k late hq hp he => ?_⟩
  · rw [exec_ctlInit_done (s := s) (walk_initPanel (s := s.requestTaken .ctlInit) hq hw)]
    simp [State.poweredOn, State.configured, State.ended, State.requestTaken, evInit]
  · have hwait : evWaitOf (s.requestTaken .ctlInit).poweredOn k = evWaitOf s k := evWaitOf_congr k rfl rfl rfl
    rw [exec_ctlInit_done (s := s)
      (walk_initPanel_wait (s := s.requestTaken .ctlInit) hq hw (he.congr rfl rfl rfl))]
    simp only [State.afterBusyWait, State.waited, State.configured, State.said_eq, State.ended, hwait]
    simp [State.poweredOn, State.requestTaken, evInit]
  · have hwait : evWaitOf (s.requestTaken .ctlSleep).poweredOff k = evWaitOf s k := by
      rw [State.poweredOff_eq]
      exact evWaitOf_congr k rfl rfl rfl
    rw [exec_ctlSleep_done (s := s) (walk_sleep (s := s.requestTaken .ctlSleep) hq hp (he.congr rfl rfl rfl))]
    simp only [State.sent, State.afterBusyWait, State.waited, State.said_eq, State.ended, hwait]
    simp [State.poweredOff_eq, State.requestTaken]
    rfl

end Sys2Proof.Machine
end

section
/-! A block that the environment leaves alone stays alone, and stays in its dispatch cycle (R170, R205). -/

namespace Sys2Proof.Machine

/-! ### Nothing scheduled stays so -/

theorem Micro.exec_staysQuiet (m : Micro) {s : State} (hq : s.env = []) :
    (m.exec s).Meets (·.env = []) (·.env = []) (fun _ => False) True := by
  cases h : m.exec s with
  | go t => exact List.suffix_nil.mp (hq ▸ (Micro.exec_frame h).env)
  | hold t =>
    obtain ⟨es, he, -⟩ | ⟨es, ds, q, hes, ⟨-, rfl⟩ | ⟨op, -, -, rfl⟩⟩ := Micro.exec_hold h
    · simp [hq] at he
    · exact List.suffix_nil.mp (hq ▸ hes)
    · exact List.suffix_nil.mp (hq ▸ hes)
  | gone t =>
    obtain ⟨e, es, cause, he, -⟩ := Micro.exec_gone h
    simp [hq] at he
  | fault r => trivial

theorem run_staysQuiet {p : Seq} {ms : List Micro} {s t : State} (hq : s.env = []) (h : run p ms s = .next t) :
    t.env = [] := by
  have hw := walk_meets (fun (m : Micro) (_ : m ∈ ms) _ hu => m.exec_staysQuiet hu) hq p
  obtain ⟨u, hu, rfl⟩ | ⟨u, q, hu, rfl⟩ | hu := run_meets hw h
  · exact hu
  · exact hu
  · exact hu.elim

theorem takeInput_staysQuiet {x : Input × State} {t : State} (hq : x.2.env = []) (h : takeInput x = .next t) :
    t.env = [] := by
  obtain ⟨i, u⟩ := x
  cases i with
  | control q => exact run_staysQuiet hq ((exec_eq (decodeControl q) u).symm.trans h)
  | byte b rest =>
    exact run_staysQuiet (s := u.receive b rest) hq ((exec_eq (decodeHost u.cfg b) (u.receive b rest)).symm.trans h)
  | nothing => cases h; exact hq

theorem nextInput_env (s : State) : (nextInput s).2.env = s.env := by
  obtain h | h := nextInput_state s <;> rw [h]
  exact s.afterChoice_env

theorem step_staysQuiet {s t : State} (hq : s.env = []) (h : step s = .next t) : t.env = [] := by
  have hc := wf_of_step h
  by_cases hd : s.dstate = .faulted
  · rw [step_faulted hc hd, idleFaulted, State.moment_of_quiet hq] at h
    cases h
    exact hq
  · by_cases hm : s.seq.op = .main
    · rw [step_input hc hd hm hq] at h
      exact takeInput_staysQuiet ((nextInput_env s).trans hq) h
    · have hs : { s with env := [] } = s := by rw [← hq]
      have hrun := step_continues hc (not_or.mpr ⟨hd, hm⟩) []
      rw [hs] at hrun
      exact run_staysQuiet hq (hrun ▸ h)

/-! ### Where a cycle can end -/

/-- A step that began with the panel in `p` has ended in the dispatch cycle, faulted only if the panel was asleep, and
receiving only with the panel as it was (R170, R205). -/
structure State.EndsCycle (t : State) (p : PState) : Prop where
  place : t.Settled ∨ t.Receiving ∨ t.FaultedAsleep
  faulted : t.dstate = .faulted → p = .sleeping
  receiving : t.dstate = .recv → t.pstate = p

theorem State.Settled.endsCycle {t : State} (h : t.Settled) (p : PState) : t.EndsCycle p := by
  obtain ⟨-, hd, -⟩ := id h
  exact ⟨.inl h, by simp [hd], by simp [hd]⟩

theorem State.Receiving.endsCycle {t : State} (h : t.Receiving) : t.EndsCycle t.pstate := by
  obtain ⟨-, -, hd, -⟩ := id h
  exact ⟨.inr (.inl h), by simp [hd], fun _ => rfl⟩

/-- An operation that `SLEEPING` does not allow has taken the fault. -/
theorem State.FaultedAsleep.of_check {t : State} {op : PanelOp} (hv : validIn op .sleeping = false)
    (hd : t.dstate = .faulted) (hp : t.pstate = .sleeping) (hf : t.fault = some ⟨0x04, op, t.pstate⟩) :
    t.FaultedAsleep :=
  ⟨hd, hp, op, hv, hp ▸ hf⟩

theorem State.FaultedAsleep.endsCycle {t : State} (h : t.FaultedAsleep) : t.EndsCycle .sleeping := by
  obtain ⟨hd, -⟩ := id h
  exact ⟨.inr (.inr h), fun _ => rfl, by simp [hd]⟩

/-- A command that ends with no session, no fault, the watchdog armed and the panel `IDLE` or `SLEEPING` ends a
cycle. -/
theorem State.ended_settled {s : State} (hb : s.bwActive = false) (hf : s.fault = none) (hw : s.wdtArmed = true)
    (hp : s.pstate = .idle ∨ s.pstate = .sleeping) : State.Settled { s.ended with seq := Seq.main } :=
  ⟨rfl, rfl, rfl, hb, hf, hw, hp⟩

theorem State.acked_settled {s : State} (hb : s.bwActive = false) (hf : s.fault = none) (hw : s.wdtArmed = true)
    (hp : s.pstate = .idle ∨ s.pstate = .sleeping) : State.Settled { s.acked.ended with seq := Seq.main } := by
  unfold State.acked
  exact State.ended_settled (by simpa using hb) (by simpa using hf) (by simpa using hw) (by simpa using hp)

/-! ### The payload loop -/

/-- The link shows `n` bytes, or fewer and then none. -/
theorem exists_payload (n : Nat) (slots : List LinkSlot) :
    ∃ ps rest, slots = List.map LinkSlot.byte ps ++ rest ∧ (ps.length = n ∨ ps.length < n ∧ NoByte rest) := by
  induction n generalizing slots with
  | zero => exact ⟨[], slots, rfl, .inl rfl⟩
  | succ n ih =>
    by_cases hb : NoByte slots
    · exact ⟨[], slots, rfl, .inr ⟨n.succ_pos, hb⟩⟩
    · simp only [NoByte, not_forall, not_not] at hb
      obtain ⟨b, rest, rfl⟩ := hb
      obtain ⟨ps, rest, rfl, h⟩ := ih rest
      exact ⟨b :: ps, rest, rfl, by simpa using h⟩

/-- In the payload loop the block takes the bytes at hand and completes the command, or waits for the next. -/
theorem State.Receiving.step_endsCycle {s t : State} (hr : s.Receiving) (hc : s.cfg.wf = true) (hq : s.env = [])
    (h : step s = .next t) : t.EndsCycle s.pstate := by
  obtain ⟨hseq, hidx, hd, ho, hb, hf, hw, hp⟩ := hr
  have hne : s.dstate ≠ .faulted := by simp [hd]
  obtain ⟨ps, rest, hrx, hlen | ⟨hlen, hno⟩⟩ := exists_payload (s.cfg.payloadLen - s.rxIdx) s.rx
  · rw [step_receiving_all hc hne hq hseq (by omega) hrx] at h
    cases h
    exact (State.acked_settled (s := s.afterPayload ps rest) hb hf hw hp).endsCycle _
  · rw [step_receiving_short hc hne hq hseq (by omega) hrx hno] at h
    cases h
    refine State.Receiving.endsCycle ⟨rfl, ?_, hd, ho, hb, hf, hw, hp⟩
    simp only [State.linkIdle, State.afterPayload]
    omega

/-! ### The inputs of the forever loop -/

theorem State.Settled.afterChoice {s : State} (hs : s.Settled) : s.afterChoice.Settled := by
  simpa [State.Settled] using hs

section
variable {s t : State} (hs : s.Settled) (hq : s.env = [])
include hs hq

theorem State.Settled.exec_sendBuffer_endsCycle (h : exec .sendBuffer s = .next t) : t.EndsCycle s.pstate := by
  obtain ⟨-, -, -, hb, hf, hw, hp⟩ := hs
  obtain ⟨ps, rest, hrx, hlen | ⟨hlen, hno⟩⟩ := exists_payload s.cfg.payloadLen s.rx
  · rw [exec_sendBuffer_all hq hlen hrx] at h
    cases h
    exact (State.acked_settled (s := s.receiving.afterPayload ps rest) hb hf hw hp).endsCycle _
  · rw [exec_sendBuffer_short hq hlen hrx hno] at h
    cases h
    refine State.Receiving.endsCycle ⟨?_, ?_, rfl, rfl, hb, hf, hw, hp⟩ <;>
      simp [State.linkIdle, State.afterPayload, State.receiving, hlen]

theorem State.Settled.exec_unknown_endsCycle (op : Byte) (h : exec (.unknown op) s = .next t) :
    t.EndsCycle s.pstate := by
  obtain ⟨-, hd, ho, hb, hf, hw, hp⟩ := hs
  rw [unknownOpcodeIsOnlyLogged s op hq] at h
  cases h
  refine State.Settled.endsCycle ?_ _
  exact ⟨rfl, hd, ho, hb, hf, hw, hp⟩

variable (hc : s.cfg.wf = true)
include hc

theorem State.Settled.exec_writeScreen_endsCycle (h : exec .writeScreen s = .next t) : t.EndsCycle s.pstate := by
  obtain ⟨-, -, -, -, hf, hw, hp | hp⟩ := hs
  · obtain ⟨k, late, he⟩ := exists_busyEnds_of_wf (s := s.frameRead) hc
    rw [writeScreenDisplaysTheStore s k late hq hp (shapeOk_of_wf hc) he] at h
    cases h
    exact State.Settled.endsCycle (by simp [State.Settled, State.waited, State.frameRead, hf, hw]) _
  · rw [(commandFaultsOutsideIdle s hq (by simp [hp])).1] at h
    cases h
    rw [hp]
    refine State.FaultedAsleep.endsCycle ?_
    exact .of_check (op := .display) rfl rfl rfl rfl

theorem State.Settled.exec_clearScreen_endsCycle (h : exec .clearScreen s = .next t) : t.EndsCycle s.pstate := by
  obtain ⟨-, -, -, -, hf, hw, hp | hp⟩ := hs
  · obtain ⟨k, late, he⟩ := exists_busyEnds_of_wf hc
    rw [clearScreenClears s k late hq hp he] at h
    cases h
    exact State.Settled.endsCycle (by simp [State.Settled, State.waited, hf, hw]) _
  · rw [(commandFaultsOutsideIdle s hq (by simp [hp])).2.1] at h
    cases h
    rw [hp]
    refine State.FaultedAsleep.endsCycle ?_
    exact .of_check (op := .clear) rfl rfl rfl rfl

theorem State.Settled.exec_ctlSleep_endsCycle (h : exec .ctlSleep s = .next t) : t.EndsCycle s.pstate := by
  obtain ⟨-, -, -, -, hf, hw, hp | hp⟩ := hs
  · obtain ⟨k, late, he⟩ := exists_busyEnds_of_wf hc
    rw [controlRequestsArePerformed.2.2 s k late hq hp he] at h
    cases h
    exact State.Settled.endsCycle (by simp [State.Settled, State.waited, hf, hw]) _
  · rw [(commandFaultsOutsideIdle s hq (by simp [hp])).2.2] at h
    cases h
    rw [hp]
    refine State.FaultedAsleep.endsCycle ?_
    exact .of_check (op := .sleep) rfl rfl rfl rfl

theorem State.Settled.exec_ctlInit_endsCycle (h : exec .ctlInit s = .next t) : t.EndsCycle s.pstate := by
  obtain ⟨-, -, -, hb, hf, hw, -⟩ := hs
  refine State.Settled.endsCycle ?_ _
  cases hinit : s.cfg.initBusyWait with
  | false =>
    rw [controlRequestsArePerformed.1 s hq hinit] at h
    cases h
    exact ⟨rfl, rfl, rfl, hb, hf, hw, .inl rfl⟩
  | true =>
    obtain ⟨k, late, he⟩ := exists_busyEnds_of_wf hc
    rw [controlRequestsArePerformed.2.1 s k late hq hinit he] at h
    cases h
    simp [State.Settled, State.waited, hf, hw]

/-- Each of the four classes of opcode bytes (R82, R84). -/
theorem State.Settled.exec_decodeHost_endsCycle (b : Byte) (h : exec (decodeHost s.cfg b) s = .next t) :
    t.EndsCycle s.pstate := by
  unfold decodeHost at h
  split_ifs at h
  · exact hs.exec_sendBuffer_endsCycle hq h
  · exact hs.exec_writeScreen_endsCycle hq hc h
  · exact hs.exec_clearScreen_endsCycle hq hc h
  · exact hs.exec_unknown_endsCycle hq b h

theorem State.Settled.takeInput_endsCycle (i : Input) (h : takeInput (i, s) = .next t) : t.EndsCycle s.pstate := by
  cases i with
  | control q =>
    cases q with
    | init => exact hs.exec_ctlInit_endsCycle hq hc h
    | sleep => exact hs.exec_ctlSleep_endsCycle hq hc h
  | byte b rest => exact State.Settled.exec_decodeHost_endsCycle (s := s.receive b rest) hs hq hc b h
  | nothing =>
    cases h
    refine State.Settled.endsCycle ?_ _
    exact hs

theorem State.Settled.step_endsCycle (h : step s = .next t) : t.EndsCycle s.pstate := by
  obtain ⟨hseq, hd, -⟩ := id hs
  rw [step_input hc (by simp [hd]) (by rw [hseq]; rfl) hq, ← Prod.mk.eta (p := nextInput s)] at h
  obtain hn | hn := nextInput_state s <;> rw [hn] at h
  · exact hs.takeInput_endsCycle hq hc _ h
  · rw [← s.afterChoice_pstate]
    exact hs.afterChoice.takeInput_endsCycle (s.afterChoice_env.trans hq) (s.afterChoice_cfg ▸ hc) _ h

end

/-- Settles O48: a step keeps CFG and an empty schedule, and ends the cycle from each of its three places. -/
theorem dispatchCycleEndsSettled : Obligations.DispatchCycleEndsSettled := by
  unfold Obligations.DispatchCycleEndsSettled
  intro s t hs h
  obtain ⟨hc, hq, hplace⟩ := hs
  have hends : t.EndsCycle s.pstate := by
    obtain hset | hrecv | hfault := hplace
    · exact hset.step_endsCycle hq hc h
    · exact hrecv.step_endsCycle hc hq h
    · obtain ⟨hd, hp, -⟩ := id hfault
      rw [step_faulted hc hd, idleFaulted, State.moment_of_quiet hq] at h
      cases h
      exact hp ▸ hfault.endsCycle
  have hcfg : t.cfg = s.cfg := stepKeepsTheConfiguration s t h
  exact ⟨⟨hcfg ▸ hc, step_staysQuiet hq h, hends.place⟩, hends.faulted, hends.receiving⟩

end Sys2Proof.Machine
end

section
/-! A frame sent with Send-Buffer is the one that Write-Screen shows (R183): every cell holds its byte, so the planes are
read without a free value. -/

namespace Sys2Proof.Machine

/-- Cells that all hold a byte are read as those bytes, and no free value is drawn (R65). -/
theorem cellBytes_of_read {fb : Store} {is : List Nat} {bs : List Byte} (h : is.map (Store.read fb) = bs.map some)
    (n : Nat) : cellBytes fb n is = bs ∧ unwrittenIn fb is = 0 := by
  induction is generalizing bs with
  | nil => cases bs with
    | nil => exact ⟨rfl, rfl⟩
    | cons b bs => cases h
  | cons i is ih => cases bs with
    | nil => cases h
    | cons b bs =>
      obtain ⟨hi, his⟩ := List.cons_eq_cons.mp h
      obtain ⟨hbytes, hnone⟩ := ih his
      refine ⟨by simp only [cellBytes, hi, hbytes], ?_⟩
      rw [unwrittenIn, List.countP_cons_of_neg (by simp [hi])]
      exact hnone

/-- A run of cells of a store that holds `ps` from cell 0 on. -/
theorem map_read_range' {fb : Store} {ps : List Byte} (h : ∀ i, i < ps.length → Store.read fb i = ps[i]?) {a k : Nat}
    (hk : a + k ≤ ps.length) : (List.range' a k).map (Store.read fb) = ((ps.drop a).take k).map some := by
  refine List.ext_getElem (by simp; omega) fun j hj _ => ?_
  simp only [List.length_map, List.length_range'] at hj
  simp [h (a + j) (by omega), List.getElem?_eq_getElem (show a + j < ps.length by omega)]

/-- The two planes of a store that holds the payload `ps` (R62, R124). -/
theorem State.planes_of_payload {s : State} {ps : List Byte} (hn : ps.length = 2 * s.cfg.planeSize)
    (h : ∀ i, i < ps.length → Store.read s.fb i = ps[i]?) :
    (s.blackBytes = ps.take s.cfg.planeSize ∧ s.blackDraws = 0) ∧
      s.redBytes = ps.drop s.cfg.planeSize ∧ s.redDraws = 0 := by
  refine ⟨cellBytes_of_read ?_ _, cellBytes_of_read ?_ _⟩
  · simpa [planeCells, planeBase] using map_read_range' h (a := 0) (k := s.cfg.planeSize) (by omega)
  · rw [planeCells, planeBase, map_read_range' h (by omega), List.take_of_length_le (by simp; omega)]

/-- A built block in the forever loop, left alone, the panel `IDLE` and no request pending. -/
structure State.Ready (s : State) : Prop where
  cfgOk : s.cfg.wf = true
  alive : s.dstate ≠ .faulted
  loop : s.seq.op = .main
  quiet : s.env = []
  noRequest : s.ctlReq = none
  idle : s.pstate = .idle

theorem State.Ready.step_byte {s : State} {b : Byte} {rest : List LinkSlot} (h : s.Ready)
    (hr : s.rx = .byte b :: rest) : step s = exec (decodeHost s.cfg b) (s.receive b rest) :=
  Machine.step_byte h.cfgOk h.alive h.loop h.quiet h.noRequest hr

/-- A step that receives Send-Buffer stores the payload behind it, and the block is ready again. -/
theorem State.Ready.stores {s : State} {ps : List Byte} {rest : List LinkSlot} (h : s.Ready)
    (hn : ps.length = s.cfg.payloadLen) (hr : s.rx = .byte s.cfg.opSendBuffer :: (ps.map LinkSlot.byte ++ rest)) :
    ∃ t, step s = .next t ∧ t.Ready ∧ t.cfg = s.cfg ∧ t.rx = rest ∧
      (∀ i, i < ps.length → Store.read t.fb i = ps[i]?) ∧
      t.trace = (.rx s.cfg.opSendBuffer :: evAck s.cfg ++ ps.map Event.rx ++ evAck s.cfg).reverse ++ s.trace := by
  obtain ⟨f, hread, -, -, hexec⟩ :=
    sendBufferStoresThePayload (s.receive s.cfg.opSendBuffer (ps.map LinkSlot.byte ++ rest)) ps rest h.quiet hn rfl
  rw [← decodeHost_opSendBuffer s.cfg] at hexec
  refine ⟨_, (h.step_byte hr).trans hexec, ⟨?_, ?_, ?_, ?_, ?_, ?_⟩, ?_, ?_, fun i hi => ?_, ?_⟩
  · simpa using h.cfgOk
  · simp
  · simp [Seq.main, Seq.start]
  · simpa using h.quiet
  · simpa using h.noRequest
  · simpa using h.idle
  · simp
  · simp
  · simpa using hread i (hn ▸ hi)
  · simp

/-- A step that receives Write-Screen shows the payload the store holds. -/
theorem State.Ready.shows {s : State} {ps : List Byte} {rest : List LinkSlot} {k : Nat} {late : Bool} (h : s.Ready)
    (hn : ps.length = s.cfg.payloadLen) (hread : ∀ i, i < ps.length → Store.read s.fb i = ps[i]?)
    (hr : s.rx = .byte s.cfg.opWriteScreen :: rest) (he : BusyEnds s k late) :
    ∃ t, step s = .next t ∧ t.pstate = .idle ∧
      t.trace = (.rx s.cfg.opWriteScreen :: evAck s.cfg ++ evPlanes s.cfg (ps.take s.cfg.planeSize)
        (ps.drop s.cfg.planeSize) ++ evWaitOf s k ++ evAck s.cfg).reverse ++ s.trace := by
  obtain ⟨⟨hblack, hbd⟩, hred, hrd⟩ :=
    (s.receive s.cfg.opWriteScreen rest).planes_of_payload (hn.trans (payloadLen_of_wf h.cfgOk)) hread
  have hdraws : (s.receive s.cfg.opWriteScreen rest).frameRead.draws = s.draws := by
    simp [State.frameRead, hbd, hrd]
  have hexec := writeScreenDisplaysTheStore (s.receive s.cfg.opWriteScreen rest) k late h.quiet h.idle
    (shapeOk_of_wf h.cfgOk) (he.congr rfl hdraws rfl)
  have hwait : evWaitOf (s.receive s.cfg.opWriteScreen rest).frameRead k = evWaitOf s k :=
    evWaitOf_congr k rfl hdraws rfl
  rw [hblack, hred, hwait, ← decodeHost_opWriteScreen h.cfgOk] at hexec
  refine ⟨_, (h.step_byte hr).trans hexec, ?_, ?_⟩
  · simp
  · simp

/-- Settles O39: the first step stores the payload (`State.Ready.stores`), the second shows it (`State.Ready.shows`). -/
theorem storedFrameIsShownAsReceived : Obligations.StoredFrameIsShownAsReceived := by
  unfold Obligations.StoredFrameIsShownAsReceived
  intro s ps rest hc hd hm hq hr hp hn hx
  obtain ⟨t, hstep, ht, hcfg, hrx, hread, htrace⟩ := State.Ready.stores ⟨hc, hd, hm, hq, hr, hp⟩ hn hx
  refine ⟨t, hstep, fun k late he => ?_⟩
  obtain ⟨u, hu, hidle, hutrace⟩ := ht.shows (hcfg ▸ hn) hread (hcfg ▸ hrx) he
  refine ⟨u, hu, hidle, ?_⟩
  rw [hutrace, htrace, hcfg]
  simp [evPlanes]

end Sys2Proof.Machine
end

section
/-! A control request interrupts nothing (R46, R178): the moment it comes in passes as a quiet one would, and from there
the block does the same with the request pending, which only the forever loop and the first step of a control request
look at. -/

namespace Sys2Proof.Machine

/-! ### The sequences take a request at their first step alone (R177) -/

/-- No request taken. -/
def Micro.keepsRequest : Micro → Bool
  | .takeRequest => false
  | _ => true

theorem Micro.keepsRequest_of_bus (m : Micro) (h : m.bus = true) : m.keepsRequest = true := by
  cases m
  case takeRequest => cases h
  all_goals rfl

theorem busyWaitCode_keepsRequest (c : Cfg) : (busyWaitCode c).all Micro.keepsRequest = true := by
  have hbus := Micro.keepsRequest_of_bus
  simp [busyWaitCode, flgCode, pollCode, callCode_all hbus, cmdCode_all hbus, waitCode_all hbus, Micro.keepsRequest]

theorem refreshCode_keepsRequest (c : Cfg) : (refreshCode c).all Micro.keepsRequest = true := by
  have hbus := Micro.keepsRequest_of_bus
  simp [refreshCode, drfCode, callCode_all hbus, cmdCode_all hbus, busyWaitCode_keepsRequest, Micro.keepsRequest]

theorem initPanelCode_keepsRequest (c : Cfg) : (initPanelCode c).all Micro.keepsRequest = true := by
  have hbus := Micro.keepsRequest_of_bus
  have hwait : (initWaitCode c).all Micro.keepsRequest = true := by
    unfold initWaitCode
    split
    · rw [callCode_all hbus, busyWaitCode_keepsRequest]
    · rfl
  simp [initPanelCode, btstCode, ponCode, psrCode, cdiCode, tresCode, callCode_all hbus, pulseCode_all hbus,
    sendCode_all hbus, hwait, Micro.keepsRequest]

theorem clearCode_keepsRequest (c : Cfg) : (clearCode c).all Micro.keepsRequest = true := by
  have hbus := Micro.keepsRequest_of_bus
  simp [clearCode, dtm1Code, dtm2Code, callCode_all hbus, planeCode_all hbus, refreshCode_keepsRequest,
    Micro.keepsRequest]

theorem displayCode_keepsRequest (c : Cfg) : (displayCode c).all Micro.keepsRequest = true := by
  have hbus := Micro.keepsRequest_of_bus
  cases h : shapeOk c <;>
    simp [displayCode, h, dtm1Code, dtm2Code, callCode_all hbus, planeCode_all hbus, refreshCode_keepsRequest,
      Micro.keepsRequest]

theorem sleepCode_keepsRequest (c : Cfg) : (sleepCode c).all Micro.keepsRequest = true := by
  have hbus := Micro.keepsRequest_of_bus
  simp [sleepCode, cdiCode, pofCode, dslpCode, callCode_all hbus, cmdCode_all hbus, sendCode_all hbus,
    busyWaitCode_keepsRequest, Micro.keepsRequest]

theorem ackCode_keepsRequest (c : Cfg) : (ackCode c).all Micro.keepsRequest = true := by
  unfold ackCode
  cases c.ackMode <;> rfl

theorem doneCode_keepsRequest (c : Cfg) : (doneCode c).all Micro.keepsRequest = true := by
  unfold doneCode
  cases c.ackMode with
  | ack => rw [callCode_all Micro.keepsRequest_of_bus, ackCode_keepsRequest]
  | silent => rfl

/-- An instruction that is no control request. -/
theorem instrCode_keepsRequest (c : Cfg) {i : Instr} (hi : i.format ≠ .ctlReq) :
    (instrCode c i).all Micro.keepsRequest = true := by
  have hbus := Micro.keepsRequest_of_bus
  cases i
  case ctlInit | ctlSleep => exact absurd rfl hi
  case sendBuffer =>
    simp [instrCode, sendBufferCode, callCode_all hbus, ackCode_keepsRequest, doneCode_keepsRequest, payloadCode,
      endCode, Micro.keepsRequest]
  case writeScreen =>
    simp [instrCode, writeScreenCode, callCode_all hbus, ackCode_keepsRequest, doneCode_keepsRequest,
      displayCode_keepsRequest, endCode, Micro.keepsRequest]
  case clearScreen =>
    simp [instrCode, clearScreenCode, callCode_all hbus, ackCode_keepsRequest, doneCode_keepsRequest,
      clearCode_keepsRequest, endCode, Micro.keepsRequest]
  case unknown op => rfl
  case ack => exact ackCode_keepsRequest c
  case btst | pon | psr | cdi | tres | dslp => exact sendCode_all hbus _ _
  case dtm1 | dtm2 => exact planeCode_all hbus _ _ _
  case drf | flg | pof => exact cmdCode_all hbus _
  case data b => exact dataCode_all hbus b
  case initPanel => exact initPanelCode_keepsRequest c
  case clear => exact clearCode_keepsRequest c
  case display => exact displayCode_keepsRequest c
  case refresh => exact refreshCode_keepsRequest c
  case sleep => exact sleepCode_keepsRequest c
  case busyWait => exact busyWaitCode_keepsRequest c

theorem all_tail {f : Micro → Bool} {ms : List Micro} (h : ms.all f = true) : ms.tail.all f = true := by
  simp only [List.all_eq_true] at h ⊢
  exact fun m hm => h m (List.mem_of_mem_tail hm)

/-- Behind its first step no operation takes a request. -/
theorem opCode_tail_keepsRequest (c : Cfg) (op : Operation) : (opCode c op).tail.all Micro.keepsRequest = true := by
  have hcall := callCode_all Micro.keepsRequest_of_bus
  cases op with
  | boot => simp [opCode, bootCode, hcall, initPanelCode_keepsRequest, Micro.keepsRequest]
  | instr i =>
    have hother : i.format ≠ .ctlReq → (instrCode c i).tail.all Micro.keepsRequest = true :=
      fun hi => all_tail (instrCode_keepsRequest c hi)
    cases i with
    | ctlInit =>
      simp [opCode, instrCode, ctlInitCode, hcall, initPanelCode_keepsRequest, endCode, Micro.keepsRequest]
    | ctlSleep => simp [opCode, instrCode, ctlSleepCode, hcall, sleepCode_keepsRequest, endCode, Micro.keepsRequest]
    | _ => exact hother nofun
  | main | command | data | wait | pulse => rfl

/-! ### What is left of an operation is an end of its sequence -/

theorem seek_suffix (s : State) (p : Seq) (ms : List Micro) : seek s p ms <:+ ms := by
  induction ms generalizing p with
  | nil => exact List.suffix_rfl
  | cons m ms ih =>
    rw [seek]
    split
    · exact List.suffix_rfl
    · exact (ih _).trans (List.suffix_cons m ms)

theorem restFrom_suffix (op : Operation) (s : State) (ms : List Micro) : restFrom op s ms <:+ ms := by
  unfold restFrom
  split
  · exact List.suffix_rfl
  · exact seek_suffix s _ ms

/-- What holds of the steps behind a sequence's first holds of those behind the first of an end of it. -/
theorem all_tail_of_suffix {f : Micro → Bool} {a b : List Micro} (h : a <:+ b) (hb : b.tail.all f = true) :
    a.tail.all f = true :=
  List.all_eq_true.mpr fun m hm => List.all_eq_true.mp hb m (h.sublist.tail.subset hm)

/-! ### With a request pending the block does the same -/

/-- The same request pends in the state an elementary step leaves. -/
def Flow.asked (f : Flow) (q : CtlReq) : Flow :=
  match f with
  | .go s => .go (s.asked q)
  | .hold s => .hold (s.asked q)
  | .gone s => .gone (s.asked q)
  | .fault r => .fault r

/-- An effect that neither reads nor writes what pends. -/
def Unasked (f : State → Flow) : Prop := ∀ s q, f (s.asked q) = (f s).asked q

theorem Unasked.go {f : State → State} (h : ∀ s q, f (s.asked q) = (f s).asked q) : Unasked fun s => .go (f s) :=
  fun s q => congrArg Flow.go (h s q)

theorem Unasked.primitive {f : State → Flow} (hf : Unasked f) {s : State} (hq : s.env = []) (q : CtlReq) :
    (s.asked q).primitive f = (s.primitive f).asked q := by
  rw [State.primitive_of_quiet hq, State.primitive_of_quiet (s := s.asked q) hq, hf]

theorem Flow.ite_asked {P : Prop} [Decidable P] {a b a' b' : Flow} {q : CtlReq} (ha : a' = a.asked q)
    (hb : b' = b.asked q) : (if P then a' else b') = (if P then a else b).asked q := by
  split
  · exact ha
  · exact hb

theorem State.memRead_asked (s : State) (q : CtlReq) (i : Nat) : (s.asked q).memRead i = (s.memRead i).asked q := by
  cases h : Store.read s.fb i <;> simp only [State.memRead, State.asked, h]

theorem State.setLine_asked (s : State) (q : CtlReq) (l : Line) (v : Bit) :
    (s.asked q).setLine l v = (s.setLine l v).asked q := by
  cases l <;> rfl

theorem State.poll_asked (s : State) (q : CtlReq) : (s.asked q).poll = s.poll.asked q := by
  simp only [State.poll, State.sampleBusy_eq, apply_ite (State.asked · q)]
  rfl

theorem readCell_unasked (i : Nat) : Unasked (readCell i) :=
  fun s q => Flow.ite_asked (congrArg Flow.go (s.memRead_asked q i)) rfl

theorem receivePayload_unasked : Unasked receivePayload := by
  intro s q
  have hrx : (s.asked q).rx = s.rx := rfl
  unfold receivePayload
  rw [hrx]
  split <;> rfl

theorem Micro.exec_asked {m : Micro} (hm : m.keepsRequest = true) {s : State} (hq : s.env = []) (q : CtlReq) :
    m.exec (s.asked q) = (m.exec s).asked q := by
  have does {f : State → State} (hf : ∀ s q, f (s.asked q) = (f s).asked q) :
      ((s.asked q).primitive fun t => .go (f t)) = (s.primitive fun t => .go (f t)).asked q :=
    (Unasked.go hf).primitive hq q
  cases m
  case takeRequest => cases hm
  case setLine l v => exact does fun s q => s.setLine_asked q l v
  case spiWrite | spiHeld | arm | feed | delay | txByte | diag | diagDone => exact does fun _ _ => rfl
  case raiseFrameSize => exact does (f := id) fun _ _ => rfl
  case memRead i => exact (readCell_unasked i).primitive hq q
  case rxPayload => exact Flow.ite_asked (receivePayload_unasked.primitive hq q) rfl
  case bumpIdx => exact Flow.ite_asked rfl rfl
  case pollSample => exact Flow.ite_asked (does State.poll_asked) rfl
  case memWrite | pollFeed | pollDiag | pollDelay | diagShape => exact Flow.ite_asked (does fun _ _ => rfl) rfl
  case enter op => exact Flow.ite_asked rfl (Unasked.primitive (fun _ _ => rfl) hq q)
  case setPState | setDState | setCurOp | startPayload | setResult | call | ret | pollHead | pollExit |
      openSession | closeSession => rfl

theorem Micro.place_asked (m : Micro) (s : State) (q : CtlReq) (p : Seq) : m.place (s.asked q) p = m.place s p := by
  cases m <;> rfl

theorem run_asked {p : Seq} {ms : List Micro} {s t : State} (hms : ms.all Micro.keepsRequest = true) (hq : s.env = [])
    (q : CtlReq) (h : run p ms s = .next t) : run p ms (s.asked q) = .next (t.asked q) := by
  induction ms generalizing p s with
  | nil => cases h; rfl
  | cons m ms ih =>
    obtain ⟨hm, hms⟩ := Bool.and_eq_true_iff.mp hms
    have hasked := Micro.exec_asked hm hq q
    have hquiet := m.exec_staysQuiet hq
    cases hx : m.exec s with
    | go u =>
      rw [hx] at hasked hquiet
      rw [run_cons_go hx] at h
      rw [run_cons_go hasked, Micro.place_asked]
      exact ih hms hquiet h
    | hold u =>
      rw [hx] at hasked
      rw [run_cons_hold hx] at h
      cases h
      exact run_cons_hold hasked
    | gone u => rw [hx] at hquiet; exact hquiet.elim
    | fault r => simp [run, walk, hx] at h

/-! ### The moment in which the request comes -/

theorem State.primitive_of_request {s : State} {q : CtlReq} {es : List EnvEvent} (h : s.env = .request q :: es)
    (f : State → Flow) : s.primitive f = f ({ s.asked q with env := es } : State) := by
  obtain ⟨hnone, hsome⟩ := secondRequestIsLost s q es h
  cases hr : s.ctlReq with
  | none => simp only [State.primitive, hnone hr, State.asked, hr, Option.getD_none]
  | some r => simp only [State.primitive, hsome r hr, State.asked, hr, Option.getD_some]

/-- A request that comes before a primitive pends, and the primitive is done as with nothing scheduled. -/
theorem Micro.exec_request {m : Micro} {s : State} (hm : m.reached s = true) (q : CtlReq) (r : Seq) :
    m.exec (s.placed [.request q] r) = m.exec ((s.placed [] r).asked q) := by
  have same (f : State → Flow) :
      (s.placed [.request q] r).primitive f = ((s.placed [] r).asked q).primitive f := by
    rw [State.primitive_of_request (s := s.placed [.request q] r) rfl]
    exact (State.primitive_of_quiet (s := (s.placed [] r).asked q) rfl f).symm
  cases m <;> simp only [Micro.reached, reduceCtorEq, Bool.not_eq_eq_eq_not, Bool.not_true, decide_eq_true_eq,
    beq_iff_eq] at hm
  case rxPayload | memWrite | pollFeed | pollSample | pollDiag | pollDelay | diagShape =>
    exact (if_pos hm).trans ((same _).trans (if_pos hm).symm)
  case enter op =>
    have hv : ¬ validIn op s.pstate = true := Bool.eq_false_iff.mp hm
    exact (if_neg hv).trans ((same _).trans (if_neg hv).symm)
  all_goals
    simp only [Micro.exec]
    exact same _

theorem run_cons_congr {p : Seq} {m : Micro} {s t : State} (hx : m.exec s = m.exec t) (hp : m.place s p = m.place t p)
    (ms : List Micro) : run p (m :: ms) s = run p (m :: ms) t := by
  simp only [run, walk, hx, hp]

/-- A request due before the last of `n + 1` primitives of a run changes nothing but that it pends. -/
theorem run_request {p : Seq} {ms : List Micro} {s t : State} {n : Nat} (hms : ms.tail.all Micro.keepsRequest = true)
    (halone : run p ms { s with env := [] } = .next t)
    (hquiet : run p ms { s with env := List.replicate (n + 1) .quiet } = .next t) (q : CtlReq) :
    run p ms { s with env := List.replicate n .quiet ++ [.request q] } = .next (t.asked q) := by
  obtain ⟨a, m, b, r, u, rfl, hm, hg⟩ | hend := run_gets_to_or_ends n p ms s
  · have hm' : m.keepsRequest = true := by
      cases m
      case takeRequest => cases hm
      all_goals rfl
    have hkeeps : (m :: b).all Micro.keepsRequest = true :=
      Bool.and_eq_true_iff.mpr ⟨hm', all_tail_of_suffix (List.suffix_append a (m :: b)) hms⟩
    calc run p (a ++ m :: b) { s with env := List.replicate n .quiet ++ [.request q] }
        = run r (m :: b) (u.placed [.request q] s.seq) := hg.run_quiet (m :: b) [.request q] s.seq
      _ = run r (m :: b) ((u.placed [] s.seq).asked q) :=
          run_cons_congr (m.exec_request hm q s.seq)
            ((m.place_placed u _ _ r).trans ((m.place_asked _ q r).trans (m.place_placed u _ _ r)).symm) b
      _ = .next (t.asked q) := run_asked hkeeps rfl q ((hg.run_alone (m :: b) s.seq).symm.trans halone)
  · have hlast : [EnvEvent.quiet] <:+ t.env := hend [.quiet] s.seq t (by rw [← List.replicate_succ']; exact hquiet)
    rw [run_staysQuiet (s := { s with env := [] }) rfl halone, List.suffix_nil] at hlast
    cases hlast

/-- Settles O52: an instruction, or what is left of an operation, is a run that takes no request behind its first
step. -/
theorem requestNeverInterrupts : Obligations.RequestNeverInterrupts := by
  unfold Obligations.RequestNeverInterrupts
  refine ⟨fun i s t n q hq halone hquiet => ?_, fun s t n q hc hd hm hq halone hquiet => ?_⟩ <;>
    rw [show s = { s with env := [] } by rw [← show s.env = [] from hq]] at halone
  · rw [exec_eq] at halone hquiet ⊢
    exact run_request (opCode_tail_keepsRequest s.cfg (.instr i)) halone hquiet q
  · have hrun := step_continues hc (not_or.mpr ⟨hd, hm⟩)
    rw [hrun] at halone hquiet ⊢
    exact run_request (all_tail_of_suffix (restFrom_suffix _ s _) (opCode_tail_keepsRequest s.cfg s.seq.op)) halone
      hquiet q

end Sys2Proof.Machine
end

section
/-! A block that waits, faulted or in its forever loop (R206, R208, R209, R230): a faulted one does nothing but let the
schedule's moment pass, and each of the two takes a reset at once. -/

namespace Sys2Proof.Machine

/-- A faulted block ends its step with what the moment leaves (R206). -/
theorem step_faulted_pass {s t : State} (hc : s.cfg.wf = true) (hd : s.dstate = .faulted) (hm : s.moment = .pass t) :
    step s = .next t := by
  rw [step_faulted hc hd, idleFaulted, hm]

section
variable {s : State} {es : List EnvEvent}

/-- The request that comes pends, unless another already does (R46). -/
theorem State.moment_of_request {q : CtlReq} (h : s.env = .request q :: es) :
    s.moment = .pass { s.asked q with env := es } := by
  obtain ⟨hnone, hsome⟩ := secondRequestIsLost s q es h
  cases hr : s.ctlReq with
  | none => simp only [hnone hr, State.asked, hr, Option.getD_none]
  | some r => simp only [hsome r hr, State.asked, hr, Option.getD_some]

theorem State.moment_of_pause (h : s.env = .pause :: es) : s.moment = .hold { s with env := es } := by
  unfold State.moment; rw [h]

theorem State.moment_of_quiet_event (h : s.env = .quiet :: es) : s.moment = .pass { s with env := es } := by
  unfold State.moment; rw [h]

/-- A faulted block emits none of the optional lines (R206). -/
theorem State.moment_of_lines_faulted (hd : s.dstate = .faulted) {ls : List Chatter} (h : s.env = .lines ls :: es) :
    s.moment = .pass { s with env := es } := by
  rw [State.moment_of_lines h, State.chatter_faulted (s := { s with env := es }) hd]

/-- A block that waits takes the reset that comes, with its cause (R209, R230). -/
theorem step_waits_resets (hc : s.cfg.wf = true) (hw : s.Waits) {e : EnvEvent} {cause : ResetCause}
    (he : e.Resets cause) (h : s.env = e :: es) : step s = .next (({ s with env := es } : State).resetTo cause) :=
  step_waits_hold hc hw (.inr (State.moment_resets he h))

/-- What each of the three reset inputs does to a block that waits; POR wins when both come together (R209). -/
theorem step_waits_each_reset (hc : s.cfg.wf = true) (hw : s.Waits) :
    (s.env = .por :: es → step s = .next (({ s with env := es } : State).resetTo .por)) ∧
    (s.env = .wdtReset :: es → step s = .next (({ s with env := es } : State).resetTo .wdt)) ∧
    (s.env = .bothResets :: es → step s = .next (({ s with env := es } : State).resetTo .por)) :=
  ⟨step_waits_resets hc hw (.inl ⟨rfl, rfl⟩), step_waits_resets hc hw (.inr (.inl ⟨rfl, rfl⟩)),
    step_waits_resets hc hw (.inr (.inr ⟨rfl, rfl⟩))⟩

end

/-- Settles O56: a faulted block and one in the forever loop wait (`State.Waits`). -/
theorem resetIsTakenAtOnceWhileWaiting : Obligations.ResetIsTakenAtOnceWhileWaiting := by
  unfold Obligations.ResetIsTakenAtOnceWhileWaiting
  intro s es hc hw
  exact step_waits_each_reset hc hw

/-- Settles O14: by the head of the schedule; what passes leaves the block faulted as it was, a pause ends the step and a
reset is taken. -/
theorem faultedBlockOnlyResets : Obligations.FaultedBlockOnlyResets := by
  unfold Obligations.FaultedBlockOnlyResets
  intro s es hc hd
  refine ⟨fun h => ?quietFromNowOn, fun h => ?quietMoment, fun h => ?pause, fun ls h => ?lines, fun q h => ?request,
    step_waits_each_reset hc (.inl hd)⟩
  case quietFromNowOn => exact step_faulted_pass hc hd (State.moment_of_quiet h)
  case quietMoment => exact step_faulted_pass hc hd (State.moment_of_quiet_event h)
  case pause => exact step_waits_hold hc (.inl hd) (.inl (State.moment_of_pause h))
  case lines => exact step_faulted_pass hc hd (State.moment_of_lines_faulted hd h)
  case request => exact step_faulted_pass hc hd (State.moment_of_request h)

end Sys2Proof.Machine
end
